-- ==== Sys2Proof/Word.lean ====
section
/-! DEFINITION. Word types of the engine and the pixel record (10_state.md R23, 00_scope.md R9). -/

namespace Sys2Proof

/-- A stream byte, or one 8-bit channel of a pixel (R7, R23). -/
abbrev Byte := BitVec 8

/-- A cache slot, 0..63 (R26, R60). -/
abbrev Slot := BitVec 6

/-- A 32-bit word: a dimension, or a packed pixel (R27, R62). -/
abbrev Word32 := BitVec 32

/-- A 64-bit counter (R29 to R31). -/
abbrev Word64 := BitVec 64

/-- A pixel: four 8-bit unsigned channels, compared by exact equality of all four (R9, R23). -/
structure Pixel where
  r : Byte
  g : Byte
  b : Byte
  a : Byte
  deriving DecidableEq, Repr

end Sys2Proof
end

