-- ==== Sys2Proof/Config.lean ====
section
/-! DEFINITION. The elaboration-time parameters of an engine (00_scope.md R3, R5): what an implementation fixes. -/

namespace Sys2Proof

/-- The three named parameters of R5, "elaboration-time parameters a model takes as arguments". State carries them in
the field `params`, which no step, command or reset writes (DESIGN CHOICE, log 4), so that a claim about every state is
a claim about every engine. `magic0` is the first byte of MAGIC, the one at stream offset 0 (R81). -/
structure Params where
  magic0 : Byte
  magic1 : Byte
  magic2 : Byte
  magic3 : Byte
  strictColorspace : Bool
  checkEndMarker : Bool
  deriving DecidableEq, Repr

/-- The default parameters of R5: MAGIC `71 6F 69 66`, STRICT_COLORSPACE true, CHECK_END_MARKER false. -/
def Params.default : Params :=
  { magic0 := 0x71, magic1 := 0x6F, magic2 := 0x69, magic3 := 0x66,
    strictColorspace := true, checkEndMarker := false }

/-- MAGIC as the four bytes of the stream, in order (R81). -/
def Params.magic (p : Params) : List Byte := [p.magic0, p.magic1, p.magic2, p.magic3]

end Sys2Proof
end

