-- ==== Sys2Proof/Syntax.lean ====
section
/-! DEFINITION. The six operations of the stream (spec/opcode_table.json, 30_encoding.md), their classes, and the items
of the assembly text (R95, R96). -/

namespace Sys2Proof

/-- The operations, one constructor per row of the opcode table. Operands are the unbiased values of the spec's
assembly syntax (R95): the bias of an encoded field is applied once, in Decode. -/
inductive Instr where
  /-- OP_RGB r, g, b (R85, R152) -/
  | opRgb (r g b : Byte)
  /-- OP_RGBA r, g, b, a (R85, R153) -/
  | opRgba (r g b a : Byte)
  /-- OP_INDEX i (R86, R154) -/
  | opIndex (slot : Slot)
  /-- OP_DIFF dr, dg, db, each in -2..1 (R87, R155) -/
  | opDiff (dr dg db : Int)
  /-- OP_LUMA dg, dr_dg, db_dg: dg in -32..31, the others in -8..7 (R88, R156) -/
  | opLuma (dg drDg dbDg : Int)
  /-- OP_RUN n, n in 1..62 (R89, R157) -/
  | opRun (length : Nat)
  deriving DecidableEq, Repr

/-- The value of `Classify` (R90). -/
inductive OpClass where
  | rgb | rgba | index | diff | luma | run
  deriving DecidableEq, Repr

/-- Why a list of bytes spells no operation: the list is empty, or it ends inside the operation its first byte names.
No first byte is illegal (R92), so there is no other reason. -/
inductive DecodeReject where
  | noByte
  | truncated (op : OpClass)
  deriving DecidableEq, Repr

/-- A line of assembly text (R95, R96), its operands checked against their ranges. -/
inductive AsmItem where
  /-- one of the six operations of R95 -/
  | op (i : Instr)
  /-- `HEADER w, h, ch, cs` -/
  | header (w h : Word32) (ch cs : Byte)
  /-- `END` -/
  | endMarker
  /-- `REPEAT n`, n >= 1 -/
  | repeats (n : Nat)
  /-- `OP_DIFFW dr, dg, db` -/
  | diffw (dr dg db : Int)
  deriving DecidableEq, Repr

end Sys2Proof
end

