-- ==== Sys2Proof/WellFormed.lean ====
section
/-! DEFINITION. Which instructions spell an operation: the operand ranges of 30_encoding.md R95. -/

namespace Sys2Proof

/-- `in(x, lo, hi)` of R8: lo <= x <= hi on integers. -/
def inRange (x lo hi : Int) : Bool := decide (lo ≤ x) && decide (x ≤ hi)

/-- The operand ranges of R95. "An operand outside its range spells no operation." The byte and slot operands cannot
leave their range, which their types are. -/
def Instr.wellFormed : Instr → Bool
  | .opRgb _ _ _ => true
  | .opRgba _ _ _ _ => true
  | .opIndex _ => true
  | .opDiff dr dg db => inRange dr (-2) 1 && inRange dg (-2) 1 && inRange db (-2) 1
  | .opLuma dg drDg dbDg => inRange dg (-32) 31 && inRange drDg (-8) 7 && inRange dbDg (-8) 7
  | .opRun length => decide (1 ≤ length) && decide (length ≤ 62)

end Sys2Proof
end

