-- ==== Sys2Proof/Decode.lean ====
section
/-! DEFINITION. Decoding a list of bytes into an operation and encoding an operation into bytes
(30_encoding.md R84 to R91), and the fixed byte sequences of the stream frame (R83). -/

namespace Sys2Proof

/-- `b[hi:lo]` of R7: the unsigned field of bits hi down to lo, zero-extended to a natural number. -/
def bits (b : Byte) (hi lo : Nat) : Nat := (b.extractLsb hi lo).toNat

/-- `Classify(b1)` of R90: the two full-byte patterns are tested before the 2-bit tags. -/
def classify (b1 : Byte) : OpClass :=
  if b1 = 0xFE then .rgb
  else if b1 = 0xFF then .rgba
  else if bits b1 7 6 = 0b00 then .index
  else if bits b1 7 6 = 0b01 then .diff
  else if bits b1 7 6 = 0b10 then .luma
  else .run

/-- `Length(op)` of R84, in bytes. -/
def OpClass.length : OpClass → Nat
  | .index => 1
  | .diff => 1
  | .run => 1
  | .luma => 2
  | .rgb => 4
  | .rgba => 5

/-- The class of an operation. -/
def Instr.opClass : Instr → OpClass
  | .opRgb _ _ _ => .rgb
  | .opRgba _ _ _ _ => .rgba
  | .opIndex _ => .index
  | .opDiff _ _ _ => .diff
  | .opLuma _ _ _ => .luma
  | .opRun _ => .run

/-- The number of bytes of an operation (R84). -/
def Instr.byteLength (i : Instr) : Nat := i.opClass.length

/-- OP_INDEX's operand (R86): `slot = b1[5:0]`. -/
def indexSlot (b1 : Byte) : Slot := BitVec.ofNat 6 (bits b1 5 0)

/-- OP_DIFF's operands (R87): three unsigned 2-bit fields with a bias of 2, red in the most significant. -/
def decodeDiff (b1 : Byte) : Instr :=
  .opDiff ((bits b1 5 4 : Int) - 2) ((bits b1 3 2 : Int) - 2) ((bits b1 1 0 : Int) - 2)

/-- OP_LUMA's operands (R88): green in the first byte with a bias of 32, the two differences in the second with a
bias of 8. -/
def decodeLuma (b1 b2 : Byte) : Instr :=
  .opLuma ((bits b1 5 0 : Int) - 32) ((bits b2 7 4 : Int) - 8) ((bits b2 3 0 : Int) - 8)

/-- OP_RUN's operand (R89): `length = b1[5:0] + 1`. -/
def decodeRun (b1 : Byte) : Instr := .opRun (bits b1 5 0 + 1)

/-- The operation at the head of a list of bytes, and the bytes after it (R84 to R91). Total: a list is refused only
because it is too short, and by name. -/
def decode : List Byte → Except DecodeReject (Instr × List Byte)
  | [] => .error .noByte
  | b1 :: rest =>
    match classify b1 with
    | .rgb =>
      match rest with
      | r :: g :: b :: rest' => .ok (.opRgb r g b, rest')
      | _ => .error (.truncated .rgb)
    | .rgba =>
      match rest with
      | r :: g :: b :: a :: rest' => .ok (.opRgba r g b a, rest')
      | _ => .error (.truncated .rgba)
    | .index => .ok (.opIndex (indexSlot b1), rest)
    | .diff => .ok (decodeDiff b1, rest)
    | .luma =>
      match rest with
      | b2 :: rest' => .ok (decodeLuma b1 b2, rest')
      | [] => .error (.truncated .luma)
    | .run => .ok (decodeRun b1, rest)

/-- The bytes of an operation (R85 to R89). On an instruction that is not well-formed the value means nothing. -/
def encode : Instr → List Byte
  | .opRgb r g b => [0xFE, r, g, b]
  | .opRgba r g b a => [0xFF, r, g, b, a]
  | .opIndex slot => [0x00#8 ||| slot.setWidth 8]
  | .opDiff dr dg db =>
    [0x40#8 ||| (BitVec.ofInt 8 (dr + 2) <<< 4) ||| (BitVec.ofInt 8 (dg + 2) <<< 2) ||| BitVec.ofInt 8 (db + 2)]
  | .opLuma dg drDg dbDg =>
    [0x80#8 ||| BitVec.ofInt 8 (dg + 32), (BitVec.ofInt 8 (drDg + 8) <<< 4) ||| BitVec.ofInt 8 (dbDg + 8)]
  | .opRun length => [0xC0#8 ||| BitVec.ofNat 8 (length - 1)]

/-- The end marker: seven zero bytes, then 1 (R83). -/
def endMarkerBytes : List Byte := [0x00, 0x00, 0x00, 0x00, 0x00, 0x00, 0x00, 0x01]

/-- A dimension as four bytes, most significant first (R61). -/
def bigEndian32 (w : Word32) : List Byte :=
  [w.extractLsb' 24 8, w.extractLsb' 16 8, w.extractLsb' 8 8, w.extractLsb' 0 8]

/-- Four bytes, most significant first, as a dimension (R61): `{b0, b1, b2, b3}`. -/
def ofBigEndian32 (b0 b1 b2 b3 : Byte) : Word32 := b0 ++ b1 ++ b2 ++ b3

/-- The bytes of an instruction word numbered as the opcode table numbers it (byte k of the stream is bits 8k+7..8k of
`w`), with every bit from `nbits` up taken as 0: five bytes, the longest operation. -/
def tableWordBytes (nbits w : Nat) : List Byte :=
  [BitVec.ofNat 8 (w % 2 ^ nbits), BitVec.ofNat 8 (w % 2 ^ nbits / 2 ^ 8), BitVec.ofNat 8 (w % 2 ^ nbits / 2 ^ 16),
   BitVec.ofNat 8 (w % 2 ^ nbits / 2 ^ 24), BitVec.ofNat 8 (w % 2 ^ nbits / 2 ^ 32)]

/-- The instruction the decoder reads from a table word. -/
def decodeTableWord (nbits w : Nat) : Option Instr :=
  match decode (tableWordBytes nbits w) with
  | .ok (i, _) => some i
  | .error _ => none

/-- The bytes of a table word that belong to its instruction: as many as its first byte says (R84). -/
def tableInstrBytes (nbits w : Nat) : List Byte :=
  (tableWordBytes nbits w).take (classify (BitVec.ofNat 8 (w % 2 ^ nbits))).length

end Sys2Proof
end

