-- ==== Sys2Proof/Machine/State.lean ====
section
/-! DEFINITION. The state of the engine and of its ports (10_state.md), the reset state (R40), and the reasons a step
can stop. -/

namespace Sys2Proof.Machine

/-- `PHASE` (R20). Its encoding in bits is not architectural. -/
inductive Phase where
  /-- no job since reset -/
  | idle
  /-- decode: header pending -/
  | dHdr
  /-- decode: pixels pending -/
  | dPix
  /-- decode: end-marker check pending -/
  | dEnd
  /-- peek: header pending -/
  | pHdr
  /-- encode: header emission pending -/
  | eHdr
  /-- encode: pixels pending -/
  | ePix
  /-- encode: end-marker emission pending -/
  | eEnd
  /-- last job finished without error -/
  | done
  /-- last job stopped on an error -/
  | error
  deriving DecidableEq, Repr

/-- The six error kinds (R240). -/
inductive ErrorKind where
  | invalidMagic
  | invalidDimensions
  | invalidChannelCount
  | invalidColorspace
  | invalidOpcode
  | unexpectedEndOfStream
  deriving DecidableEq, Repr

/-- The control inputs (R35), driven by the host. -/
structure Pins where
  rst : Bool
  cmdValid : Bool
  cmd : BitVec 2
  cfgWidth : Word32
  cfgHeight : Word32
  deriving DecidableEq, Repr

/-- A parsed header (R110). -/
structure Header where
  width : Word32
  height : Word32
  channels : Byte
  colorspace : Byte
  deriving DecidableEq, Repr

/-- One atomic move of the host (R230, R270), or the engine's turn. -/
inductive HostMove where
  /-- the host lets the engine take its step -/
  | engine
  /-- drive `rst` -/
  | rst (level : Bool)
  /-- drive `cmd_valid` and `cmd` -/
  | cmd (valid : Bool) (cmd : BitVec 2)
  /-- drive `cfg_width` and `cfg_height` -/
  | cfg (width height : Word32)
  /-- offer one byte on `bi_data` -/
  | byte (b : Byte)
  /-- assert `bi_eos` -/
  | eos
  /-- offer one pixel word on `pi_data` (R62) -/
  | pixel (data : Word32)
  /-- drain outputs, read the status, or hold `po_ready` or `bo_ready` low: nothing changes, the engine waits -/
  | idle
  deriving DecidableEq, Repr

/-- The whole state: the registers of 10_state.md section 1, the stream queues of R36, the control inputs of R35, the
parameters of R5, and the model's own list of the host's coming moves. -/
structure State where
  /-- the parameters of R5; written by nothing (log 4) -/
  params : Params
  /-- the control inputs of R35 -/
  pins : Pins
  /-- the model's own field: the host's coming moves, oldest first; when it is empty the engine moves (log 1) -/
  host : List HostMove
  /-- `PHASE` (R20) -/
  phase : Phase
  /-- `PREV` (R24) -/
  prev : Pixel
  /-- `RUN` (R25) -/
  run : BitVec 6
  /-- `CACHE[0..63]` (R26) -/
  cache : Vector Pixel 64
  /-- `WIDTH` (R27) -/
  width : Word32
  /-- `HEIGHT` (R27) -/
  height : Word32
  /-- `CHANNELS` (R28) -/
  channels : Byte
  /-- `COLORSPACE` (R28) -/
  colorspace : Byte
  /-- `NPIX` (R29) -/
  npix : Word64
  /-- `PIXCOUNT` (R30) -/
  pixcount : Word64
  /-- `BYTECOUNT` (R31); it wraps at 2^64 (DESIGN CHOICE, log 6) -/
  bytecount : Word64
  /-- `ERR` (R32) -/
  err : BitVec 3
  /-- `BIQ`, the byte-input queue, next byte first (R36) -/
  biq : List Byte
  /-- `BI_CLOSED` (R36) -/
  biClosed : Bool
  /-- `PIQ`, the pixel-input queue, next pixel first (R36) -/
  piq : List Pixel
  /-- `POQ`, the pixels output so far, oldest first (R36); without limit (DEDUCED, log 12) -/
  poq : List Pixel
  /-- `BOQ`, the bytes output so far, oldest first (R36) -/
  boq : List Byte
  deriving DecidableEq, Repr

/-- Why a step stops with a fault: never. Every error of the spec is a next state with `PHASE = ERROR` (R243), and a
step that lacks input holds (R6), so the type has no constructor. Safe: nothing can raise what does not exist. -/
inductive Fault where
  deriving DecidableEq, Repr

/-- Why a step has no meaning. -/
inductive Refusal where
  /-- Raised by an arm of `exec` that has no meaning yet, under the mnemonic of the opcode table. No arm raises it: all
  six operations are modelled. It would be safe: the machine stops where the hardware goes on. -/
  | notModelled (mnemonic : String)
  deriving DecidableEq, Repr

/-- The state right after reset (R40, R270) of an engine with the parameters `p`, nothing driven and nothing offered.
`prev`, `run` and `cache` are unspecified by R40 and are zero here (DESIGN CHOICE, log 2; unsafe). The control inputs,
the output sequences and the host list are the host's, and hold nothing here (DESIGN CHOICE, log 3). -/
def State.resetOf (p : Params) : State :=
  { params := p
    pins := { rst := false, cmdValid := false, cmd := 0, cfgWidth := 0, cfgHeight := 0 }
    host := []
    phase := .idle
    prev := { r := 0, g := 0, b := 0, a := 0 }
    run := 0
    cache := Vector.replicate 64 { r := 0, g := 0, b := 0, a := 0 }
    width := 0
    height := 0
    channels := 0
    colorspace := 0
    npix := 0
    pixcount := 0
    bytecount := 0
    err := 0
    biq := []
    biClosed := false
    piq := []
    poq := []
    boq := [] }

/-- The state right after reset, with the default parameters of R5. -/
def State.reset : State := State.resetOf Params.default

end Sys2Proof.Machine
end

