-- ==== Sys2Proof/Machine/Operands.lean ====
section
/-! DEFINITION. Operand arithmetic of the datapath: `wrap8` and `s8` (00_scope.md R8), pixel packing (20_memory.md
R62), the hash unit (41_color_cache.md R130), the delta reconstructor's operands (42_decoder.md R155, R156) and the delta
predictor (43_encoder.md R187). -/

namespace Sys2Proof.Machine

/-- `wrap8(x) = x mod 256`, for any integer (R8). -/
def wrap8 (x : Int) : Byte := BitVec.ofInt 8 x

/-- `s8(x)`: the two's-complement reading of the low 8 bits, in -128..127 (R8). -/
def s8 (x : Int) : Int := if x % 256 < 128 then x % 256 else x % 256 - 256

/-- A channel as the integer it stands for, 0..255 (R7, R23). -/
def chan (c : Byte) : Int := (c.toNat : Int)

/-- A pixel as a 32-bit port word: R in bits 31:24, G in 23:16, B in 15:8, A in 7:0 (R62). -/
def packPixel (px : Pixel) : Word32 := px.r ++ px.g ++ px.b ++ px.a

/-- A 32-bit port word as a pixel (R62). -/
def unpackPixel (w : Word32) : Pixel :=
  { r := w.extractLsb' 24 8, g := w.extractLsb' 16 8, b := w.extractLsb' 8 8, a := w.extractLsb' 0 8 }

/-- The exact sum of the hash unit (R130), at most 6630. -/
def hashSum (px : Pixel) : Nat := 3 * px.r.toNat + 5 * px.g.toNat + 7 * px.b.toNat + 11 * px.a.toNat

/-- `Hash(px)`: the sum modulo 64 (R130). -/
def pixelHash (px : Pixel) : Slot := BitVec.ofNat 6 (hashSum px)

/-- The pixel a triple of channel offsets makes from `p`: each of R, G, B modulo 256 in its own lane, alpha kept
(R155, R156, R163). -/
def offsetPixel (p : Pixel) (dr dg db : Int) : Pixel :=
  { r := wrap8 (chan p.r + dr), g := wrap8 (chan p.g + dg), b := wrap8 (chan p.b + db), a := p.a }

/-- `vr`, `vg`, `vb` of the delta predictor: the wrapped channel difference as a signed value (R187). -/
def channelDelta (new old : Byte) : Int := s8 (chan new - chan old)

/-- `NPIX`: the exact product of two 32-bit numbers in 64 bits (R29). -/
def pixelTotal (w h : Word32) : Word64 := w.setWidth 64 * h.setWidth 64

/-- The column of pixel number `k` of an image of width `w`: `k mod WIDTH` (R63). -/
def pixelColumn (w : Word32) (k : Word64) : Nat := k.toNat % w.toNat

/-- The row of pixel number `k` of an image of width `w`: `k div WIDTH` (R63). -/
def pixelRow (w : Word32) (k : Word64) : Nat := k.toNat / w.toNat

end Sys2Proof.Machine
end

