-- ==== Sys2Proof/Machine/Ops.lean ====
section
/-! DEFINITION. The named operations over the registers, the cache and the streams that every step is written with
(00_scope.md R10), raising an error (60_exceptions.md R243), and the job-start and reset values. -/

namespace Sys2Proof.Machine

/-- `PREV_INIT`: (0,0,0,255) (R5, R24). -/
def prevInit : Pixel := { r := 0, g := 0, b := 0, a := 255 }

/-- `CACHE_INIT`: (0,0,0,0) (R5, R26). -/
def cacheInit : Pixel := { r := 0, g := 0, b := 0, a := 0 }

/-- `code(E)` (R241). -/
def ErrorKind.code : ErrorKind → BitVec 3
  | .invalidMagic => 1
  | .invalidDimensions => 2
  | .invalidChannelCount => 3
  | .invalidColorspace => 4
  | .invalidOpcode => 5
  | .unexpectedEndOfStream => 6

namespace State

/-- `phase <- P` (R10). -/
def setPhase (p : Phase) (s : State) : State := { s with phase := p }

/-- `PREV <- px` (R24). -/
def setPrev (px : Pixel) (s : State) : State := { s with prev := px }

/-- `RUN <- n` (R25). -/
def setRun (n : BitVec 6) (s : State) : State := { s with run := n }

/-- `CacheRead(i)` (R132): every 6-bit value is a slot. -/
def cacheRead (s : State) (i : Slot) : Pixel := s.cache[i.toNat]'(i.isLt)

/-- `CacheWrite(i, px)` (R133): the whole entry, no other entry. -/
def cacheWrite (i : Slot) (px : Pixel) (s : State) : State := { s with cache := s.cache.set i.toNat px i.isLt }

/-- `Contains(px)` (R134): only slot `Hash(px)` is examined, with exact four-channel equality. -/
def contains (s : State) (px : Pixel) : Bool := decide (s.cacheRead (pixelHash px) = px)

/-- `InAvail()` (R10). -/
def inAvail (s : State) : Nat := s.biq.length

/-- The state after `InRead(n)`: the next n bytes are gone from `BIQ` and counted (R10). The bytes it returns are
`s.biq.take n`. -/
def inRead (n : Nat) (s : State) : State :=
  { s with biq := s.biq.drop n, bytecount := s.bytecount + BitVec.ofNat 64 n }

/-- `OutWrite(bytes)` (R10). -/
def outWrite (bytes : List Byte) (s : State) : State :=
  { s with boq := s.boq ++ bytes, bytecount := s.bytecount + BitVec.ofNat 64 bytes.length }

/-- The state after `PixIn()`: the next pixel is gone from `PIQ` (R10). The pixel it returns is the head. -/
def pixIn (s : State) : State := { s with piq := s.piq.tail }

/-- `PixOut(px)` (R10). -/
def pixOut (px : Pixel) (s : State) : State := { s with poq := s.poq ++ [px] }

/-- `PIXCOUNT <- PIXCOUNT + 1` (R30). -/
def countPixel (s : State) : State := { s with pixcount := s.pixcount + 1 }

/-- `(WIDTH, HEIGHT, CHANNELS, COLORSPACE) <- hd`, `NPIX <- WIDTH * HEIGHT` (R113, R222). -/
def setHeader (hd : Header) (s : State) : State :=
  { s with width := hd.width, height := hd.height, channels := hd.channels, colorspace := hd.colorspace
           npix := pixelTotal hd.width hd.height }

/-- `raise E` (R243): taking an error. The code goes to `ERR` and `PHASE` to `ERROR`; nothing else is saved and no handler
is entered. A step that raises makes no write but its `InRead`s, so it applies this to the state those left. There is no
return from an error: `ERROR` is left by the next accepted command or by reset (R246). -/
def raise (e : ErrorKind) (s : State) : State := { s with err := e.code, phase := .error }

/-- What a step does that needs input bytes the queue does not hold: it holds while the stream is open, and when the
stream is closed it consumes what there is and raises `UnexpectedEndOfStream` (R6, R113, R150, R162). -/
def starve (s : State) : State :=
  if s.biClosed then (s.inRead s.inAvail).raise .unexpectedEndOfStream else s

/-- The reset (R270): every piece of the engine's state at the value of R40. The output sequences are host-owned and
stay, the parameters are fixed, and the control inputs and coming moves are the host's. `PREV`, `RUN` and `CACHE` are
unspecified by R40 and take the values of `State.reset` (DESIGN CHOICE, log 2). -/
def resetEngine (s : State) : State :=
  { State.resetOf s.params with pins := s.pins, host := s.host, poq := s.poq, boq := s.boq }

/-- The register and queue initializations every job start makes (R222). -/
def initJob (s : State) : State :=
  { s with prev := prevInit, run := 0, cache := Vector.replicate 64 cacheInit, err := 0, pixcount := 0, bytecount := 0
           biq := [], biClosed := false, piq := [] }

/-- `BUSY` (R37): a job is running. -/
def busy (s : State) : Bool :=
  match s.phase with
  | .dHdr | .dPix | .dEnd | .pHdr | .eHdr | .ePix | .eEnd => true
  | .idle | .done | .error => false

/-- The phase `EndOfPixels()` goes to (R160). -/
def endOfPixelsPhase (s : State) : Phase := if s.params.checkEndMarker then .dEnd else .done

/-- What every pixel step of the decoder ends with: output the pixel and count it (R159), then `EndOfPixels()` when the
count reaches `NPIX` (R160). -/
def emitPixel (px : Pixel) (s : State) : State :=
  let t := (s.pixOut px).countPixel
  if t.pixcount = t.npix then t.setPhase t.endOfPixelsPhase else t

/-- What every operation does with the pixel it produced: write it to the cache at its hash slot and to `PREV` (R158),
then output and count it (R159, R160). -/
def produce (px : Pixel) (s : State) : State := ((s.cacheWrite (pixelHash px) px).setPrev px).emitPixel px

end State

end Sys2Proof.Machine
end

