-- ==== Sys2Proof/Machine/Delta.lean ====
section
/-! DEFINITION. The meanings of the delta operations OP_DIFF and OP_LUMA (42_decoder.md R155, R156, R163). -/

namespace Sys2Proof.Machine

/-- OP_DIFF (R155): the three deltas are added to `PREV`, each lane modulo 256; alpha is kept. -/
def execOpDiff (dr dg db : Int) (s : State) : Host.Outcome State Fault Refusal :=
  .next (s.produce (offsetPixel s.prev dr dg db))

/-- OP_LUMA (R156): green moves by `dg`, red by `dg + dr_dg`, blue by `dg + db_dg`, each lane modulo 256; alpha is kept. -/
def execOpLuma (dg drDg dbDg : Int) (s : State) : Host.Outcome State Fault Refusal :=
  .next (s.produce (offsetPixel s.prev (dg + drDg) dg (dg + dbDg)))

end Sys2Proof.Machine
end

