-- ==== Sys2Proof/Machine/Index.lean ====
section
/-! DEFINITION. The meaning of OP_INDEX (42_decoder.md R154). -/

namespace Sys2Proof.Machine

/-- OP_INDEX (R154): `px <- CacheRead(slot)`. The write of R158 goes to `Hash(px)`, which may differ from `slot`
(90_conflicts.md C5); the read comes before it (R135). -/
def execOpIndex (slot : Slot) (s : State) : Host.Outcome State Fault Refusal :=
  .next (s.produce (s.cacheRead slot))

end Sys2Proof.Machine
end

