-- ==== Sys2Proof/Machine/Literal.lean ====
section
/-! DEFINITION. The meanings of the literal operations OP_RGB and OP_RGBA (42_decoder.md R152, R153). A meaning runs on the
state after the operation's bytes are read (R150) and makes the writes every operation shares (R158 to R160). -/

namespace Sys2Proof.Machine

/-- OP_RGB (R152): `px <- (r, g, b, PREV.a)`. -/
def execOpRgb (r g b : Byte) (s : State) : Host.Outcome State Fault Refusal :=
  .next (s.produce { r := r, g := g, b := b, a := s.prev.a })

/-- OP_RGBA (R153): `px <- (r, g, b, a)`. -/
def execOpRgba (r g b a : Byte) (s : State) : Host.Outcome State Fault Refusal :=
  .next (s.produce { r := r, g := g, b := b, a := a })

end Sys2Proof.Machine
end

