-- ==== Sys2Proof/Machine/Run.lean ====
section
/-! DEFINITION. The meaning of OP_RUN (42_decoder.md R157) and the run continuation (R151). -/

namespace Sys2Proof.Machine

/-- OP_RUN (R157): `RUN <- length - 1`, and this step emits the first pixel of the run, which is `PREV`. A length outside
1..62, which no bytes decode to, is cut to the width of `RUN` (DEDUCED, log 9). -/
def execOpRun (length : Nat) (s : State) : Host.Outcome State Fault Refusal :=
  .next ((s.setRun (BitVec.ofNat 6 (length - 1))).produce s.prev)

/-- A run continuation (R151): `RUN <- RUN - 1` and `PREV` again; no byte is read, and the cache and `PREV` stay. It
outputs and counts its pixel like every pixel step (R159, R160). -/
def State.runContinuation (s : State) : State := (s.setRun (s.run - 1)).emitPixel s.prev

end Sys2Proof.Machine
end

