-- ==== Sys2Proof/Machine/Dispatch.lean ====
section
/-! DEFINITION. The dispatch of the six operations to their meanings (42_decoder.md R150). -/

namespace Sys2Proof.Machine

def exec (i : Instr) (s : State) : Host.Outcome State Fault Refusal :=
  match i with
  | .opRgb r g b => Sys2Proof.Machine.execOpRgb r g b s
  | .opRgba r g b a => Sys2Proof.Machine.execOpRgba r g b a s
  | .opIndex slot => Sys2Proof.Machine.execOpIndex slot s
  | .opDiff dr dg db => Sys2Proof.Machine.execOpDiff dr dg db s
  | .opLuma dg drDg dbDg => Sys2Proof.Machine.execOpLuma dg drDg dbDg s
  | .opRun length => Sys2Proof.Machine.execOpRun length s

end Sys2Proof.Machine
end

