-- ==== Sys2Proof/Machine/Header.lean ====
section
/-! DEFINITION. The header codec (40_header_codec.md): parsing and validation, the header step of DECODE and PEEK, and the
serializer. -/

namespace Sys2Proof.Machine

/-- `ParseHeader(h)` on the 14 header bytes (R110): the first failing check wins, in the order magic, dimensions,
channels, colorspace (R114). The colorspace is checked only under STRICT_COLORSPACE (R112). -/
def parseHeader (p : Params) (h : List Byte) : Except ErrorKind Header :=
  let w := ofBigEndian32 (h.getD 4 0) (h.getD 5 0) (h.getD 6 0) (h.getD 7 0)
  let ht := ofBigEndian32 (h.getD 8 0) (h.getD 9 0) (h.getD 10 0) (h.getD 11 0)
  let ch := h.getD 12 0
  let cs := h.getD 13 0
  if h.take 4 ≠ p.magic then .error .invalidMagic
  else if w = 0 ∨ ht = 0 then .error .invalidDimensions
  else if ch ≠ 3 ∧ ch ≠ 4 then .error .invalidChannelCount
  else if p.strictColorspace = true ∧ cs ≠ 0 ∧ cs ≠ 1 then .error .invalidColorspace
  else .ok { width := w, height := ht, channels := ch, colorspace := cs }

/-- `SerializeHeader(w, h)` (R116): MAGIC, the dimensions big-endian, channel count 4, colorspace 0. -/
def serializeHeader (p : Params) (w h : Word32) : List Byte :=
  p.magic ++ bigEndian32 w ++ bigEndian32 h ++ [0x04, 0x00]

/-- The header step of phases `D_HDR` and `P_HDR` (R113, R117). All 14 bytes are collected before any check; a short
header of a closed stream is consumed and raises `UnexpectedEndOfStream`; on an open one the step holds. -/
def State.headerStep (s : State) : State :=
  if s.inAvail < 14 then s.starve
  else
    match parseHeader s.params (s.biq.take 14) with
    | .error e => (s.inRead 14).raise e
    | .ok hd => ((s.inRead 14).setHeader hd).setPhase (if s.phase = .dHdr then .dPix else .done)

end Sys2Proof.Machine
end

