-- ==== Sys2Proof/Machine/Encoder.lean ====
section
/-! DEFINITION. The encoder (43_encoder.md): the operation selector, the pixel step, and the frame emission. -/

namespace Sys2Proof.Machine

/-- `SelectDelta(px, p)` for a pixel that missed the cache (R187 to R191): DIFF, LUMA, RGB, RGBA, the first whose condition
holds. `vg_r` and `vg_b` are plain integer differences (R187, 92_eei_decisions.md D5). -/
def selectDelta (px p : Pixel) : Instr :=
  let vr := channelDelta px.r p.r
  let vg := channelDelta px.g p.g
  let vb := channelDelta px.b p.b
  if px.a = p.a then
    if inRange vr (-2) 1 && inRange vg (-2) 1 && inRange vb (-2) 1 then .opDiff vr vg vb
    else if inRange vg (-32) 31 && inRange (vr - vg) (-8) 7 && inRange (vb - vg) (-8) 7 then
      .opLuma vg (vr - vg) (vb - vg)
    else .opRgb px.r px.g px.b
  else .opRgba px.r px.g px.b px.a

/-- The flush of a pending run: OP_RUN with value `RUN - 1` (R183, R184). -/
def flushBytes (run : BitVec 6) : List Byte := encode (.opRun run.toNat)

/-- The repeat path (R182, R183): count the repeat, and flush when the count reaches 62 or at the last pixel. -/
def encodeRepeat (last : Bool) (s : State) : List Byte × State :=
  let t := s.setRun (s.run + 1)
  if t.run = 62 ∨ last = true then (flushBytes t.run, t.setRun 0) else ([], t)

/-- The other path (R184 to R186): close a pending run, then an index hit, or a miss, which inserts the pixel and selects a
delta or a literal. -/
def encodeFresh (px : Pixel) (s : State) : List Byte × State :=
  let out := if s.run = 0 then [] else flushBytes s.run
  let t := if s.run = 0 then s else s.setRun 0
  if t.contains px then (out ++ encode (.opIndex (pixelHash px)), t)
  else (out ++ encode (selectDelta px s.prev), t.cacheWrite (pixelHash px) px)

/-- "the last pixel of the image" (R180). -/
def State.atLastPixel (s : State) : Bool := decide (s.pixcount = s.npix - 1)

/-- What an encode pixel step does with the pixel it took (R180): the bytes it emits and the run and cache updates. -/
def encodePixel (px : Pixel) (s : State) : List Byte × State :=
  if px = s.prev then encodeRepeat s.atLastPixel s else encodeFresh px s

/-- The end of every encode pixel step: the bytes go out, `PREV` and `PIXCOUNT` follow (R197), and the pixels end when
`PIXCOUNT` reaches `NPIX` (R198). -/
def State.finishEncodePixel (out : List Byte) (px : Pixel) (s : State) : State :=
  let t := ((s.outWrite out).setPrev px).countPixel
  if t.pixcount = t.npix then t.setPhase .eEnd else t

/-- The encode pixel step of phase `E_PIX` (R180). With no pixel offered it holds. -/
def State.encodePixelStep (s : State) : State :=
  match s.piq with
  | [] => s
  | px :: _ => (encodePixel px s.pixIn).2.finishEncodePixel (encodePixel px s.pixIn).1 px

/-- The header-emission step of phase `E_HDR` (R199). -/
def State.headerEmitStep (s : State) : State :=
  (s.outWrite (serializeHeader s.params s.width s.height)).setPhase .ePix

/-- The end-marker emission step of phase `E_END` (R200). -/
def State.endEmitStep (s : State) : State := (s.outWrite endMarkerBytes).setPhase .done

end Sys2Proof.Machine
end

