-- ==== Sys2Proof/Machine/JobControl.lean ====
section
/-! DEFINITION. Job control (44_job_control.md): the commands, their acceptance, the job start, and the host's moves
(R230). -/

namespace Sys2Proof.Machine

/-- `cmd = 01`, DECODE (R35). -/
def cmdDecode : BitVec 2 := 0b01

/-- `cmd = 10`, ENCODE (R35). -/
def cmdEncode : BitVec 2 := 0b10

/-- `cmd = 11`, PEEK (R35). -/
def cmdPeek : BitVec 2 := 0b11

/-- A command is offered and is taken at this step (R220): `cmd_valid = 1`, `cmd` is not NOP, and the engine is not
`BUSY`. `cmd_valid` is a level (DEDUCED, log 11). -/
def State.accepts (s : State) : Bool := s.pins.cmdValid && decide (s.pins.cmd ≠ 0b00) && !s.busy

/-- `JobStart(cmd)` (R222). An ENCODE samples `cfg_width` and `cfg_height` here and nowhere else (R225) and stops at once
with `InvalidDimensions` when one is 0 (R223); the initializations before that raise are kept (R243). -/
def State.jobStart (s : State) : State :=
  let t := s.initJob
  if s.pins.cmd = cmdEncode then
    let u := t.setHeader { width := s.pins.cfgWidth, height := s.pins.cfgHeight, channels := 4, colorspace := 0 }
    if s.pins.cfgWidth = 0 ∨ s.pins.cfgHeight = 0 then u.raise .invalidDimensions else u.setPhase .eHdr
  else
    (t.setHeader { width := 0, height := 0, channels := 0, colorspace := 0 }).setPhase
      (if s.pins.cmd = cmdDecode then .dHdr else .pHdr)

/-- While `rst = 1` the engine is in the reset state, whatever else is driven or offered (R270; DEDUCED, log
13). -/
def State.underReset (s : State) : State := if s.pins.rst then s.resetEngine else s

/-- The effect of one host move (R230). It is applied between engine steps; `rst` takes effect in the same instant
(R270). `bi_eos` sets `BI_CLOSED`, which stays set until the next job start (R36); a byte offered after it still joins
the queue (DESIGN CHOICE, log 7). -/
def State.hostMove (m : HostMove) (s : State) : State :=
  match m with
  | .engine => s
  | .rst level => ({ s with pins := { s.pins with rst := level } } : State).underReset
  | .cmd valid cmd => ({ s with pins := { s.pins with cmdValid := valid, cmd := cmd } } : State).underReset
  | .cfg width height =>
    ({ s with pins := { s.pins with cfgWidth := width, cfgHeight := height } } : State).underReset
  | .byte b => ({ s with biq := s.biq ++ [b] } : State).underReset
  | .eos => ({ s with biClosed := true } : State).underReset
  | .pixel data => ({ s with piq := s.piq ++ [unpackPixel data] } : State).underReset
  | .idle => s.underReset

end Sys2Proof.Machine
end

