-- ==== Sys2Proof/Machine/Engine.lean ====
section
/-! DEFINITION. The engine's step: the decode pixel step (42_decoder.md R150), the end-marker check (R162), and the choice
of the step the phase enables (10_state.md R21). -/

namespace Sys2Proof.Machine

/-- The decode pixel step of phase `D_PIX` (R150): a continuation while `RUN > 0`, else the next operation of the byte
stream, its bytes consumed as one unit before its meaning runs. -/
def decodePixelStep (s : State) : Host.Outcome State Fault Refusal :=
  if s.run ≠ 0 then .next s.runContinuation
  else
    match decode s.biq with
    | .ok (i, _) => exec i (s.inRead i.byteLength)
    | .error .noByte => .next s.starve
    | .error (.truncated _) => .next s.starve

/-- The end-marker check of phase `D_END` (R162). -/
def State.endCheckStep (s : State) : State :=
  if s.inAvail < 8 then s.starve
  else if s.biq.take 8 ≠ endMarkerBytes then (s.inRead 8).raise .invalidOpcode
  else (s.inRead 8).setPhase .done

/-- The engine's turn: reset over everything (R270), then command acceptance (R220), else the one kind of step the phase
enables (R21). Where none is enabled the state does not change (log 5). -/
def engineStep (s : State) : Host.Outcome State Fault Refusal :=
  if s.pins.rst then .next s.resetEngine
  else if s.accepts then .next s.jobStart
  else
    match s.phase with
    | .idle => .next s
    | .done => .next s
    | .error => .next s
    | .dHdr => .next s.headerStep
    | .pHdr => .next s.headerStep
    | .dPix => decodePixelStep s
    | .dEnd => .next s.endCheckStep
    | .eHdr => .next s.headerEmitStep
    | .ePix => .next s.encodePixelStep
    | .eEnd => .next s.endEmitStep

/-- The state in which a decoder is about to read its first operation of a 2 x 1 image: a DECODE has been accepted and the
header parsed, by the machine's own steps. Used to place an operation for the next step (log 10). -/
def State.decodingJob (s : State) : State :=
  let t := ({ s with pins := { s.pins with rst := false, cmdValid := false, cmd := cmdDecode } } : State).jobStart
  ({ t with biq := serializeHeader t.params 2 1 } : State).headerStep

end Sys2Proof.Machine
end

