-- ==== Sys2Proof/Machine/Step.lean ====
section
/-! DEFINITION. One step of the machine: the host's next move, or the engine's step (00_scope.md R6); and how an operation is
placed where the next step fetches it. -/

namespace Sys2Proof.Machine

/-- One atomic step. The host list says who moves (log 1): its head is the host's next move or the engine's turn; when it
is empty the engine moves. -/
def step (s : State) : Host.Outcome State Fault Refusal :=
  match s.host with
  | [] => engineStep s
  | .engine :: rest => engineStep { s with host := rest }
  | m :: rest => .next (State.hostMove m { s with host := rest })

/-- `s` with the operation of a table word placed where `step` fetches its next operation: at the head of `BIQ`, in phase
`D_PIX` with `RUN = 0` and the engine's turn next. A state with no decode job at its pixels gets one first (log 10). -/
def State.withFetchWord (s : State) (nbits w : Nat) : State :=
  let t := if s.phase = .dPix then s else s.decodingJob
  { t with pins := { t.pins with rst := false }, host := [], run := 0, biq := tableInstrBytes nbits w ++ t.biq }

end Sys2Proof.Machine
end

