-- ==== Sys2Proof/Machine/Assembler.lean ====
section
/-! DEFINITION. The assembly syntax of operation streams and its pseudo-operations (30_encoding.md R95, R96): from a line of
text to an item, and from an item to bytes. The engine never sees this text; it is the spec's way of writing streams. -/

namespace Sys2Proof.Machine

/-- The bytes of an operation whose operands are in range; otherwise none: "an assembler refuses it" (R95). -/
def assembleOp (i : Instr) : Option (List Byte) := if i.wellFormed then some (encode i) else none

/-- `REPEAT n`: `floor(n/62)` copies of `OP_RUN 62`, then `OP_RUN (n mod 62)` if that is not 0 (R96). -/
def repeatOps (n : Nat) : List Instr :=
  List.replicate (n / 62) (.opRun 62) ++ (if n % 62 > 0 then [.opRun (n % 62)] else [])

/-- The bytes of an item (R95, R96). -/
def assemble (p : Params) : AsmItem → Option (List Byte)
  | .op i => assembleOp i
  | .header w h ch cs => some (p.magic ++ bigEndian32 w ++ bigEndian32 h ++ [ch, cs])
  | .endMarker => some endMarkerBytes
  | .repeats n => if 1 ≤ n then some ((repeatOps n).flatMap encode) else none
  | .diffw dr dg db => assembleOp (.opDiff (s8 dr) (s8 dg) (s8 db))

/-- White space inside a line: blank or tab (DESIGN CHOICE, log 8). -/
def isBlank (c : Char) : Bool := c == ' ' || c == '\t'

/-- A piece of text without the blanks around it. -/
def trimBlanks (t : List Char) : List Char := ((t.dropWhile isBlank).reverse.dropWhile isBlank).reverse

/-- The value of a decimal digit. -/
def decDigit (c : Char) : Option Nat :=
  if 48 ≤ c.toNat && c.toNat ≤ 57 then some (c.toNat - 48) else none

/-- The value of a hexadecimal digit, either case (DESIGN CHOICE, log 8). -/
def hexDigit (c : Char) : Option Nat :=
  if 48 ≤ c.toNat && c.toNat ≤ 57 then some (c.toNat - 48)
  else if 65 ≤ c.toNat && c.toNat ≤ 70 then some (c.toNat - 55)
  else if 97 ≤ c.toNat && c.toNat ≤ 102 then some (c.toNat - 87)
  else none

/-- The number a run of digits spells in a base, continuing from `acc`. -/
def digitsFrom (base : Nat) (digit : Char → Option Nat) (acc : Nat) : List Char → Option Nat
  | [] => some acc
  | c :: cs =>
    match digit c with
    | some d => digitsFrom base digit (acc * base + d) cs
    | none => none

/-- A number of at least one digit. -/
def digits (base : Nat) (digit : Char → Option Nat) (t : List Char) : Option Nat :=
  if t.isEmpty then none else digitsFrom base digit 0 t

/-- An operand: a decimal integer, optionally signed, or hexadecimal with `0x` (R95). -/
def parseOperand (t : List Char) : Option Int :=
  match t with
  | '0' :: 'x' :: ds => (digits 16 hexDigit ds).map Int.ofNat
  | '-' :: ds => (digits 10 decDigit ds).map fun n => -(n : Int)
  | '+' :: ds => (digits 10 decDigit ds).map Int.ofNat
  | ds => (digits 10 decDigit ds).map Int.ofNat

/-- The pieces of a text between its commas. -/
def splitCommas : List Char → List (List Char)
  | [] => [[]]
  | c :: cs =>
    match splitCommas cs with
    | [] => [[c]]
    | piece :: more => if c = ',' then [] :: piece :: more else (c :: piece) :: more

/-- The operands of a line, separated by commas; nothing after the mnemonic is no operands (R95). -/
def parseOperands (t : List Char) : Option (List Int) :=
  if (trimBlanks t).isEmpty then some [] else (splitCommas t).mapM fun piece => parseOperand (trimBlanks piece)

/-- An integer in 0..2^n - 1, as a bit vector of n bits. -/
def unsignedOperand (n : Nat) (v : Int) : Option (BitVec n) :=
  if 0 ≤ v ∧ v < 2 ^ n then some (BitVec.ofInt n v) else none

/-- `OP_RGB` with its operands, each 0..255 (R95). -/
def spellRgb : List Int → Option AsmItem
  | [r, g, b] =>
    match unsignedOperand 8 r, unsignedOperand 8 g, unsignedOperand 8 b with
    | some r, some g, some b => some (.op (.opRgb r g b))
    | _, _, _ => none
  | _ => none

/-- `OP_RGBA` with its operands, each 0..255 (R95). -/
def spellRgba : List Int → Option AsmItem
  | [r, g, b, a] =>
    match unsignedOperand 8 r, unsignedOperand 8 g, unsignedOperand 8 b, unsignedOperand 8 a with
    | some r, some g, some b, some a => some (.op (.opRgba r g b a))
    | _, _, _, _ => none
  | _ => none

/-- `OP_INDEX` with its operand, 0..63 (R95). -/
def spellIndex : List Int → Option AsmItem
  | [i] => (unsignedOperand 6 i).map fun slot => .op (.opIndex slot)
  | _ => none

/-- An operation that is spelled only if its operands are in range (R95). -/
def spellChecked (i : Instr) : Option AsmItem := if i.wellFormed then some (.op i) else none

/-- `OP_DIFF` (R95). -/
def spellDiff : List Int → Option AsmItem
  | [dr, dg, db] => spellChecked (.opDiff dr dg db)
  | _ => none

/-- `OP_LUMA` (R95). -/
def spellLuma : List Int → Option AsmItem
  | [dg, drDg, dbDg] => spellChecked (.opLuma dg drDg dbDg)
  | _ => none

/-- `OP_RUN` (R95). -/
def spellRun : List Int → Option AsmItem
  | [n] => if 0 ≤ n then spellChecked (.opRun n.toNat) else none
  | _ => none

/-- `HEADER w, h, ch, cs`: w, h in 0..2^32-1, ch and cs in 0..255; illegal values are allowed (R96). -/
def spellHeader : List Int → Option AsmItem
  | [w, h, ch, cs] =>
    match unsignedOperand 32 w, unsignedOperand 32 h, unsignedOperand 8 ch, unsignedOperand 8 cs with
    | some w, some h, some ch, some cs => some (.header w h ch cs)
    | _, _, _, _ => none
  | _ => none

/-- `END` (R96). -/
def spellEnd : List Int → Option AsmItem
  | [] => some .endMarker
  | _ => none

/-- `REPEAT n`, n >= 1 (R96). -/
def spellRepeat : List Int → Option AsmItem
  | [n] => if 1 ≤ n then some (.repeats n.toNat) else none
  | _ => none

/-- `OP_DIFFW dr, dg, db`: spelled if the reduced deltas are in range (R96). -/
def spellDiffw : List Int → Option AsmItem
  | [dr, dg, db] => if (Instr.opDiff (s8 dr) (s8 dg) (s8 db)).wellFormed then some (.diffw dr dg db) else none
  | _ => none

/-- The mnemonics of R95 and R96, in the capitals the spec writes, each with how its operands are read. -/
def mnemonicTable : List (List Char × (List Int → Option AsmItem)) :=
  [(['O', 'P', '_', 'R', 'G', 'B'], spellRgb), (['O', 'P', '_', 'R', 'G', 'B', 'A'], spellRgba),
   (['O', 'P', '_', 'I', 'N', 'D', 'E', 'X'], spellIndex), (['O', 'P', '_', 'D', 'I', 'F', 'F'], spellDiff),
   (['O', 'P', '_', 'L', 'U', 'M', 'A'], spellLuma), (['O', 'P', '_', 'R', 'U', 'N'], spellRun),
   (['H', 'E', 'A', 'D', 'E', 'R'], spellHeader), (['E', 'N', 'D'], spellEnd),
   (['R', 'E', 'P', 'E', 'A', 'T'], spellRepeat), (['O', 'P', '_', 'D', 'I', 'F', 'F', 'W'], spellDiffw)]

/-- One line of text (R95): a mnemonic, then operands separated by commas, then an optional comment after `;`. A line with
nothing before the comment holds no item; none means the line is refused. -/
def parseLine (line : List Char) : Option (List AsmItem) :=
  let t := trimBlanks (line.takeWhile (· != ';'))
  if t.isEmpty then some []
  else
    match mnemonicTable.find? fun e => decide (e.1 = t.takeWhile fun c => !isBlank c) with
    | none => none
    | some e => ((parseOperands (t.dropWhile fun c => !isBlank c)).bind e.2).map fun item => [item]

/-- A whole text, one line after the other (R95): its bytes, or none when a line is refused. -/
def assembleText (p : Params) : List (List Char) → Option (List Byte)
  | [] => some []
  | line :: rest =>
    match parseLine line with
    | none => none
    | some items =>
      match items.mapM (assemble p), assembleText p rest with
      | some bytes, some more => some (bytes.flatten ++ more)
      | _, _ => none

end Sys2Proof.Machine
end

