-- ==== Sys2Proof/Machine/Flags.lean ====
section
/-! DEFINITION. The status and the other read-only outputs (10_state.md R37 to R39, 20_memory.md R62). The engine has no
condition codes (R33): these are functions of the state that no operation reads. -/

namespace Sys2Proof.Machine.State

/-- `DONE` (R37). -/
def doneBit (s : State) : Bool := decide (s.phase = .done)

/-- `ERROR` (R37). -/
def errorBit (s : State) : Bool := decide (s.phase = .error)

/-- `status[7:0]` (R37): bit 7 reads 0, bits 6:4 `ERR_CODE`, bit 3 reads 0, bit 2 `ERROR`, bit 1 `DONE`, bit 0 `BUSY`. -/
def status (s : State) : Byte :=
  0b0#1 ++ s.err ++ 0b0#1 ++ BitVec.ofBool s.errorBit ++ BitVec.ofBool s.doneBit ++ BitVec.ofBool s.busy

/-- `cmd_ready` equals NOT BUSY (R37). -/
def cmdReady (s : State) : Bool := !s.busy

/-- `hdr_width` (R38). -/
def hdrWidth (s : State) : Word32 := s.width

/-- `hdr_height` (R38). -/
def hdrHeight (s : State) : Word32 := s.height

/-- `hdr_channels` (R38). -/
def hdrChannels (s : State) : Byte := s.channels

/-- `hdr_colorspace` (R38). -/
def hdrColorspace (s : State) : Byte := s.colorspace

/-- `pix_count` (R39). -/
def pixCountOut (s : State) : Word64 := s.pixcount

/-- `byte_count` (R39). -/
def byteCountOut (s : State) : Word64 := s.bytecount

/-- The words delivered on `po_data`, oldest first (R36, R62). -/
def poData (s : State) : List Word32 := s.poq.map packPixel

/-- The bytes delivered on `bo_data`, oldest first (R36). -/
def boData (s : State) : List Byte := s.boq

end Sys2Proof.Machine.State
end

