-- ==== Sys2Proof/Safety.lean ====
section
/-! DEFINITION. The terms claims are stated in: whose turn it is, what a pixel step of the decoder leaves, the end and the
result of a job (44_job_control.md R231), the jobs a host starts, and the invariant of the machine. -/

namespace Sys2Proof.Machine

namespace State

/-- The engine moves at the next step: the host list is used up, or gives the engine its turn. -/
def engineMoves (s : State) : Bool :=
  match s.host with
  | [] => true
  | m :: _ => decide (m = .engine)

/-- The state with the head of the host list taken off. -/
def afterTurn (s : State) : State := { s with host := s.host.tail }

/-- The engine's own step of phase `p` is the next thing to happen: its turn, and no reset. -/
def ready (s : State) (p : Phase) : Prop := s.engineMoves = true ∧ s.pins.rst = false ∧ s.phase = p

/-- The job has ended (R231). -/
def ended (s : State) : Bool := decide (s.phase = .done) || decide (s.phase = .error)

/-- Nothing is left for the engine to do until the host acts (R6, R21). -/
def holds (s : State) : Prop := engineStep s = .next s

/-- The header registers and `NPIX` are unchanged. -/
structure KeepsHeader (s t : State) : Prop where
  width : t.width = s.width
  height : t.height = s.height
  channels : t.channels = s.channels
  colorspace : t.colorspace = s.colorspace
  npix : t.npix = s.npix

/-- The parameters, the control inputs, the host list, the closing of the byte stream, the pixel-input queue and the byte
output are unchanged: what no decoder step writes. -/
structure KeepsPorts (s t : State) : Prop where
  params : t.params = s.params
  pins : t.pins = s.pins
  host : t.host = s.host
  biClosed : t.biClosed = s.biClosed
  piq : t.piq = s.piq
  boq : t.boq = s.boq

/-- The per-image state and the pixel output are unchanged: what a header step, an end-marker check or an error leaves
alone (R243). -/
structure KeepsPixels (s t : State) : Prop where
  prev : t.prev = s.prev
  run : t.run = s.run
  cache : t.cache = s.cache
  pixcount : t.pixcount = s.pixcount
  poq : t.poq = s.poq

/-- The next n bytes of the byte-input queue are consumed and counted (R10). -/
structure ReadsBytes (s t : State) (n : Nat) : Prop where
  biq : t.biq = s.biq.drop n
  bytecount : t.bytecount = s.bytecount + BitVec.ofNat 64 n

/-- The next step lacks input bytes (R6, R113, R150, R162): it holds while the stream is open, and when the stream is
closed it consumes what there is and raises `UnexpectedEndOfStream`, code 6, making no other write (R243). -/
structure Starves (s : State) : Prop where
  held : s.biClosed = false → step s = .next s.afterTurn
  raised : s.biClosed = true → ∃ t, step s = .next t ∧ t.err = 6 ∧ t.phase = .error ∧
    s.afterTurn.ReadsBytes t s.biq.length ∧ s.afterTurn.KeepsPorts t ∧ s.KeepsHeader t ∧ s.KeepsPixels t

/-- The effect every pixel step of the decoder shares (R159, R160): the pixel is output and counted, the phase changes
when, and only when, the count reaches `NPIX`, and nothing else is written. -/
structure EmitsPixel (s t : State) (px : Pixel) : Prop where
  out : t.poq = s.poq ++ [px]
  count : t.pixcount = s.pixcount + 1
  phase_end : s.pixcount + 1 = s.npix → t.phase = if s.params.checkEndMarker = true then .dEnd else .done
  phase_more : s.pixcount + 1 ≠ s.npix → t.phase = s.phase
  err : t.err = s.err
  ports : s.KeepsPorts t
  header : s.KeepsHeader t

/-- The effect every operation of the decoder shares (R158 to R160), said of the state after the operation's bytes were
read: its pixel is in the cache at slot (3r + 5g + 7b + 11a) mod 64 and at no other slot anew, it is `PREV`, it is output
and counted, and no byte is read. -/
structure ProducesPixel (s t : State) (px : Pixel) : Prop where
  prev : t.prev = px
  cache : ∀ j : Slot, t.cacheRead j =
    if j.toNat = (3 * px.r.toNat + 5 * px.g.toNat + 7 * px.b.toNat + 11 * px.a.toNat) % 64 then px else s.cacheRead j
  biq : t.biq = s.biq
  bytecount : t.bytecount = s.bytecount
  emits : s.EmitsPixel t px

/-- The parameters, the control inputs, the header registers, `NPIX`, `ERR` and the decoder's queues are unchanged: what
no encoder step writes. -/
structure KeepsEncodeJob (s t : State) : Prop where
  params : t.params = s.params
  pins : t.pins = s.pins
  header : s.KeepsHeader t
  err : t.err = s.err
  biq : t.biq = s.biq
  biClosed : t.biClosed = s.biClosed
  poq : t.poq = s.poq

/-- What an encode pixel step that took pixel `px` and emitted `out` leaves besides `RUN` and the cache (R180, R197,
R198). -/
structure ConsumesPixel (s t : State) (px : Pixel) (out : List Byte) : Prop where
  took : s.piq = px :: t.piq
  host : t.host = s.host.tail
  emitted : t.boq = s.boq ++ out
  bytecount : t.bytecount = s.bytecount + BitVec.ofNat 64 out.length
  prev : t.prev = px
  count : t.pixcount = s.pixcount + 1
  phase_end : s.pixcount + 1 = s.npix → t.phase = .eEnd
  phase_more : s.pixcount + 1 ≠ s.npix → t.phase = s.phase
  rest : s.KeepsEncodeJob t

/-- A header the decoder accepts (R82, R112). -/
structure LegalHeader (s : State) : Prop where
  width : s.width ≠ 0
  height : s.height ≠ 0
  channels : s.channels = 3 ∨ s.channels = 4
  colorspace : s.params.strictColorspace = true → s.colorspace = 0 ∨ s.colorspace = 1

/-- The registers a job start leaves and the header and emission steps wait with (R222). -/
structure FreshJob (s : State) : Prop where
  prev : s.prev = ⟨0, 0, 0, 255⟩
  run : s.run = 0
  cache : ∀ i : Slot, s.cacheRead i = ⟨0, 0, 0, 0⟩
  pixcount : s.pixcount = 0
  bytecount : s.bytecount = 0

/-- The invariant of the machine: it holds at reset and every step keeps it. Each clause is a rule of 10_state.md, or a
consequence of the steps that a rule relies on. -/
structure Inv (s : State) : Prop where
  /-- `ERR` is non-zero exactly in `ERROR` (R32, where the spec marks it as its own inference) -/
  err_iff_error : s.err ≠ 0 ↔ s.phase = .error
  /-- `ERR` is never 7 (R32) -/
  err_not_seven : s.err ≠ 7
  /-- `PIXCOUNT` never exceeds `NPIX` (R30, where the spec marks it as its own inference) -/
  count_le : s.pixcount.toNat ≤ s.npix.toNat
  /-- in a pixel phase a pixel is still to come (R150, R180) -/
  count_lt : s.phase = .dPix ∨ s.phase = .ePix → s.pixcount.toNat < s.npix.toNat
  /-- `NPIX` is the exact product (R29) -/
  npix_eq : s.npix.toNat = s.width.toNat * s.height.toNat
  /-- after a job start `RUN` is at most 61 between steps, in either direction (R25) -/
  run_le : s.phase ≠ .idle → s.run.toNat ≤ 61
  /-- no run is pending at the end-marker emission (R198, where the spec marks it as its own inference) -/
  run_flushed : s.phase = .eEnd → s.run = 0
  /-- `D_END` is reachable only with CHECK_END_MARKER (R20) -/
  dEnd_checked : s.phase = .dEnd → s.params.checkEndMarker = true
  /-- all pixels are done in the end phases (R160, R198) -/
  count_done : s.phase = .dEnd ∨ s.phase = .eEnd → s.pixcount = s.npix
  /-- a decoder past its header has a legal one (R82) -/
  decode_header : s.phase = .dPix ∨ s.phase = .dEnd → s.LegalHeader
  /-- an encoder has the sampled dimensions, neither 0, with channel count 4 and colorspace 0 (R28, R223) -/
  encode_header : s.phase = .eHdr ∨ s.phase = .ePix ∨ s.phase = .eEnd →
    s.width ≠ 0 ∧ s.height ≠ 0 ∧ s.channels = 4 ∧ s.colorspace = 0
  /-- before its header step a job has header registers of 0 (R115) -/
  header_pending : s.phase = .dHdr ∨ s.phase = .pHdr →
    s.width = 0 ∧ s.height = 0 ∧ s.channels = 0 ∧ s.colorspace = 0 ∧ s.npix = 0
  /-- before its first pixel a job has the registers of the job start (R222) -/
  fresh : s.phase = .dHdr ∨ s.phase = .pHdr ∨ s.phase = .eHdr → s.FreshJob
  /-- after the first pixel the decoder's previous pixel is in the cache at its slot (R158, where the spec marks it as its own
  inference) -/
  prev_cached : s.phase = .dPix → s.pixcount ≠ 0 → s.cacheRead (pixelHash s.prev) = s.prev
  /-- before the first pixel of a decode job no run is pending (R222, R157) -/
  run_after_first : s.phase = .dPix → s.pixcount = 0 → s.run = 0
  /-- while `rst` is high the engine is in the reset state (R270); that input offered meanwhile is dropped is DEDUCED (log
  13) -/
  under_reset : s.pins.rst = true → s.phase = .idle ∧ s.biq = [] ∧ s.biClosed = false ∧ s.piq = []

/-- The result of a job (R231), as far as the host sees it. -/
structure JobResult where
  pixels : List Pixel
  bytes : List Byte
  err : BitVec 3
  width : Word32
  height : Word32
  channels : Byte
  colorspace : Byte
  pixcount : Word64
  bytecount : Word64
  deriving DecidableEq, Repr

/-- The result of the job that state `before` had just been accepted into and `after` ended, if it has ended (R231): the
pixels and bytes appended since, and the host-visible registers. -/
def jobResult (before after : State) : Option JobResult :=
  if after.ended then
    some { pixels := after.poq.drop before.poq.length, bytes := after.boq.drop before.boq.length
           err := after.err, width := after.width, height := after.height
           channels := after.channels, colorspace := after.colorspace
           pixcount := after.pixcount, bytecount := after.bytecount }
  else none

/-- A state in which the engine, whatever it was doing, has just accepted an ENCODE of a `w` x `h` image (R222) and the
host has then offered `pixels` and has nothing more to do. -/
def encodeJob (s : State) (w h : Word32) (pixels : List Pixel) : State :=
  { ({ s with pins := ⟨false, true, cmdEncode, w, h⟩, host := [] } : State).jobStart with piq := pixels }

/-- A state in which the engine, whatever it was doing, has just accepted a DECODE (R222) and the host has then offered
`bytes` and has nothing more to do. -/
def decodeJob (s : State) (bytes : List Byte) : State :=
  { ({ s with pins := ⟨false, true, cmdDecode, 0, 0⟩, host := [] } : State).jobStart with biq := bytes }

end State

/-- The phases a step may move to from each phase, besides staying and besides reset (R224). -/
def phaseMoves : Phase → List Phase
  | .idle => [.dHdr, .eHdr, .pHdr, .error]
  | .done => [.dHdr, .eHdr, .pHdr, .error]
  | .error => [.dHdr, .eHdr, .pHdr, .error]
  | .dHdr => [.dPix, .error]
  | .dPix => [.dEnd, .done, .error]
  | .dEnd => [.done, .error]
  | .pHdr => [.done, .error]
  | .eHdr => [.ePix]
  | .ePix => [.eEnd]
  | .eEnd => [.done]

/-- The four bytes of a big-endian number, as a natural number (R61). -/
def bigEndianNat (b0 b1 b2 b3 : Byte) : Nat :=
  b0.toNat * 2 ^ 24 + b1.toNat * 2 ^ 16 + b2.toNat * 2 ^ 8 + b3.toNat

/-- The signed reading of a channel difference modulo 256: the number congruent to it in -128..127 (R187). -/
def signedDelta (new old : Byte) : Int := ((new.toNat : Int) - (old.toNat : Int) + 128) % 256 - 128

/-- The cache lock-step of the two directions (R137): equal at every slot but 53, and there either equal or the encoder
(0,0,0,0) and the decoder (0,0,0,255). -/
def CachesInStep (e d : State) : Prop :=
  (∀ i : Slot, i ≠ 53 → e.cacheRead i = d.cacheRead i) ∧
  (e.cacheRead 53 = d.cacheRead 53 ∨ (e.cacheRead 53 = ⟨0, 0, 0, 0⟩ ∧ d.cacheRead 53 = ⟨0, 0, 0, 255⟩))

end Sys2Proof.Machine
end

