-- ==== Sys2Proof/Certificates/Slice0/Obligations.lean ====
section
/-! DEFINITION. The statements of the model, each with the rule or section of spec/ it formalises. -/

open Sys2Proof Sys2Proof.Machine

/-- Decoding the encoding of any well-formed operation gives it back, and the bytes after it.

For every well-formed operation i, with every operand at every value R95 admits, and every list of bytes after it,
decoding encode i followed by those bytes gives i and exactly those bytes. So no operand bit is dropped by the
encoding.

Rests on: 30_encoding.md section 2; 30_encoding.md section 4. -/
def Obligations.DecodeOfEncodeIsTheInstruction : Prop :=
  ∀ (i : Instr) (rest : List Byte), i.wellFormed = true → decode (encode i ++ rest) = .ok (i, rest)

/-- Whatever the decoder accepts is the encoding of a well-formed operation, and nothing else.

If decoding a list of bytes gives operation i and the bytes after it, then i is well-formed and the list is encode i
followed by those bytes. So two different byte strings of the same operation do not exist, and the decoder reads every
bit.

Rests on: 30_encoding.md section 2; 30_encoding.md section 3. -/
def Obligations.DecodedBytesAreTheEncodingOfTheResult : Prop :=
  ∀ (bs rest : List Byte) (i : Instr), decode bs = .ok (i, rest) → i.wellFormed = true ∧ bs = encode i ++ rest

/-- Classification: FE and FF first, then the 2-bit tag.

For every first byte b1: 0xFE is RGB and 0xFF is RGBA; otherwise bits 7:6 (b1 divided by 64) decide: 0 INDEX, 1 DIFF,
2 LUMA, 3 RUN. The six clauses do not overlap and cover all 256 values.

Rules: R90. -/
def Obligations.ClassifyTestsFullBytesThenTags : Prop :=
  ∀ b1 : Byte,
    (b1.toNat = 0xFE → classify b1 = .rgb) ∧ (b1.toNat = 0xFF → classify b1 = .rgba) ∧
    (b1.toNat / 64 = 0 → classify b1 = .index) ∧ (b1.toNat / 64 = 1 → classify b1 = .diff) ∧
    (b1.toNat / 64 = 2 → classify b1 = .luma) ∧
    (b1.toNat / 64 = 3 → b1.toNat ≠ 0xFE → b1.toNat ≠ 0xFF → classify b1 = .run)

/-- The first byte alone fixes the length, and a shorter list is the only thing refused.

For every first byte b1 and bytes after it: the length is 5 for 0xFF, 4 for 0xFE, 2 for 0x80..0xBF and 1 otherwise.
With at least that many bytes the decoder gives an operation of the byte's class, leaving exactly the bytes after
those; with fewer it refuses, naming the class. The empty list is refused as holding no byte.

Rules: R84. -/
def Obligations.OperationLengthComesFromTheFirstByte : Prop :=
  decode [] = .error .noByte ∧
  ∀ (b1 : Byte) (tl : List Byte) (n : Nat),
    n = (if b1.toNat = 255 then 5 else if b1.toNat = 254 then 4
         else if 128 ≤ b1.toNat ∧ b1.toNat < 192 then 2 else 1) →
    (tl.length + 1 < n → decode (b1 :: tl) = .error (.truncated (classify b1))) ∧
    (n ≤ tl.length + 1 → ∃ i, decode (b1 :: tl) = .ok (i, (b1 :: tl).drop n) ∧
      i.opClass = classify b1 ∧ i.byteLength = n)

/-- Every operand field is read, and written, at the place and with the bias its format gives.

For all field values: FE r g b is OP_RGB r, g, b; FF r g b a is OP_RGBA r, g, b, a; the byte i (0..63) is OP_INDEX i;
the byte 64 + 16r + 4g + b (fields 0..3) is OP_DIFF r-2, g-2, b-2; the bytes 128 + g, 16r + b (g 0..63, r and b 0..15)
are OP_LUMA g-32, r-8, b-8; the byte 192 + l (0..61) is OP_RUN l+1. Each is said of decode, with any bytes after it,
and of encode.

Rules: R85, R86, R87, R88, R89. -/
def Obligations.FieldsStandWhereTheFormatsPutThem : Prop :=
  ∀ rest : List Byte,
    (∀ r g b : Byte, decode (0xFE :: r :: g :: b :: rest) = .ok (.opRgb r g b, rest) ∧
      encode (.opRgb r g b) = [0xFE, r, g, b]) ∧
    (∀ r g b a : Byte, decode (0xFF :: r :: g :: b :: a :: rest) = .ok (.opRgba r g b a, rest) ∧
      encode (.opRgba r g b a) = [0xFF, r, g, b, a]) ∧
    (∀ i : Nat, i < 64 → decode (BitVec.ofNat 8 i :: rest) = .ok (.opIndex (BitVec.ofNat 6 i), rest) ∧
      encode (.opIndex (BitVec.ofNat 6 i)) = [BitVec.ofNat 8 i]) ∧
    (∀ r g b : Nat, r < 4 → g < 4 → b < 4 →
      decode (BitVec.ofNat 8 (64 + 16 * r + 4 * g + b) :: rest) = .ok (.opDiff (r - 2) (g - 2) (b - 2), rest) ∧
      encode (.opDiff (r - 2) (g - 2) (b - 2)) = [BitVec.ofNat 8 (64 + 16 * r + 4 * g + b)]) ∧
    (∀ g r b : Nat, g < 64 → r < 16 → b < 16 →
      decode (BitVec.ofNat 8 (128 + g) :: BitVec.ofNat 8 (16 * r + b) :: rest) =
        .ok (.opLuma (g - 32) (r - 8) (b - 8), rest) ∧
      encode (.opLuma (g - 32) (r - 8) (b - 8)) = [BitVec.ofNat 8 (128 + g), BitVec.ofNat 8 (16 * r + b)]) ∧
    (∀ l : Nat, l < 62 → decode (BitVec.ofNat 8 (192 + l) :: rest) = .ok (.opRun (l + 1), rest) ∧
      encode (.opRun (l + 1)) = [BitVec.ofNat 8 (192 + l)])

/-- Words written out in the spec's vectors decode to the operations they stand for.

FE 0A 14 1E is OP_RGB 10, 20, 30 (TD1); FF 09 08 07 06 is OP_RGBA 9, 8, 7, 6 (TD2); 0E is OP_INDEX 14 (TD3); 76 is
OP_DIFF 1, -1, 0 (P1); A5 6B is OP_LUMA 5, -2, 3 (P1); FD is OP_RUN 62 (TD15). A sanity statement on fixed words.

Rests on: 95_test_vectors.md section 4; 95_test_vectors.md section 7. -/
def Obligations.SpecWordsDecodeToTheirOperations : Prop :=
  decode [0xFE, 0x0A, 0x14, 0x1E] = .ok (.opRgb 10 20 30, []) ∧
  decode [0xFF, 0x09, 0x08, 0x07, 0x06] = .ok (.opRgba 9 8 7 6, []) ∧
  decode [0x0E] = .ok (.opIndex 14, []) ∧ decode [0x76] = .ok (.opDiff 1 (-1) 0, []) ∧
  decode [0xA5, 0x6B] = .ok (.opLuma 5 (-2) 3, []) ∧ decode [0xFD] = .ok (.opRun 62, [])

/-- Width and height are bytes 4..7 and 8..11 of the header, most significant byte first, read and written.

Whatever header parses, its width is h[4]*2^24 + h[5]*2^16 + h[6]*2^8 + h[7] and its height the same of h[8..11]; and
the serializer's bytes 4..7 and 8..11 spell its arguments in the same order.

Rules: R61. -/
def Obligations.HeaderNumbersAreBigEndian : Prop :=
  (∀ (p : Params) (h : List Byte) (hd : Header), parseHeader p h = .ok hd →
    hd.width.toNat = bigEndianNat (h.getD 4 0) (h.getD 5 0) (h.getD 6 0) (h.getD 7 0) ∧
    hd.height.toNat = bigEndianNat (h.getD 8 0) (h.getD 9 0) (h.getD 10 0) (h.getD 11 0)) ∧
  (∀ (p : Params) (w ht : Word32) (h : List Byte), h = serializeHeader p w ht →
    w.toNat = bigEndianNat (h.getD 4 0) (h.getD 5 0) (h.getD 6 0) (h.getD 7 0) ∧
    ht.toNat = bigEndianNat (h.getD 8 0) (h.getD 9 0) (h.getD 10 0) (h.getD 11 0))

/-- A pixel word is R in bits 31:24, G in 23:16, B in 15:8, A in 7:0.

The packed word of a pixel is r*2^24 + g*2^16 + b*2^8 + a, and unpacking is its inverse on both sides; so the words on
po_data and pi_data carry exactly the pixels of the queues.

Rests on: 20_memory.md section 2 (pixel packing). -/
def Obligations.PixelWordsPackRgba : Prop :=
  (∀ px : Pixel, (packPixel px).toNat = bigEndianNat px.r px.g px.b px.a) ∧
  (∀ px : Pixel, unpackPixel (packPixel px) = px) ∧ (∀ w : Word32, packPixel (unpackPixel w) = w)

/-- Hash(px) = (3r + 5g + 7b + 11a) mod 64, from a sum of at most 6630.

For every pixel the slot is the weighted sum of its four unsigned channels modulo 64, and the sum is at most 6630, so
it fits in 13 bits.

Rules: R130. -/
def Obligations.HashIsTheWeightedSumModulo64 : Prop :=
  ∀ px : Pixel,
    (pixelHash px).toNat = (3 * px.r.toNat + 5 * px.g.toNat + 7 * px.b.toNat + 11 * px.a.toNat) % 64 ∧
    hashSum px ≤ 6630 ∧ hashSum px < 2 ^ 13

/-- A wrapping adder tree of 6 or more bits gives the same slot as the exact sum.

For every width n of at least 6, the sum computed in n bits with wrap-around, cut to its low 6 bits, is the slot of
the exact sum. The spec marks this as its own inference (41_color_cache.md: 'the exact 13-bit sum is not needed').

Rests on: 41_color_cache.md section 1. -/
def Obligations.HashAdderMayBeAnyWidthFromSixBits : Prop :=
  ∀ (n : Nat) (px : Pixel), 6 ≤ n →
    ((3 * px.r.setWidth n + 5 * px.g.setWidth n + 7 * px.b.setWidth n + 11 * px.a.setWidth n : BitVec n)).setWidth 6 =
      pixelHash px

/-- A cache read sees the last write of its slot; a write touches one entry and nothing else.

After CacheWrite(i, px), slot i reads px and every other slot reads as before; every other register, queue, output and
input is unchanged.

Rules: R133. -/
def Obligations.CacheReadAfterWrite : Prop :=
  ∀ (s t : State) (i : Slot) (px : Pixel), t = s.cacheWrite i px →
    (∀ j : Slot, t.cacheRead j = if j.toNat = i.toNat then px else s.cacheRead j) ∧
    t = { s with cache := t.cache }

/-- Contains(px) is the exact comparison at slot Hash(px); no other slot is searched.

Contains(px) is true exactly when the entry at Hash(px) equals px in all four channels; and it is the same for two
states whose caches agree at that slot, whatever the other slots hold.

Rules: R134. -/
def Obligations.HitTestExaminesOnlyTheHashSlot : Prop :=
  (∀ (s : State) (px : Pixel), s.contains px = true ↔
    (s.cacheRead (pixelHash px)).r = px.r ∧ (s.cacheRead (pixelHash px)).g = px.g ∧
    (s.cacheRead (pixelHash px)).b = px.b ∧ (s.cacheRead (pixelHash px)).a = px.a) ∧
  (∀ (s t : State) (px : Pixel), s.cacheRead (pixelHash px) = t.cacheRead (pixelHash px) → s.contains px = t.contains px)

/-- OP_RGB: pixel (r, g, b, PREV.a), with its frame; a cut OP_RGB starves.

For every r, g, b and state, OP_RGB completes: its pixel is (r, g, b, PREV.a), RUN is unchanged, and the pixel is
written to the cache slot of its hash, to PREV and to the output, counted, with everything else unchanged. And when
the stream holds FE with fewer than 3 bytes after it, the step holds on an open stream and raises
UnexpectedEndOfStream on a closed one.

Rules: R152. -/
def Obligations.OpRgbKeepsAlphaAndReplacesColour : Prop :=
  (∀ (r g b : Byte) (s : State), ∃ t, exec (.opRgb r g b) s = .next t ∧ t.run = s.run ∧
    s.ProducesPixel t ⟨r, g, b, s.prev.a⟩) ∧
  (∀ (s : State) (tl : List Byte), s.ready .dPix → s.run = 0 → s.biq = 0xFE :: tl → tl.length < 3 → s.Starves)

/-- OP_RGBA: pixel (r, g, b, a), with its frame; a cut OP_RGBA starves.

For every r, g, b, a and state, OP_RGBA completes: its pixel is (r, g, b, a) whatever PREV is, RUN is unchanged, and
the pixel is written, output and counted, with everything else unchanged. When the stream holds FF with fewer than 4
bytes after it, the step holds on an open stream and raises UnexpectedEndOfStream on a closed one.

Rules: R153. -/
def Obligations.OpRgbaReplacesAllFourChannels : Prop :=
  (∀ (r g b a : Byte) (s : State), ∃ t, exec (.opRgba r g b a) s = .next t ∧ t.run = s.run ∧
    s.ProducesPixel t ⟨r, g, b, a⟩) ∧
  (∀ (s : State) (tl : List Byte), s.ready .dPix → s.run = 0 → s.biq = 0xFF :: tl → tl.length < 4 → s.Starves)

/-- OP_INDEX: pixel CACHE[slot], written back at its own hash slot, with its frame.

For every slot and state, OP_INDEX completes: its pixel is the entry of the slot as the previous step left it, RUN is
unchanged, and the pixel is written at slot Hash(pixel), which may be another slot, to PREV and to the output,
counted, with everything else unchanged.

Rules: R154. -/
def Obligations.OpIndexReadsTheSlotAndWritesTheHashSlot : Prop :=
  ∀ (slot : Slot) (s : State), ∃ t, exec (.opIndex slot) s = .next t ∧ t.run = s.run ∧
    s.ProducesPixel t (s.cacheRead slot)

/-- OP_DIFF: each of R, G, B moves by its delta modulo 256, alpha kept, with its frame.

For all deltas and every state, OP_DIFF completes: the pixel's R, G and B are PREV's plus dr, dg, db modulo 256, its
alpha is PREV's, RUN is unchanged, and the pixel is written, output and counted, with everything else unchanged.

Rules: R155. -/
def Obligations.OpDiffAddsItsDeltasModulo256 : Prop :=
  ∀ (dr dg db : Int) (s : State), ∃ t, exec (.opDiff dr dg db) s = .next t ∧
    (t.prev.r.toNat : Int) = (s.prev.r.toNat + dr) % 256 ∧ (t.prev.g.toNat : Int) = (s.prev.g.toNat + dg) % 256 ∧
    (t.prev.b.toNat : Int) = (s.prev.b.toNat + db) % 256 ∧ t.prev.a = s.prev.a ∧ t.run = s.run ∧
    s.ProducesPixel t t.prev

/-- OP_LUMA: G moves by dg, R by dg + dr_dg, B by dg + db_dg, modulo 256, with its frame; a cut OP_LUMA starves.

For all operands and every state, OP_LUMA completes: G is PREV.g + dg, R is PREV.r + dg + dr_dg, B is PREV.b + dg +
db_dg, each modulo 256, alpha is PREV's, RUN is unchanged, and the pixel is written, output and counted, with
everything else unchanged. A lone byte 80..BF starves the step.

Rules: R156. -/
def Obligations.OpLumaAddsGreenAndDifferencesModulo256 : Prop :=
  (∀ (dg drDg dbDg : Int) (s : State), ∃ t, exec (.opLuma dg drDg dbDg) s = .next t ∧
    (t.prev.r.toNat : Int) = (s.prev.r.toNat + dg + drDg) % 256 ∧
    (t.prev.g.toNat : Int) = (s.prev.g.toNat + dg) % 256 ∧
    (t.prev.b.toNat : Int) = (s.prev.b.toNat + dg + dbDg) % 256 ∧ t.prev.a = s.prev.a ∧ t.run = s.run ∧
    s.ProducesPixel t t.prev) ∧
  (∀ (s : State) (b1 : Byte), s.ready .dPix → s.run = 0 → s.biq = [b1] → b1.toNat / 64 = 2 → s.Starves)

/-- OP_RUN: pixel PREV now, RUN <- length - 1, with its frame.

For every length 1..62 and every state, OP_RUN completes: RUN becomes length - 1, the pixel is PREV, and it is written
to the cache at its hash slot, output and counted, with everything else unchanged.

Rules: R157. -/
def Obligations.OpRunRepeatsPrevAndLoadsTheCount : Prop :=
  ∀ (length : Nat) (s : State), 1 ≤ length → length ≤ 62 → ∃ t, exec (.opRun length) s = .next t ∧
    t.run.toNat = length - 1 ∧ s.ProducesPixel t s.prev

/-- A run continuation outputs PREV again, decrements RUN, and touches no byte and no cache entry.

In D_PIX with RUN > 0, whatever the byte queue holds and whether or not it is closed, the engine's step outputs PREV,
decrements RUN, counts the pixel and ends the pixels when due; the cache, PREV, the byte queue, BYTECOUNT and
everything else stay.

Rules: R151. -/
def Obligations.RunContinuationReadsNothing : Prop :=
  ∀ s : State, s.ready .dPix → s.run ≠ 0 → ∃ t, step s = .next t ∧ t.run.toNat + 1 = s.run.toNat ∧
    t.prev = s.prev ∧ t.cache = s.cache ∧ t.biq = s.biq ∧ t.bytecount = s.bytecount ∧ s.afterTurn.EmitsPixel t s.prev

/-- A step in D_PIX is the meaning of the operation its bytes decode to, after those bytes are consumed.

At the engine's turn, with rst low and PHASE = D_PIX: with RUN > 0 the step is a run continuation; with RUN = 0 and
bytes that decode to operation i, the step is exec i on the state whose queue holds the bytes after i and whose
BYTECOUNT is advanced by i's length; with RUN = 0 and bytes that decode to nothing, the step starves.

Rests on: 42_decoder.md section 1. -/
def Obligations.StepRunsTheDecodedOperation : Prop :=
  ∀ s : State, s.ready .dPix →
    (s.run ≠ 0 → step s = .next s.afterTurn.runContinuation) ∧
    (s.run = 0 → ∀ (i : Instr) (rest : List Byte), decode s.biq = .ok (i, rest) →
      step s = exec i { s.afterTurn with
        biq := rest, bytecount := s.bytecount + BitVec.ofNat 64 i.byteLength }) ∧
    (s.run = 0 → ∀ r : DecodeReject, decode s.biq = .error r → s.Starves)

/-- End-marker check: short starves, wrong raises InvalidOpcode, right ends the job.

In D_END at the engine's turn: fewer than 8 bytes starve the step; the 8 bytes 00 00 00 00 00 00 00 01 are consumed
and the job is DONE; any other 8 bytes are consumed and raise InvalidOpcode, code 5. Nothing else is written, and
bytes after the marker stay.

Rules: R162. -/
def Obligations.EndMarkerCheckVerdict : Prop :=
  ∀ s : State, s.ready .dEnd →
    (s.biq.length < 8 → s.Starves) ∧
    (8 ≤ s.biq.length → ∃ t, step s = .next t ∧ s.afterTurn.ReadsBytes t 8 ∧ s.afterTurn.KeepsPorts t ∧
      s.KeepsHeader t ∧ s.KeepsPixels t ∧
      (s.biq.take 8 = [0, 0, 0, 0, 0, 0, 0, 1] → t.phase = .done ∧ t.err = s.err) ∧
      (s.biq.take 8 ≠ [0, 0, 0, 0, 0, 0, 0, 1] → t.phase = .error ∧ t.err = 5))

/-- Each channel lane of the reconstructor depends on that lane only; alpha changes only by OP_RGBA and OP_INDEX.

For every operation but OP_INDEX (whose source is the cache), the produced channel in each lane is the same for two
states that agree on PREV in that lane, whatever the other lanes hold; and for every operation but OP_RGBA and
OP_INDEX the alpha of PREV is unchanged.

Rests on: 42_decoder.md section 3. -/
def Obligations.LanesAreIndependent : Prop :=
  ∀ (i : Instr) (s1 s2 t1 t2 : State), exec i s1 = .next t1 → exec i s2 = .next t2 →
    ((∀ slot, i ≠ .opIndex slot) →
      (s1.prev.r = s2.prev.r → t1.prev.r = t2.prev.r) ∧ (s1.prev.g = s2.prev.g → t1.prev.g = t2.prev.g) ∧
      (s1.prev.b = s2.prev.b → t1.prev.b = t2.prev.b) ∧ (s1.prev.a = s2.prev.a → t1.prev.a = t2.prev.a)) ∧
    ((∀ slot, i ≠ .opIndex slot) → (∀ r g b a, i ≠ .opRgba r g b a) → t1.prev.a = s1.prev.a)

/-- At a run continuation the cache already holds PREV at its slot, so writing it would change nothing.

In every state that meets the machine's invariant, in D_PIX with RUN > 0, writing PREV to CACHE[Hash(PREV)] leaves the
state as it is. The spec marks this as its own inference (42_decoder.md section 3: 'the write would not change the
entry').

Rests on: 42_decoder.md section 3. -/
def Obligations.ContinuationCacheWriteWouldChangeNothing : Prop :=
  ∀ s : State, s.Inv → s.phase = .dPix → s.run ≠ 0 → s.cacheWrite (pixelHash s.prev) s.prev = s

/-- The header's channel count and colorspace change no decode pixel step.

In D_PIX, changing CHANNELS and COLORSPACE to any values changes the step's result in those two registers only: a
3-channel image is decoded exactly like a 4-channel one, and the colorspace is not interpreted.

Rests on: 10_state.md section 2; 40_header_codec.md section 1. -/
def Obligations.ChannelsAndColorspaceAreInformational : Prop :=
  ∀ (s t : State) (ch cs : Byte), s.ready .dPix → step s = .next t →
    step { s with channels := ch, colorspace := cs } = .next { t with channels := ch, colorspace := cs }

/-- A 14-byte header is judged by magic, dimensions, channels, colorspace, first failure wins.

For every 14 bytes and all parameters, with the width and height read big-endian: a wrong magic is InvalidMagic
whatever follows; with the right magic, a zero width or height is InvalidDimensions; then a channel byte other than 3
and 4 is InvalidChannelCount; then, only under STRICT_COLORSPACE, a colorspace other than 0 and 1 is
InvalidColorspace; otherwise the header is exactly those values.

Rules: R110, R111, R114. -/
def Obligations.HeaderVerdictFollowsTheCheckOrder : Prop :=
  ∀ (p : Params) (h : List Byte) (w ht : Nat), h.length = 14 →
    w = bigEndianNat (h.getD 4 0) (h.getD 5 0) (h.getD 6 0) (h.getD 7 0) →
    ht = bigEndianNat (h.getD 8 0) (h.getD 9 0) (h.getD 10 0) (h.getD 11 0) →
    (h.take 4 ≠ [p.magic0, p.magic1, p.magic2, p.magic3] → parseHeader p h = .error .invalidMagic) ∧
    (h.take 4 = [p.magic0, p.magic1, p.magic2, p.magic3] →
      ((w = 0 ∨ ht = 0) → parseHeader p h = .error .invalidDimensions) ∧
      (w ≠ 0 → ht ≠ 0 →
        ((h.getD 12 0 ≠ 3 ∧ h.getD 12 0 ≠ 4) → parseHeader p h = .error .invalidChannelCount) ∧
        ((h.getD 12 0 = 3 ∨ h.getD 12 0 = 4) →
          ((p.strictColorspace = true ∧ h.getD 13 0 ≠ 0 ∧ h.getD 13 0 ≠ 1) →
            parseHeader p h = .error .invalidColorspace) ∧
          ((p.strictColorspace = false ∨ h.getD 13 0 = 0 ∨ h.getD 13 0 = 1) →
            ∃ hd, parseHeader p h = .ok hd ∧ hd.width.toNat = w ∧ hd.height.toNat = ht ∧
              hd.channels = h.getD 12 0 ∧ hd.colorspace = h.getD 13 0))))

/-- The header step: short starves; 14 bytes are consumed and judged; success loads the registers and moves the phase.

In D_HDR or P_HDR at the engine's turn: fewer than 14 bytes starve the step before any check; with 14, exactly 14 are
consumed, and a header that parses sets WIDTH, HEIGHT, CHANNELS, COLORSPACE and NPIX = WIDTH * HEIGHT exactly, and
goes to D_PIX from D_HDR and to DONE from P_HDR; one that does not raises its kind and leaves those registers. PREV,
RUN, CACHE, PIXCOUNT and the outputs stay.

Rules: R113. -/
def Obligations.HeaderStepConsumesFourteenBytes : Prop :=
  ∀ s : State, s.ready .dHdr ∨ s.ready .pHdr →
    (s.biq.length < 14 → s.Starves) ∧
    (14 ≤ s.biq.length → ∃ t, step s = .next t ∧ s.afterTurn.ReadsBytes t 14 ∧ s.afterTurn.KeepsPorts t ∧
      s.KeepsPixels t ∧
      (∀ hd, parseHeader s.params (s.biq.take 14) = .ok hd →
        t.width = hd.width ∧ t.height = hd.height ∧ t.channels = hd.channels ∧ t.colorspace = hd.colorspace ∧
        t.npix.toNat = hd.width.toNat * hd.height.toNat ∧ t.err = s.err ∧
        (s.phase = .dHdr → t.phase = .dPix) ∧ (s.phase = .pHdr → t.phase = .done)) ∧
      (∀ e, parseHeader s.params (s.biq.take 14) = .error e →
        s.KeepsHeader t ∧ t.err = e.code ∧ t.phase = .error))

/-- After a failed header the header outputs read 0 and no pixel is output.

From every state that meets the machine's invariant, if the header step of a DECODE or PEEK ends in ERROR, then
hdr_width, hdr_height, hdr_channels, hdr_colorspace and NPIX are 0, no pixel was output, and PREV, RUN and CACHE are
as they were.

Rests on: 40_header_codec.md section 1. -/
def Obligations.HeaderErrorLeavesZeroOutputs : Prop :=
  ∀ s t : State, s.Inv → s.ready .dHdr ∨ s.ready .pHdr → step s = .next t → t.phase = .error →
    t.hdrWidth = 0 ∧ t.hdrHeight = 0 ∧ t.hdrChannels = 0 ∧ t.hdrColorspace = 0 ∧ t.npix = 0 ∧ s.KeepsPixels t

/-- The serializer writes MAGIC, the dimensions big-endian, then 04 00.

For all parameters and dimensions the serialized header is the four magic bytes, bits 31:24, 23:16, 15:8 and 7:0 of
the width, the same of the height, 04 and 00: 14 bytes.

Rules: R116. -/
def Obligations.SerializedHeaderBytes : Prop :=
  ∀ (p : Params) (w h : Word32), serializeHeader p w h =
    [p.magic0, p.magic1, p.magic2, p.magic3,
     BitVec.ofNat 8 (w.toNat / 2 ^ 24), BitVec.ofNat 8 (w.toNat / 2 ^ 16), BitVec.ofNat 8 (w.toNat / 2 ^ 8),
     BitVec.ofNat 8 w.toNat,
     BitVec.ofNat 8 (h.toNat / 2 ^ 24), BitVec.ofNat 8 (h.toNat / 2 ^ 16), BitVec.ofNat 8 (h.toNat / 2 ^ 8),
     BitVec.ofNat 8 h.toNat, 4, 0]

/-- Parsing a serialized header gives back its dimensions, 4 channels and colorspace 0.

For every width and height that are not 0, under every value of the parameters, ParseHeader(SerializeHeader(w, h)) is
(w, h, 4, 0), also with a parser of another strictness but the same MAGIC. The spec marks this as its own inference
(40_header_codec.md section 2).

Rests on: 40_header_codec.md section 2. -/
def Obligations.ParseOfSerializeGivesTheDimensions : Prop :=
  ∀ (p q : Params) (w h : Word32), w ≠ 0 → h ≠ 0 → p.magic = q.magic →
    parseHeader q (serializeHeader p w h) = .ok ⟨w, h, 4, 0⟩

/-- Encoding a repeat of PREV: RUN counts it, and flushes at 62 or at the last pixel.

From every state that meets the machine's invariant, in E_PIX with a next input pixel equal to PREV: when the count
becomes 62 or the pixel is the last of the image, the one byte 0xC0 | (RUN - 1) of the new count is emitted and RUN
becomes 0; otherwise nothing is emitted and RUN is one more. The cache is not touched; the pixel is consumed, counted
and written to PREV; nothing else changes.

Rules: R182, R183. -/
def Obligations.EncodeRepeatCountsOrFlushes : Prop :=
  ∀ (s : State) (px : Pixel) (more : List Pixel), s.Inv → s.ready .ePix → s.piq = px :: more → px = s.prev →
    ∃ t, step s = .next t ∧ t.cache = s.cache ∧
      ((s.run.toNat + 1 = 62 ∨ s.pixcount.toNat + 1 = s.npix.toNat) →
        t.run = 0 ∧ s.ConsumesPixel t px [BitVec.ofNat 8 (192 + s.run.toNat)]) ∧
      ((s.run.toNat + 1 ≠ 62 ∧ s.pixcount.toNat + 1 ≠ s.npix.toNat) →
        t.run.toNat = s.run.toNat + 1 ∧ s.ConsumesPixel t px [])

/-- Encoding a pixel the cache holds at its slot: close the run, emit OP_INDEX, leave the cache.

From every state that meets the machine's invariant, in E_PIX with a next input pixel that differs from PREV and
equals the entry at its hash slot: the bytes are the pending run, if RUN > 0, as 0xC0 | (RUN - 1), then the slot
number; RUN becomes 0; the cache is unchanged; the pixel is consumed, counted and written to PREV; nothing else
changes.

Rules: R184, R185. -/
def Obligations.EncodeHitEmitsTheSlot : Prop :=
  ∀ (s : State) (px : Pixel) (more : List Pixel), s.Inv → s.ready .ePix → s.piq = px :: more → px ≠ s.prev →
    s.cacheRead (pixelHash px) = px →
    ∃ t, step s = .next t ∧ t.cache = s.cache ∧ t.run = 0 ∧
      s.ConsumesPixel t px ((if s.run = 0 then [] else [BitVec.ofNat 8 (192 + (s.run.toNat - 1))]) ++
        [BitVec.ofNat 8 (pixelHash px).toNat])

/-- Encoding a pixel that misses: close the run, insert it at its slot, emit the selected delta or literal.

From every state that meets the machine's invariant, in E_PIX with a next input pixel that differs from PREV and from
the entry at its hash slot: the bytes are the pending run, if any, then the selected operation; the cache holds the
pixel at its hash slot and is otherwise unchanged; RUN becomes 0; the pixel is consumed, counted and written to PREV;
nothing else changes.

Rules: R186. -/
def Obligations.EncodeMissInsertsAndEmitsADelta : Prop :=
  ∀ (s : State) (px : Pixel) (more : List Pixel), s.Inv → s.ready .ePix → s.piq = px :: more → px ≠ s.prev →
    s.cacheRead (pixelHash px) ≠ px →
    ∃ t, step s = .next t ∧ t.run = 0 ∧
      (∀ j : Slot, t.cacheRead j = if j = pixelHash px then px else s.cacheRead j) ∧
      s.ConsumesPixel t px ((if s.run = 0 then [] else [BitVec.ofNat 8 (192 + (s.run.toNat - 1))]) ++
        encode (selectDelta px s.prev))

/-- The selector: DIFF, then LUMA, then RGB when alpha is unchanged; RGBA when it changed.

For every pixel and previous pixel, with vr, vg, vb the channel differences modulo 256 read as signed: equal alpha and
all three in -2..1 gives the byte of OP_DIFF; otherwise equal alpha, vg in -32..31 and vr - vg, vb - vg in -8..7 gives
the two bytes of OP_LUMA; otherwise equal alpha gives FE r g b; a changed alpha gives FF r g b a.

Rules: R188, R189, R190, R191. -/
def Obligations.DeltaSelectionConditions : Prop :=
  ∀ (px p : Pixel) (vr vg vb : Int),
    vr = signedDelta px.r p.r → vg = signedDelta px.g p.g → vb = signedDelta px.b p.b →
    (px.a ≠ p.a → encode (selectDelta px p) = [0xFF, px.r, px.g, px.b, px.a]) ∧
    (px.a = p.a →
      (((-2 ≤ vr ∧ vr ≤ 1) ∧ (-2 ≤ vg ∧ vg ≤ 1) ∧ (-2 ≤ vb ∧ vb ≤ 1)) →
        encode (selectDelta px p) = [BitVec.ofInt 8 (64 + 16 * (vr + 2) + 4 * (vg + 2) + (vb + 2))]) ∧
      (¬ ((-2 ≤ vr ∧ vr ≤ 1) ∧ (-2 ≤ vg ∧ vg ≤ 1) ∧ (-2 ≤ vb ∧ vb ≤ 1)) →
        (((-32 ≤ vg ∧ vg ≤ 31) ∧ (-8 ≤ vr - vg ∧ vr - vg ≤ 7) ∧ (-8 ≤ vb - vg ∧ vb - vg ≤ 7)) →
          encode (selectDelta px p) =
            [BitVec.ofInt 8 (128 + (vg + 32)), BitVec.ofInt 8 (16 * (vr - vg + 8) + (vb - vg + 8))]) ∧
        (¬ ((-32 ≤ vg ∧ vg ≤ 31) ∧ (-8 ≤ vr - vg ∧ vr - vg ≤ 7) ∧ (-8 ≤ vb - vg ∧ vb - vg ≤ 7)) →
          encode (selectDelta px p) = [0xFE, px.r, px.g, px.b])))

/-- Executing the operation the encoder selects gives the pixel it was selected for.

For every pixel px and every state, the operation selected for px against PREV is well-formed, and its decoder meaning
in that state completes with PREV = px and RUN unchanged. This is the per-operation half of the round trip of
41_color_cache.md section 4.

Rests on: 41_color_cache.md section 4; 43_encoder.md section 4. -/
def Obligations.SelectedOperationReproducesThePixel : Prop :=
  ∀ (px : Pixel) (s : State), (selectDelta px s.prev).wellFormed = true ∧
    ∃ t, exec (selectDelta px s.prev) s = .next t ∧ t.prev = px ∧ t.run = s.run ∧ s.ProducesPixel t px

/-- No delta or literal that produces the pixel is shorter than the one the encoder selects.

For every pixel that differs from PREV, if a well-formed operation other than OP_INDEX produces it, then the selected
operation has at most as many bytes. The spec marks this as its own inference (43_encoder.md section 4: 'no pixel is
given a longer operation than another applicable one').

Rests on: 43_encoder.md section 4. -/
def Obligations.SelectedOperationIsShortest : Prop :=
  ∀ (px : Pixel) (i : Instr) (s t : State), px ≠ s.prev → i.wellFormed = true → (∀ slot, i ≠ .opIndex slot) →
    exec i s = .next t → t.prev = px → (encode (selectDelta px s.prev)).length ≤ (encode i).length

/-- The encoder never emits an OP_RGBA with the previous alpha, nor a DIFF or LUMA that reproduces PREV.

For every pixel that differs from the previous one: a selected OP_RGBA carries another alpha, and a selected OP_DIFF
or OP_LUMA has an operand that is not 0. The spec marks this as its own inference (43_encoder.md section 5: 'no
OP_RGBA carries the previous alpha; no OP_DIFF or OP_LUMA reproduces the previous pixel').

Rests on: 43_encoder.md section 5. -/
def Obligations.SelectedOperationIsNeverRedundant : Prop :=
  ∀ px p : Pixel, px ≠ p →
    (∀ r g b a, selectDelta px p = .opRgba r g b a → a ≠ p.a) ∧
    (∀ dr dg db, selectDelta px p = .opDiff dr dg db → ¬ (dr = 0 ∧ dg = 0 ∧ db = 0)) ∧
    (∀ dg drDg dbDg, selectDelta px p = .opLuma dg drDg dbDg → ¬ (dg = 0 ∧ drDg = 0 ∧ dbDg = 0))

/-- Reducing vr - vg and vb - vg modulo 256 changes no selection.

For all signed channel differences with vg in -32..31, the plain difference lies in -8..7 exactly when the difference
reduced to -128..127 does. So the model's choice of the plain reading (92_eei_decisions.md D5) selects the same
operations as the other reading. The spec marks this as its own inference (43_encoder.md section 4).

Rests on: 43_encoder.md section 4. -/
def Obligations.WrappingTheLumaDifferencesSelectsTheSame : Prop :=
  ∀ (n o n' o' : Byte), -32 ≤ channelDelta n' o' → channelDelta n' o' ≤ 31 →
    inRange (s8 (channelDelta n o - channelDelta n' o')) (-8) 7 = inRange (channelDelta n o - channelDelta n' o') (-8) 7

/-- The bytes of one encode pixel step, by path: at most six.

From every state that meets the machine's invariant, an encode pixel step with a pixel to take emits: for a repeat, 1
byte if it flushes and 0 if not; for another pixel, 1 byte for a pending run if RUN > 0, plus 1 for an index hit or
the length of the selected operation; hence at most 6. The spec marks this as its own inference (43_encoder.md section
4).

Rests on: 43_encoder.md section 4. -/
def Obligations.EncodeStepEmitsUpToSixBytes : Prop :=
  ∀ (s t : State) (px : Pixel) (more : List Pixel), s.Inv → s.ready .ePix → s.piq = px :: more → step s = .next t →
    ∃ out : List Byte, t.boq = s.boq ++ out ∧ out.length ≤ 6 ∧
      (px = s.prev → out.length =
        if s.run.toNat + 1 = 62 ∨ s.pixcount.toNat + 1 = s.npix.toNat then 1 else 0) ∧
      (px ≠ s.prev → out.length = (if s.run = 0 then 0 else 1) +
        (if s.cacheRead (pixelHash px) = px then 1 else (selectDelta px s.prev).byteLength))

/-- The header and the end marker are emitted, and nothing else changes.

In E_HDR at the engine's turn, the 14 serialized header bytes are appended and counted and the phase becomes E_PIX; in
E_END, the bytes 00 00 00 00 00 00 00 01 are appended and counted and the phase becomes DONE. Neither step reads a
queue; every other register, queue and output is unchanged.

Rules: R199, R200. -/
def Obligations.FrameEmission : Prop :=
  ∀ s : State,
    (s.ready .eHdr → step s = .next { s.afterTurn with
      boq := s.boq ++ serializeHeader s.params s.width s.height, bytecount := s.bytecount + 14, phase := .ePix }) ∧
    (s.ready .eEnd → step s = .next { s.afterTurn with
      boq := s.boq ++ [0, 0, 0, 0, 0, 0, 0, 1], bytecount := s.bytecount + 8, phase := .done })

/-- An accepted command starts its job: every job register and queue is initialized in one step.

At the engine's turn, with rst low, not BUSY, cmd_valid high and cmd not NOP, the step makes PREV (0,0,0,255), RUN 0,
every cache entry (0,0,0,0), PIXCOUNT and BYTECOUNT 0, the input queues empty and open, keeps the outputs, and: for
DECODE and PEEK, header registers, NPIX and ERR 0 and the phase D_HDR or P_HDR; for ENCODE, the sampled dimensions,
channels 4, colorspace 0, NPIX their exact product, and E_HDR, or, when a dimension is 0, ERROR with
InvalidDimensions.

Rules: R222, R223. -/
def Obligations.JobStartInitializesEverything : Prop :=
  ∀ s : State, s.engineMoves = true → s.pins.rst = false → s.busy = false → s.pins.cmdValid = true → s.pins.cmd ≠ 0 →
    ∃ t, step s = .next t ∧ t.FreshJob ∧ t.biq = [] ∧ t.biClosed = false ∧ t.piq = [] ∧ t.poq = s.poq ∧ t.boq = s.boq ∧
      t.params = s.params ∧ t.pins = s.pins ∧ t.host = s.host.tail ∧
      (s.pins.cmd = 1 ∨ s.pins.cmd = 3 → t.width = 0 ∧ t.height = 0 ∧ t.channels = 0 ∧ t.colorspace = 0 ∧ t.npix = 0 ∧
        t.err = 0 ∧ t.phase = if s.pins.cmd = 1 then .dHdr else .pHdr) ∧
      (s.pins.cmd = 2 → t.width = s.pins.cfgWidth ∧ t.height = s.pins.cfgHeight ∧ t.channels = 4 ∧ t.colorspace = 0 ∧
        t.npix.toNat = s.pins.cfgWidth.toNat * s.pins.cfgHeight.toNat ∧
        ((s.pins.cfgWidth = 0 ∨ s.pins.cfgHeight = 0) → t.err = 2 ∧ t.phase = .error) ∧
        ((s.pins.cfgWidth ≠ 0 ∧ s.pins.cfgHeight ≠ 0) → t.err = 0 ∧ t.phase = .eHdr))

/-- While a job runs, the command and configuration inputs change nothing; the parameters never change.

While BUSY and rst low, a step with any other cmd_valid, cmd, cfg_width and cfg_height gives the same next state but
for those inputs themselves: a command is not taken and not queued, and the configuration is not sampled again. And no
step of any kind changes the parameters.

Rests on: 44_job_control.md section 1. -/
def Obligations.BusyEngineIgnoresCommandsAndConfiguration : Prop :=
  (∀ (s t : State) (valid : Bool) (cmd : BitVec 2) (w h : Word32), s.engineMoves = true → s.busy = true →
    s.pins.rst = false → step s = .next t →
    step { s with pins := ⟨false, valid, cmd, w, h⟩ } = .next { t with pins := ⟨false, valid, cmd, w, h⟩ }) ∧
  (∀ s t : State, step s = .next t → t.params = s.params)

/-- In IDLE, DONE and ERROR the engine does nothing until a command is accepted or reset.

At the engine's turn with rst low and PHASE in IDLE, DONE or ERROR, when no command is offered, or the one offered is
NOP, the step changes nothing (but for the host list). So completion, errors and outputs stay as they are, and there
is no return from an error.

Rests on: 10_state.md section 1; 60_exceptions.md section 3. -/
def Obligations.NothingRunsOutsideAJob : Prop :=
  ∀ s : State, s.engineMoves = true → s.pins.rst = false → (s.phase = .idle ∨ s.phase = .done ∨ s.phase = .error) →
    (s.pins.cmdValid = false ∨ s.pins.cmd = 0) → step s = .next s.afterTurn

/-- Every phase change is one of the job sequences' moves, a job start, or reset.

For every step: the phase stays, or moves along the sequence of its job kind (D_HDR to D_PIX, D_PIX to D_END or DONE,
D_END to DONE, P_HDR to DONE, E_HDR to E_PIX, E_PIX to E_END, E_END to DONE, or to ERROR where the table allows), or
the engine is reset. IDLE, DONE and ERROR are left, for another phase, only by an accepted command. D_END is entered
only with CHECK_END_MARKER, and D_PIX goes to DONE only without it.

Rests on: 44_job_control.md section 1. -/
def Obligations.PhaseSequenceOfEachJob : Prop :=
  ∀ s t : State, step s = .next t → t.phase ≠ s.phase →
    (t.phase = .idle ∧ t.pins.rst = true) ∨
    (t.phase ∈ phaseMoves s.phase ∧
      (s.busy = false → s.accepts = true) ∧
      (t.phase = .dEnd → s.params.checkEndMarker = true) ∧
      (s.phase = .dPix → t.phase = .done → s.params.checkEndMarker = false))

/-- A raised error writes ERR and PHASE, keeps the bytes it read, and makes none of the step's other writes.

If a step of a running job ends in ERROR, then ERR holds a code that is not 0, some n bytes of the input queue were
consumed and counted, and PREV, RUN, CACHE, PIXCOUNT, the pixel and byte output, the header registers and the ports
are as before the step. If a step that starts outside a job ends in a new ERROR, it is the ENCODE with a zero
dimension: ERR is 2 and the job-start initializations are kept.

Rests on: 60_exceptions.md section 2. -/
def Obligations.ErrorsArePreciseAndKeepTheirState : Prop :=
  ∀ s t : State, step s = .next t → t.phase = .error →
    (s.busy = true → t.err ≠ 0 ∧ s.KeepsPixels t ∧ s.KeepsHeader t ∧ s.afterTurn.KeepsPorts t ∧
      ∃ n, n ≤ s.biq.length ∧ s.afterTurn.ReadsBytes t n) ∧
    (s.busy = false → s.phase ≠ .error → t.err = 2 ∧ t.FreshJob ∧ t.poq = s.poq ∧ t.boq = s.boq ∧ s.pins.cmd = 2)

/-- Outputs only grow: at most one pixel a step, and reset, errors and job starts take nothing back.

Whatever the step, of the engine or of the host, from any state: the pixels and bytes output so far stay, in order,
and at most one pixel and at most 14 bytes are added behind them.

Rests on: 20_memory.md section 3; 60_exceptions.md section 2. -/
def Obligations.OutputsAreNeverRetracted : Prop :=
  ∀ s t : State, step s = .next t → ∃ (ps : List Pixel) (bs : List Byte),
    t.poq = s.poq ++ ps ∧ t.boq = s.boq ++ bs ∧ ps.length ≤ 1 ∧ bs.length ≤ 14

/-- PIXCOUNT counts pixels output or consumed, BYTECOUNT bytes consumed or emitted, by exactly the step's traffic.

For every engine step of a running job with rst low: PIXCOUNT grows by the number of pixels output plus the number
taken from the pixel input, and BYTECOUNT by the number of bytes taken from the byte input plus the number output;
nothing joins an input queue and nothing leaves an output.

Rests on: 10_state.md section 2. -/
def Obligations.CountersCountTheTraffic : Prop :=
  ∀ s t : State, s.engineMoves = true → s.pins.rst = false → s.busy = true → step s = .next t →
    ∃ (po pi bi bo : Nat),
      t.poq.length = s.poq.length + po ∧ s.piq.length = t.piq.length + pi ∧
      s.biq.length = t.biq.length + bi ∧ t.boq.length = s.boq.length + bo ∧
      t.pixcount = s.pixcount + BitVec.ofNat 64 (po + pi) ∧ t.bytecount = s.bytecount + BitVec.ofNat 64 (bi + bo)

/-- status[7:0]: BUSY, DONE, ERROR in bits 0, 1, 2, ERR in bits 6:4, bits 3 and 7 zero; cmd_ready is NOT BUSY.

In every state the status byte is BUSY + 2 DONE + 4 ERROR + 16 ERR, where BUSY is 1 in the seven running phases, DONE
in DONE, ERROR in ERROR; cmd_ready is 1 exactly when BUSY is 0. That the three low bits are all 0 exactly in IDLE is
the spec's own inference (10_state.md section 3: 'all three are 0 only in `IDLE` [derived: from rule R20]').

Rests on: 10_state.md section 3. -/
def Obligations.StatusByteLayout : Prop :=
  ∀ s : State,
    s.status.toNat =
      (if s.phase = .dHdr ∨ s.phase = .dPix ∨ s.phase = .dEnd ∨ s.phase = .pHdr ∨ s.phase = .eHdr ∨ s.phase = .ePix ∨
          s.phase = .eEnd then 1 else 0) +
      (if s.phase = .done then 2 else 0) + (if s.phase = .error then 4 else 0) + 16 * s.err.toNat ∧
    (s.cmdReady = true ↔ s.status.toNat % 2 = 0) ∧
    (s.status.toNat % 8 = 0 ↔ s.phase = .idle)

/-- Raising each kind gives its code in ERR and its status byte.

Raising InvalidMagic, InvalidDimensions, InvalidChannelCount, InvalidColorspace, InvalidOpcode and
UnexpectedEndOfStream in any state gives status 0x14, 0x24, 0x34, 0x44, 0x54 and 0x64: ERROR set and the codes 1 to 6
in bits 6:4.

Rests on: 60_exceptions.md section 1; 95_test_vectors.md section 6. -/
def Obligations.ErrorCodesOfTheKinds : Prop :=
  ∀ s : State,
    (s.raise .invalidMagic).status = 0x14 ∧ (s.raise .invalidDimensions).status = 0x24 ∧
    (s.raise .invalidChannelCount).status = 0x34 ∧ (s.raise .invalidColorspace).status = 0x44 ∧
    (s.raise .invalidOpcode).status = 0x54 ∧ (s.raise .unexpectedEndOfStream).status = 0x64

/-- A host move with rst low has its effect on the input it drives, and writes no register, parameter or output.

With rst low, a step that is a host move other than driving rst high leaves every register, the parameters and the
outputs as they were. A byte offered on the open stream joins the byte-input queue at its end; an offered pixel word
joins the pixel-input queue, unpacked, at its end; bi_eos closes the byte stream; driving the command or the
configuration gives those inputs the driven values. No move changes an input other than its own. (A byte offered after
bi_eos is log 7's; of it only that it changes nothing but the queue's end is said.)

Rests on: 10_state.md section 3; 44_job_control.md section 2. -/
def Obligations.HostWritesOnlyInputs : Prop :=
  ∀ (s : State) (m : HostMove) (rest : List HostMove), s.host = m :: rest → m ≠ .engine → m ≠ .rst true →
    s.pins.rst = false → ∃ t, step s = .next t ∧ t.host = rest ∧ t.params = s.params ∧ t.phase = s.phase ∧ t.err = s.err ∧
      s.KeepsHeader t ∧ s.KeepsPixels t ∧ t.bytecount = s.bytecount ∧ t.boq = s.boq ∧
      (t.biq = s.biq ∨ ∃ b, m = .byte b ∧ t.biq = s.biq ++ [b]) ∧
      (t.piq = s.piq ∨ ∃ w, m = .pixel w ∧ t.piq = s.piq ++ [unpackPixel w]) ∧
      (t.biClosed = s.biClosed ∨ m = .eos ∧ t.biClosed = true) ∧
      (t.pins = s.pins ∨ (∃ v c, m = .cmd v c) ∨ (∃ w h, m = .cfg w h)) ∧
      (∀ b, m = .byte b → s.biClosed = false → t.biq = s.biq ++ [b]) ∧
      (∀ w, m = .pixel w → t.piq = s.piq ++ [unpackPixel w]) ∧
      (m = .eos → t.biClosed = true) ∧
      (∀ v c, m = .cmd v c → t.pins = { s.pins with cmdValid := v, cmd := c }) ∧
      (∀ w h, m = .cfg w h → t.pins = { s.pins with cfgWidth := w, cfgHeight := h })

/-- With rst high every engine turn, and the host's raising of rst, give the reset state and keep the outputs.

At the engine's turn with rst high, whatever else is going on, and at the host move that raises rst, the next state
has PHASE IDLE, ERR, the header registers, NPIX and the counters 0, the input queues empty and open, status 0x00 and
cmd_ready 1; what was output stays, and nothing is emitted. PREV, RUN and CACHE, which R40 leaves unspecified, are not
mentioned.

Rules: R270. -/
def Obligations.ResetOverridesEverything : Prop :=
  ∀ s : State, (s.engineMoves = true ∧ s.pins.rst = true) ∨ (∃ rest, s.host = .rst true :: rest) →
    ∃ t, step s = .next t ∧ t.phase = .idle ∧ t.err = 0 ∧ t.width = 0 ∧ t.height = 0 ∧ t.channels = 0 ∧ t.colorspace = 0 ∧
      t.npix = 0 ∧ t.pixcount = 0 ∧ t.bytecount = 0 ∧ t.biq = [] ∧ t.biClosed = false ∧ t.piq = [] ∧
      t.poq = s.poq ∧ t.boq = s.boq ∧ t.params = s.params ∧ t.pins.rst = true ∧ t.status = 0 ∧ t.cmdReady = true

/-- A host that drives the command and then offers the input brings the engine to the start of that job over that input.

From every state that is not BUSY, with rst low, whatever the queues and registers hold: when the host drives the
configuration, drives DECODE, gives the engine its turn, and then offers the bytes one by one, the engine is at the
start of the DECODE job with exactly those bytes, in that order, in its queue; when the host then asserts bi_eos, the
stream is closed as well; and with ENCODE, a configured size and offered pixel words, it is at the start of that
ENCODE job with exactly those pixels in its queue. These are the job starts of DecodeOfEncodeReturnsTheImage, reached
by the host's moves alone. The host list that gives the order of moves is the model's (log 1).

Rests on: 44_job_control.md section 1; 44_job_control.md section 2; 10_state.md section 3; 70_reset_and_hazards.md section 1. -/
def Obligations.HostMovesStartAJobAndFeedIt : Prop :=
  ∀ (s : State) (bytes : List Byte) (w h : Word32) (pixels : List Pixel), s.pins.rst = false → s.busy = false →
    Host.Core.run Sys2Proof.core (bytes.length + 3)
      { s with host := .cfg 0 0 :: .cmd true 1 :: .engine :: bytes.map .byte } = .next (s.decodeJob bytes) ∧
    Host.Core.run Sys2Proof.core (bytes.length + 4)
      { s with host := .cfg 0 0 :: .cmd true 1 :: .engine :: (bytes.map .byte ++ [.eos]) } =
        .next { s.decodeJob bytes with biClosed := true } ∧
    Host.Core.run Sys2Proof.core (pixels.length + 3)
      { s with host := .cfg w h :: .cmd true 2 :: .engine :: pixels.map fun px => .pixel (packPixel px) } =
        .next (s.encodeJob w h pixels)

/-- The machine never stops, and a step whose input has not come on an open stream holds.

From every state a step answers a next state, never a fault and never a refusal; and every operation's meaning answers
a next state in every state. At the engine's turn with rst low, a header step with fewer than 14 bytes, a pixel step
with RUN = 0 and no whole operation, an end-marker check with fewer than 8 bytes, each with the stream open, and an
encode pixel step with no pixel, change nothing (but for the host list, whose turn entry is used up).

Rests on: 00_scope.md section 5. -/
def Obligations.EveryStepHasANextState : Prop :=
  (∀ s : State, ∃ t, step s = .next t) ∧ (∀ (i : Instr) (s : State), ∃ t, exec i s = .next t) ∧
  (∀ s : State,
    ((s.ready .dHdr ∨ s.ready .pHdr) ∧ s.biq.length < 14 ∧ s.biClosed = false) ∨
    (s.ready .dPix ∧ s.run = 0 ∧ (∃ r, decode s.biq = .error r) ∧ s.biClosed = false) ∨
    (s.ready .dEnd ∧ s.biq.length < 8 ∧ s.biClosed = false) ∨
    (s.ready .ePix ∧ s.piq = []) → step s = .next s.afterTurn)

/-- The reset state has the values the spec gives for reset, and the machine's invariant holds in it, for all parameters.

For every choice of the parameters the reset state is in IDLE with ERR, the header registers, NPIX and the counters 0,
the input queues empty and open, status 0x00 and cmd_ready 1, and it meets every clause of the invariant. The values
of PREV, RUN and CACHE at reset are the model's choice (log 2); no clause speaks of them in IDLE.

Rests on: 10_state.md section 4; 70_reset_and_hazards.md section 1. -/
def Obligations.InvariantHoldsAtReset : Prop :=
  ∀ p : Params, (State.resetOf p).phase = .idle ∧ (State.resetOf p).err = 0 ∧ (State.resetOf p).width = 0 ∧
    (State.resetOf p).height = 0 ∧ (State.resetOf p).channels = 0 ∧ (State.resetOf p).colorspace = 0 ∧
    (State.resetOf p).npix = 0 ∧ (State.resetOf p).pixcount = 0 ∧ (State.resetOf p).bytecount = 0 ∧
    (State.resetOf p).biq = [] ∧ (State.resetOf p).biClosed = false ∧ (State.resetOf p).piq = [] ∧
    (State.resetOf p).status = 0 ∧ (State.resetOf p).cmdReady = true ∧ (State.resetOf p).Inv

/-- Every step, of the engine or of the host, keeps the machine's invariant.

From every state that meets the invariant, whatever the host does next, the next state meets it: ERR is non-zero
exactly in ERROR and never 7; PIXCOUNT never exceeds NPIX and is below it in a pixel phase; NPIX is the exact product;
RUN stays at most 61 in a job and is 0 at the end-marker emission; D_END is reached only with CHECK_END_MARKER; the
header of a decode job is legal and that of an encode job has no zero dimension; a job is fresh before its first
pixel; the decoder's previous pixel is in the cache at its hash slot; and while rst is high the engine is in IDLE with
empty, open input queues (R270; for input offered meanwhile, log 13). The spec marks four of these as its own
inference: 'ERR is non-zero exactly when PHASE = ERROR' (R32), PIXCOUNT against NPIX (R30), no run left at the end
marker (R198) and the previous pixel in the cache (R158); the docstrings of Inv name the rule of every other clause.

Rests on: 10_state.md section 2; 42_decoder.md section 1; 42_decoder.md section 2; 43_encoder.md section 5; 44_job_control.md section 1; 70_reset_and_hazards.md section 1. -/
def Obligations.InvariantIsKeptByEveryStep : Prop :=
  ∀ s t : State, s.Inv → step s = .next t → t.Inv

/-- Offering a byte or a pixel before or after an engine step of a running job gives the same state.

For a running job with rst low and the byte stream open, if the engine's step does something, then offering one more
byte, or one more pixel, before the step gives the same state as offering it after. So no result depends on when the
host supplies input. The spec marks this as its own inference (44_job_control.md: 'no output depends on when the host
supplies input').

Rests on: 44_job_control.md section 1; 70_reset_and_hazards.md section 2. -/
def Obligations.InputTimingDoesNotMatter : Prop :=
  ∀ (s t : State) (b : Byte) (px : Pixel), s.pins.rst = false → s.busy = true → s.biClosed = false →
    engineStep s = .next t → t ≠ s →
    engineStep { s with biq := s.biq ++ [b] } = .next { t with biq := t.biq ++ [b] } ∧
    engineStep { s with piq := s.piq ++ [px] } = .next { t with piq := t.piq ++ [px] }

/-- Nothing of earlier jobs reaches a later one: from two engines with any past, the same command and inputs give the same run.

Take two states with the same parameters, control inputs and coming host moves, in both of which the engine is about
to accept the command offered, and which otherwise hold anything at all. Then after any number of steps from the
acceptance on, through all that the host does in them, a reset included, the two states are equal but for the outputs
delivered before the acceptance. In IDLE, which a run reaches only by a reset, PREV, RUN and CACHE are left out: R40
leaves them unspecified there, and their values in the model are log 2's.

Rests on: 44_job_control.md section 1; 20_memory.md section 4; 10_state.md section 4. -/
def Obligations.JobsAreIsolated : Prop :=
  ∀ (s1 s2 : State), s1.params = s2.params → s1.pins = s2.pins → s1.host = s2.host → s1.engineMoves = true →
    s1.pins.rst = false → s1.accepts = true → s2.accepts = true →
    ∀ (n : Nat) (t1 : State), Host.Core.run Sys2Proof.core (n + 1) s1 = .next t1 →
      ∃ (t2 : State) (ps : List Pixel) (bs : List Byte), Host.Core.run Sys2Proof.core (n + 1) s2 = .next t2 ∧
        t1.poq = s1.poq ++ ps ∧ t2.poq = s2.poq ++ ps ∧ t1.boq = s1.boq ++ bs ∧ t2.boq = s2.boq ++ bs ∧
        { t1 with poq := [], boq := [], prev := t2.prev, run := t2.run, cache := t2.cache } =
          { t2 with poq := [], boq := [] } ∧
        (t1.phase ≠ .idle → t1.prev = t2.prev ∧ t1.run = t2.run ∧ t1.cache = t2.cache)

/-- Round trip: encoding any image and decoding the bytes returns its pixels.

For every image (any width and height that are not 0, any pixels), every engine state before each job, and all
parameters with equal MAGIC: the ENCODE job started by its command ends DONE after 2 + w*h steps, without error,
having output the serialized header, a body and the end marker, with BYTECOUNT the length of the output; and the
DECODE job over exactly those bytes ends DONE after 1 + w*h steps (one more with CHECK_END_MARKER) having output
exactly the image's pixels. The spec marks this as its own inference (41_color_cache.md section 4: 'decode(encode(G))
== G').

Rests on: 41_color_cache.md section 4; 43_encoder.md section 5. -/
def Obligations.DecodeOfEncodeReturnsTheImage : Prop :=
  ∀ (se sd : State) (w h : Word32) (pixels : List Pixel), w ≠ 0 → h ≠ 0 → pixels.length = w.toNat * h.toNat →
    se.params.magic = sd.params.magic →
    ∃ (body bytes : List Byte) (e d : State),
      bytes = serializeHeader se.params w h ++ body ++ [0, 0, 0, 0, 0, 0, 0, 1] ∧
      Host.Core.run Sys2Proof.core (1 + w.toNat * h.toNat + 1) (se.encodeJob w h pixels) = .next e ∧
      e.phase = .done ∧ e.err = 0 ∧ e.boq = se.boq ++ bytes ∧ e.bytecount = BitVec.ofNat 64 bytes.length ∧
      Host.Core.run Sys2Proof.core (1 + w.toNat * h.toNat + (if sd.params.checkEndMarker = true then 1 else 0))
        (sd.decodeJob bytes) = .next d ∧
      d.phase = .done ∧ d.err = 0 ∧ d.poq = sd.poq ++ pixels

/-- Lock-step: after every pixel the two caches agree, but for the slot-53 exception.

For every image as in the round trip, with e the finished encode job and its bytes: for every k below w*h, the
encoder's state after its header step and k + 1 pixel steps and the decoder's state after its header step and k + 1
pixel steps, over the encoder's whole output, have caches equal at every slot but 53, and at slot 53 either equal or
(0,0,0,0) against (0,0,0,255). The spec marks this as its own inference (41_color_cache.md section 4).

Rests on: 41_color_cache.md section 4. -/
def Obligations.EncoderAndDecoderCachesStayInStep : Prop :=
  ∀ (se sd : State) (w h : Word32) (pixels : List Pixel), w ≠ 0 → h ≠ 0 → pixels.length = w.toNat * h.toNat →
    se.params.magic = sd.params.magic →
    ∀ (e : State), Host.Core.run Sys2Proof.core (1 + w.toNat * h.toNat + 1) (se.encodeJob w h pixels) = .next e →
    ∀ k : Nat, k < w.toNat * h.toNat → ∃ ek dk : State,
      Host.Core.run Sys2Proof.core (1 + (k + 1)) (se.encodeJob w h pixels) = .next ek ∧
      Host.Core.run Sys2Proof.core (1 + (k + 1)) (sd.decodeJob (e.boq.drop se.boq.length)) = .next dk ∧
      CachesInStep ek dk

/-- REPEAT n assembles to the encodings of well-formed runs whose lengths add up to n, all but the last of length 62.

For every n of at least 1: the operations of REPEAT n are all well-formed OP_RUNs, their lengths add up to n, and each
but the last is OP_RUN 62; its bytes are the encodings of those operations in order, that is 0xC0 | (length - 1) for
each, as many as n/62 rounded up. The spec marks that the encoder emits this sequence as its own inference
(30_encoding.md section 4), and nothing is said of that here.

Rests on: 30_encoding.md section 4. -/
def Obligations.RepeatExpandsToRunsOfItsTotal : Prop :=
  ∀ (p : Params) (n : Nat), 1 ≤ n → ∃ (lengths : List Nat),
    repeatOps n = lengths.map .opRun ∧ lengths.sum = n ∧ (∀ l ∈ lengths, 1 ≤ l ∧ l ≤ 62) ∧
    (∀ l ∈ lengths.dropLast, l = 62) ∧
    ∃ bytes, assemble p (.repeats n) = some bytes ∧ bytes = (repeatOps n).flatMap encode ∧
      bytes = lengths.map (fun l => BitVec.ofNat 8 (192 + (l - 1))) ∧ bytes.length = (n + 61) / 62

/-- Items assemble exactly when their operands are in range: operations decode back, HEADER and END give their bytes, OP_DIFFW reduces.

For every operation: it assembles exactly when every operand is in the range of the table, and then to bytes that
decode to it. OP_DIFFW of any deltas assembles exactly as OP_DIFF of the deltas reduced to -128..127. HEADER is
refused exactly when w or h is outside 0..2^32 - 1 or ch or cs is outside 0..255, and otherwise, legal values or not,
assembles to MAGIC, the four bytes of w and of h, most significant first, ch and cs: 14 bytes. END is the 8 bytes 00
00 00 00 00 00 00 01.

Rests on: 30_encoding.md section 4. -/
def Obligations.AssemblerRefusesOperandsOutOfRange : Prop :=
  ∀ p : Params,
    (∀ i : Instr, (assemble p (.op i) = none ↔ i.wellFormed = false) ∧
      ∀ bytes, assemble p (.op i) = some bytes → decode bytes = .ok (i, [])) ∧
    (∀ dr dg db dr' dg' db' : Int, (dr - dr') % 256 = 0 → (dg - dg') % 256 = 0 → (db - db') % 256 = 0 →
      (-128 ≤ dr' ∧ dr' ≤ 127) → (-128 ≤ dg' ∧ dg' ≤ 127) → (-128 ≤ db' ∧ db' ≤ 127) →
      assemble p (.diffw dr dg db) = assemble p (.op (.opDiff dr' dg' db'))) ∧
    (∀ w h ch cs : Int, spellHeader [w, h, ch, cs] = none ↔
      ¬ ((0 ≤ w ∧ w < 2 ^ 32) ∧ (0 ≤ h ∧ h < 2 ^ 32) ∧ (0 ≤ ch ∧ ch < 256) ∧ (0 ≤ cs ∧ cs < 256))) ∧
    (∀ (w h : Word32) (ch cs : Byte),
      spellHeader [w.toNat, h.toNat, ch.toNat, cs.toNat] = some (.header w h ch cs) ∧
      assemble p (.header w h ch cs) = some
        [p.magic0, p.magic1, p.magic2, p.magic3,
         BitVec.ofNat 8 (w.toNat / 2 ^ 24), BitVec.ofNat 8 (w.toNat / 2 ^ 16), BitVec.ofNat 8 (w.toNat / 2 ^ 8),
         BitVec.ofNat 8 w.toNat,
         BitVec.ofNat 8 (h.toNat / 2 ^ 24), BitVec.ofNat 8 (h.toNat / 2 ^ 16), BitVec.ofNat 8 (h.toNat / 2 ^ 8),
         BitVec.ofNat 8 h.toNat, ch, cs]) ∧
    spellEnd [] = some .endMarker ∧ assemble p .endMarker = some [0, 0, 0, 0, 0, 0, 0, 1]
end

