-- ==== Sys2Proof/Laws/Assembler.lean ====
section
/-! SUPPORT. What reading an operand of the assembler text and a HEADER item can answer. -/

namespace Sys2Proof.Machine

/-- An unsigned operand is refused exactly outside its range. -/
theorem unsignedOperand_eq_none {n : Nat} (v : Int) : unsignedOperand n v = none ↔ ¬ (0 ≤ v ∧ v < 2 ^ n) := by
  unfold unsignedOperand; split <;> simp_all

/-- The number of a bit vector is read back as that bit vector. -/
theorem unsignedOperand_toNat {n : Nat} (v : BitVec n) : unsignedOperand n (v.toNat : Int) = some v := by
  unfold unsignedOperand
  have := v.isLt
  rw [if_pos ⟨by omega, by exact_mod_cast this⟩]
  simp

/-- A HEADER item is spelled from the operands its four numbers read as. -/
theorem spellHeader_of_operands {a b c d : Int} {w h : Word32} {ch cs : Byte} (hw : unsignedOperand 32 a = some w)
    (hh : unsignedOperand 32 b = some h) (hch : unsignedOperand 8 c = some ch) (hcs : unsignedOperand 8 d = some cs) :
    spellHeader [a, b, c, d] = some (.header w h ch cs) := by
  unfold spellHeader; dsimp only; rw [hw, hh, hch, hcs]

/-- A HEADER item is refused exactly when one of its operands is. -/
theorem spellHeader_eq_none (a b c d : Int) : spellHeader [a, b, c, d] = none ↔
    unsignedOperand 32 a = none ∨ unsignedOperand 32 b = none ∨ unsignedOperand 8 c = none ∨ unsignedOperand 8 d = none := by
  unfold spellHeader; dsimp only
  generalize unsignedOperand 32 a = w
  generalize unsignedOperand 32 b = h
  generalize unsignedOperand 8 c = ch
  generalize unsignedOperand 8 d = cs
  cases w <;> cases h <;> cases ch <;> cases cs <;> simp

end Sys2Proof.Machine
end

