-- ==== Sys2Proof/Laws/Decode.lean ====
section
/-! SUPPORT. What the decoder's parts say as numbers, and what it leaves of its input. -/

namespace Sys2Proof

/-- A field of a byte as arithmetic on its number (R7). -/
theorem bits_eq (b : Byte) (hi lo : Nat) : bits b hi lo = b.toNat / 2 ^ lo % 2 ^ (hi - lo + 1) := by
  simp [bits, BitVec.extractLsb, BitVec.extractLsb'_toNat, Nat.shiftRight_eq_div_pow]

theorem bits_7_6 (b : Byte) : bits b 7 6 = b.toNat / 64 := by
  have := b.isLt; rw [bits_eq]; norm_num; omega
theorem bits_5_0 (b : Byte) : bits b 5 0 = b.toNat % 64 := by rw [bits_eq]; norm_num
theorem bits_5_4 (b : Byte) : bits b 5 4 = b.toNat / 16 % 4 := by rw [bits_eq]; norm_num
theorem bits_3_2 (b : Byte) : bits b 3 2 = b.toNat / 4 % 4 := by rw [bits_eq]; norm_num
theorem bits_1_0 (b : Byte) : bits b 1 0 = b.toNat % 4 := by rw [bits_eq]; norm_num
theorem bits_7_4 (b : Byte) : bits b 7 4 = b.toNat / 16 := by
  have := b.isLt; rw [bits_eq]; norm_num; omega
theorem bits_3_0 (b : Byte) : bits b 3 0 = b.toNat % 16 := by rw [bits_eq]; norm_num

theorem inRange_iff (x lo hi : Int) : inRange x lo hi = true ↔ lo ≤ x ∧ x ≤ hi := by simp [inRange]

/-- Classification by the number of the first byte (R91). -/
theorem classify_eq (b : Byte) : classify b =
    if b.toNat = 254 then .rgb else if b.toNat = 255 then .rgba else if b.toNat < 64 then .index
    else if b.toNat < 128 then .diff else if b.toNat < 192 then .luma else .run := by
  have hb := b.isLt
  have e1 : (b = 0xFE) ↔ b.toNat = 254 := ⟨fun h => by rw [h]; rfl, fun h => BitVec.eq_of_toNat_eq h⟩
  have e2 : (b = 0xFF) ↔ b.toNat = 255 := ⟨fun h => by rw [h]; rfl, fun h => BitVec.eq_of_toNat_eq h⟩
  unfold classify
  rw [bits_7_6]
  simp only [e1, e2]
  repeat' split
  all_goals first | rfl | omega

/-- The unsigned reading of an encoded byte, by fields that do not overlap. -/
theorem decode_ok_facts {bs rest : List Byte} {i : Instr} (h : decode bs = .ok (i, rest)) :
    i.wellFormed = true ∧ rest = bs.drop i.byteLength ∧ i.byteLength ≤ bs.length ∧
      (∃ b1 tl, bs = b1 :: tl ∧ classify b1 = i.opClass) := by
  cases bs with
  | nil => simp [decode] at h
  | cons b1 tl =>
    have hb := b1.isLt
    cases hc : classify b1 <;> simp only [decode, hc] at h
    case rgb =>
      rcases tl with _ | ⟨r, _ | ⟨g, _ | ⟨b, tl⟩⟩⟩ <;> simp only [Except.ok.injEq, Prod.mk.injEq, reduceCtorEq] at h
      obtain ⟨rfl, rfl⟩ := h
      exact ⟨rfl, rfl, by simp [Instr.byteLength, Instr.opClass, OpClass.length], _, _, rfl, hc⟩
    case rgba =>
      rcases tl with _ | ⟨r, _ | ⟨g, _ | ⟨b, _ | ⟨a, tl⟩⟩⟩⟩ <;>
        simp only [Except.ok.injEq, Prod.mk.injEq, reduceCtorEq] at h
      obtain ⟨rfl, rfl⟩ := h
      exact ⟨rfl, rfl, by simp [Instr.byteLength, Instr.opClass, OpClass.length], _, _, rfl, hc⟩
    case index =>
      simp only [Except.ok.injEq, Prod.mk.injEq] at h
      obtain ⟨rfl, rfl⟩ := h
      exact ⟨rfl, rfl, by simp [Instr.byteLength, Instr.opClass, OpClass.length], _, _, rfl, hc⟩
    case diff =>
      simp only [Except.ok.injEq, Prod.mk.injEq, decodeDiff] at h
      obtain ⟨rfl, rfl⟩ := h
      refine ⟨?_, rfl, by simp [Instr.byteLength, Instr.opClass, OpClass.length], _, _, rfl, hc⟩
      rw [bits_5_4, bits_3_2, bits_1_0]
      simp only [Instr.wellFormed, Bool.and_eq_true, inRange_iff]
      omega
    case luma =>
      rcases tl with _ | ⟨b2, tl⟩ <;> simp only [Except.ok.injEq, Prod.mk.injEq, reduceCtorEq, decodeLuma] at h
      obtain ⟨rfl, rfl⟩ := h
      have hb2 := b2.isLt
      refine ⟨?_, rfl, by simp [Instr.byteLength, Instr.opClass, OpClass.length], _, _, rfl, hc⟩
      rw [bits_5_0, bits_7_4, bits_3_0]
      simp only [Instr.wellFormed, Bool.and_eq_true, inRange_iff]
      omega
    case run =>
      simp only [Except.ok.injEq, Prod.mk.injEq, decodeRun] at h
      obtain ⟨rfl, rfl⟩ := h
      refine ⟨?_, rfl, by simp [Instr.byteLength, Instr.opClass, OpClass.length], _, _, rfl, hc⟩
      rw [classify_eq] at hc
      rw [bits_5_0]
      simp only [Instr.wellFormed, Bool.and_eq_true, decide_eq_true_eq]
      repeat (split at hc; · simp at hc)
      omega

/-- The decoder refuses only what is too short (R92): nothing at all, or fewer bytes than the first one asks for. -/
theorem decode_error_facts {bs : List Byte} {r : DecodeReject} (h : decode bs = .error r) :
    (bs = [] ∧ r = .noByte) ∨
    ∃ b1 tl, bs = b1 :: tl ∧ r = .truncated (classify b1) ∧ bs.length < (classify b1).length := by
  cases bs with
  | nil => left; simp [decode] at h; exact ⟨rfl, h.symm⟩
  | cons b1 tl =>
    right
    refine ⟨b1, tl, rfl, ?_⟩
    cases hc : classify b1 <;> simp only [decode, hc, reduceCtorEq] at h
    case rgb => rcases tl with _ | ⟨r, _ | ⟨g, _ | ⟨b, tl⟩⟩⟩ <;> simp_all [OpClass.length]
    case rgba => rcases tl with _ | ⟨r, _ | ⟨g, _ | ⟨b, _ | ⟨a, tl⟩⟩⟩⟩ <;> simp_all [OpClass.length]
    case luma => rcases tl with _ | ⟨b2, tl⟩ <;> simp_all [OpClass.length]

/-- An operation is one to five bytes (R84). -/
theorem byteLength_bounds (i : Instr) : 1 ≤ i.byteLength ∧ i.byteLength ≤ 5 := by
  cases i <;> simp [Instr.byteLength, Instr.opClass, OpClass.length]

end Sys2Proof
end

