-- ==== Sys2Proof/Laws/Encode.lean ====
section
/-! SUPPORT. The bytes the encoder makes, as numbers (30_encoding.md R86 to R89). -/

namespace Sys2Proof

theorem ofInt_eq_ofNat (x : Int) (h : 0 ≤ x) : BitVec.ofInt 8 x = BitVec.ofNat 8 x.toNat := by
  obtain ⟨n, rfl⟩ := Int.eq_ofNat_of_zero_le h
  simp

theorem indexByte_toNat (slot : Slot) : (0x00#8 ||| slot.setWidth 8).toNat = slot.toNat := by
  have := slot.isLt
  simp only [BitVec.zero_or, BitVec.toNat_setWidth]; omega

theorem diffByte_table : ∀ r g b : Fin 4, (0x40#8 ||| (BitVec.ofNat 8 r.val <<< 4) ||| (BitVec.ofNat 8 g.val <<< 2) |||
    BitVec.ofNat 8 b.val).toNat = 64 + 16 * r.val + 4 * g.val + b.val := by decide

/-- OP_DIFF's byte (R87). -/
theorem diffByte_toNat {dr dg db : Int} (hr : -2 ≤ dr ∧ dr ≤ 1) (hg : -2 ≤ dg ∧ dg ≤ 1) (hb : -2 ≤ db ∧ db ≤ 1) :
    ((0x40#8 ||| (BitVec.ofInt 8 (dr + 2) <<< 4) ||| (BitVec.ofInt 8 (dg + 2) <<< 2) |||
      BitVec.ofInt 8 (db + 2)).toNat : Int) = 64 + 16 * (dr + 2) + 4 * (dg + 2) + (db + 2) := by
  have h := diffByte_table ⟨(dr + 2).toNat, by omega⟩ ⟨(dg + 2).toNat, by omega⟩ ⟨(db + 2).toNat, by omega⟩
  rw [ofInt_eq_ofNat _ (by omega), ofInt_eq_ofNat _ (by omega), ofInt_eq_ofNat _ (by omega), h]
  push_cast
  omega

theorem lumaByte1_table : ∀ g : Fin 64, (0x80#8 ||| BitVec.ofNat 8 g.val).toNat = 128 + g.val := by decide

theorem lumaByte2_table : ∀ r b : Fin 16, ((BitVec.ofNat 8 r.val <<< 4 : Byte) ||| BitVec.ofNat 8 b.val).toNat =
    16 * r.val + b.val := by decide

/-- OP_LUMA's first byte (R88). -/
theorem lumaByte1_toNat {dg : Int} (hg : -32 ≤ dg ∧ dg ≤ 31) :
    ((0x80#8 ||| BitVec.ofInt 8 (dg + 32)).toNat : Int) = 128 + (dg + 32) := by
  have h := lumaByte1_table ⟨(dg + 32).toNat, by omega⟩
  rw [ofInt_eq_ofNat _ (by omega), h]
  push_cast
  omega

/-- OP_LUMA's second byte (R88). -/
theorem lumaByte2_toNat {r b : Int} (hr : -8 ≤ r ∧ r ≤ 7) (hb : -8 ≤ b ∧ b ≤ 7) :
    (((BitVec.ofInt 8 (r + 8) <<< 4 : Byte) ||| BitVec.ofInt 8 (b + 8)).toNat : Int) = 16 * (r + 8) + (b + 8) := by
  have h := lumaByte2_table ⟨(r + 8).toNat, by omega⟩ ⟨(b + 8).toNat, by omega⟩
  rw [ofInt_eq_ofNat _ (by omega), ofInt_eq_ofNat _ (by omega), h]
  push_cast
  omega

theorem runByte_table : ∀ n : Fin 62, (0xC0#8 ||| BitVec.ofNat 8 n.val).toNat = 192 + n.val := by decide

/-- OP_RUN's byte (R89). -/
theorem runByte_toNat {length : Nat} (h : 1 ≤ length ∧ length ≤ 62) :
    (0xC0#8 ||| BitVec.ofNat 8 (length - 1)).toNat = 192 + (length - 1) :=
  runByte_table ⟨length - 1, by omega⟩

end Sys2Proof
end

