-- ==== Sys2Proof/Laws/State.lean ====
section
/-! SUPPORT. One lemma per field per state update, true by rfl. The reset leaves `prev`, `run` and `cache` out: their values
after it are the model's choice (log 2), so no simp lemma offers them. -/

namespace Sys2Proof.Machine.State

@[simp] theorem setPhase_params (s : State) (p : Phase) : (s.setPhase p).params = s.params := rfl
@[simp] theorem setPhase_pins (s : State) (p : Phase) : (s.setPhase p).pins = s.pins := rfl
@[simp] theorem setPhase_host (s : State) (p : Phase) : (s.setPhase p).host = s.host := rfl
@[simp] theorem setPhase_phase (s : State) (p : Phase) : (s.setPhase p).phase = p := rfl
@[simp] theorem setPhase_prev (s : State) (p : Phase) : (s.setPhase p).prev = s.prev := rfl
@[simp] theorem setPhase_run (s : State) (p : Phase) : (s.setPhase p).run = s.run := rfl
@[simp] theorem setPhase_cache (s : State) (p : Phase) : (s.setPhase p).cache = s.cache := rfl
@[simp] theorem setPhase_width (s : State) (p : Phase) : (s.setPhase p).width = s.width := rfl
@[simp] theorem setPhase_height (s : State) (p : Phase) : (s.setPhase p).height = s.height := rfl
@[simp] theorem setPhase_channels (s : State) (p : Phase) : (s.setPhase p).channels = s.channels := rfl
@[simp] theorem setPhase_colorspace (s : State) (p : Phase) : (s.setPhase p).colorspace = s.colorspace := rfl
@[simp] theorem setPhase_npix (s : State) (p : Phase) : (s.setPhase p).npix = s.npix := rfl
@[simp] theorem setPhase_pixcount (s : State) (p : Phase) : (s.setPhase p).pixcount = s.pixcount := rfl
@[simp] theorem setPhase_bytecount (s : State) (p : Phase) : (s.setPhase p).bytecount = s.bytecount := rfl
@[simp] theorem setPhase_err (s : State) (p : Phase) : (s.setPhase p).err = s.err := rfl
@[simp] theorem setPhase_biq (s : State) (p : Phase) : (s.setPhase p).biq = s.biq := rfl
@[simp] theorem setPhase_biClosed (s : State) (p : Phase) : (s.setPhase p).biClosed = s.biClosed := rfl
@[simp] theorem setPhase_piq (s : State) (p : Phase) : (s.setPhase p).piq = s.piq := rfl
@[simp] theorem setPhase_poq (s : State) (p : Phase) : (s.setPhase p).poq = s.poq := rfl
@[simp] theorem setPhase_boq (s : State) (p : Phase) : (s.setPhase p).boq = s.boq := rfl

@[simp] theorem setPrev_params (s : State) (px : Pixel) : (s.setPrev px).params = s.params := rfl
@[simp] theorem setPrev_pins (s : State) (px : Pixel) : (s.setPrev px).pins = s.pins := rfl
@[simp] theorem setPrev_host (s : State) (px : Pixel) : (s.setPrev px).host = s.host := rfl
@[simp] theorem setPrev_phase (s : State) (px : Pixel) : (s.setPrev px).phase = s.phase := rfl
@[simp] theorem setPrev_prev (s : State) (px : Pixel) : (s.setPrev px).prev = px := rfl
@[simp] theorem setPrev_run (s : State) (px : Pixel) : (s.setPrev px).run = s.run := rfl
@[simp] theorem setPrev_cache (s : State) (px : Pixel) : (s.setPrev px).cache = s.cache := rfl
@[simp] theorem setPrev_width (s : State) (px : Pixel) : (s.setPrev px).width = s.width := rfl
@[simp] theorem setPrev_height (s : State) (px : Pixel) : (s.setPrev px).height = s.height := rfl
@[simp] theorem setPrev_channels (s : State) (px : Pixel) : (s.setPrev px).channels = s.channels := rfl
@[simp] theorem setPrev_colorspace (s : State) (px : Pixel) : (s.setPrev px).colorspace = s.colorspace := rfl
@[simp] theorem setPrev_npix (s : State) (px : Pixel) : (s.setPrev px).npix = s.npix := rfl
@[simp] theorem setPrev_pixcount (s : State) (px : Pixel) : (s.setPrev px).pixcount = s.pixcount := rfl
@[simp] theorem setPrev_bytecount (s : State) (px : Pixel) : (s.setPrev px).bytecount = s.bytecount := rfl
@[simp] theorem setPrev_err (s : State) (px : Pixel) : (s.setPrev px).err = s.err := rfl
@[simp] theorem setPrev_biq (s : State) (px : Pixel) : (s.setPrev px).biq = s.biq := rfl
@[simp] theorem setPrev_biClosed (s : State) (px : Pixel) : (s.setPrev px).biClosed = s.biClosed := rfl
@[simp] theorem setPrev_piq (s : State) (px : Pixel) : (s.setPrev px).piq = s.piq := rfl
@[simp] theorem setPrev_poq (s : State) (px : Pixel) : (s.setPrev px).poq = s.poq := rfl
@[simp] theorem setPrev_boq (s : State) (px : Pixel) : (s.setPrev px).boq = s.boq := rfl

@[simp] theorem setRun_params (s : State) (n : BitVec 6) : (s.setRun n).params = s.params := rfl
@[simp] theorem setRun_pins (s : State) (n : BitVec 6) : (s.setRun n).pins = s.pins := rfl
@[simp] theorem setRun_host (s : State) (n : BitVec 6) : (s.setRun n).host = s.host := rfl
@[simp] theorem setRun_phase (s : State) (n : BitVec 6) : (s.setRun n).phase = s.phase := rfl
@[simp] theorem setRun_prev (s : State) (n : BitVec 6) : (s.setRun n).prev = s.prev := rfl
@[simp] theorem setRun_run (s : State) (n : BitVec 6) : (s.setRun n).run = n := rfl
@[simp] theorem setRun_cache (s : State) (n : BitVec 6) : (s.setRun n).cache = s.cache := rfl
@[simp] theorem setRun_width (s : State) (n : BitVec 6) : (s.setRun n).width = s.width := rfl
@[simp] theorem setRun_height (s : State) (n : BitVec 6) : (s.setRun n).height = s.height := rfl
@[simp] theorem setRun_channels (s : State) (n : BitVec 6) : (s.setRun n).channels = s.channels := rfl
@[simp] theorem setRun_colorspace (s : State) (n : BitVec 6) : (s.setRun n).colorspace = s.colorspace := rfl
@[simp] theorem setRun_npix (s : State) (n : BitVec 6) : (s.setRun n).npix = s.npix := rfl
@[simp] theorem setRun_pixcount (s : State) (n : BitVec 6) : (s.setRun n).pixcount = s.pixcount := rfl
@[simp] theorem setRun_bytecount (s : State) (n : BitVec 6) : (s.setRun n).bytecount = s.bytecount := rfl
@[simp] theorem setRun_err (s : State) (n : BitVec 6) : (s.setRun n).err = s.err := rfl
@[simp] theorem setRun_biq (s : State) (n : BitVec 6) : (s.setRun n).biq = s.biq := rfl
@[simp] theorem setRun_biClosed (s : State) (n : BitVec 6) : (s.setRun n).biClosed = s.biClosed := rfl
@[simp] theorem setRun_piq (s : State) (n : BitVec 6) : (s.setRun n).piq = s.piq := rfl
@[simp] theorem setRun_poq (s : State) (n : BitVec 6) : (s.setRun n).poq = s.poq := rfl
@[simp] theorem setRun_boq (s : State) (n : BitVec 6) : (s.setRun n).boq = s.boq := rfl

@[simp] theorem cacheWrite_params (s : State) (i : Slot) (px : Pixel) : (s.cacheWrite i px).params = s.params := rfl
@[simp] theorem cacheWrite_pins (s : State) (i : Slot) (px : Pixel) : (s.cacheWrite i px).pins = s.pins := rfl
@[simp] theorem cacheWrite_host (s : State) (i : Slot) (px : Pixel) : (s.cacheWrite i px).host = s.host := rfl
@[simp] theorem cacheWrite_phase (s : State) (i : Slot) (px : Pixel) : (s.cacheWrite i px).phase = s.phase := rfl
@[simp] theorem cacheWrite_prev (s : State) (i : Slot) (px : Pixel) : (s.cacheWrite i px).prev = s.prev := rfl
@[simp] theorem cacheWrite_run (s : State) (i : Slot) (px : Pixel) : (s.cacheWrite i px).run = s.run := rfl
@[simp] theorem cacheWrite_cache (s : State) (i : Slot) (px : Pixel) : (s.cacheWrite i px).cache = s.cache.set i.toNat px i.isLt := rfl
@[simp] theorem cacheWrite_width (s : State) (i : Slot) (px : Pixel) : (s.cacheWrite i px).width = s.width := rfl
@[simp] theorem cacheWrite_height (s : State) (i : Slot) (px : Pixel) : (s.cacheWrite i px).height = s.height := rfl
@[simp] theorem cacheWrite_channels (s : State) (i : Slot) (px : Pixel) : (s.cacheWrite i px).channels = s.channels := rfl
@[simp] theorem cacheWrite_colorspace (s : State) (i : Slot) (px : Pixel) : (s.cacheWrite i px).colorspace = s.colorspace := rfl
@[simp] theorem cacheWrite_npix (s : State) (i : Slot) (px : Pixel) : (s.cacheWrite i px).npix = s.npix := rfl
@[simp] theorem cacheWrite_pixcount (s : State) (i : Slot) (px : Pixel) : (s.cacheWrite i px).pixcount = s.pixcount := rfl
@[simp] theorem cacheWrite_bytecount (s : State) (i : Slot) (px : Pixel) : (s.cacheWrite i px).bytecount = s.bytecount := rfl
@[simp] theorem cacheWrite_err (s : State) (i : Slot) (px : Pixel) : (s.cacheWrite i px).err = s.err := rfl
@[simp] theorem cacheWrite_biq (s : State) (i : Slot) (px : Pixel) : (s.cacheWrite i px).biq = s.biq := rfl
@[simp] theorem cacheWrite_biClosed (s : State) (i : Slot) (px : Pixel) : (s.cacheWrite i px).biClosed = s.biClosed := rfl
@[simp] theorem cacheWrite_piq (s : State) (i : Slot) (px : Pixel) : (s.cacheWrite i px).piq = s.piq := rfl
@[simp] theorem cacheWrite_poq (s : State) (i : Slot) (px : Pixel) : (s.cacheWrite i px).poq = s.poq := rfl
@[simp] theorem cacheWrite_boq (s : State) (i : Slot) (px : Pixel) : (s.cacheWrite i px).boq = s.boq := rfl

@[simp] theorem inRead_params (s : State) (n : Nat) : (s.inRead n).params = s.params := rfl
@[simp] theorem inRead_pins (s : State) (n : Nat) : (s.inRead n).pins = s.pins := rfl
@[simp] theorem inRead_host (s : State) (n : Nat) : (s.inRead n).host = s.host := rfl
@[simp] theorem inRead_phase (s : State) (n : Nat) : (s.inRead n).phase = s.phase := rfl
@[simp] theorem inRead_prev (s : State) (n : Nat) : (s.inRead n).prev = s.prev := rfl
@[simp] theorem inRead_run (s : State) (n : Nat) : (s.inRead n).run = s.run := rfl
@[simp] theorem inRead_cache (s : State) (n : Nat) : (s.inRead n).cache = s.cache := rfl
@[simp] theorem inRead_width (s : State) (n : Nat) : (s.inRead n).width = s.width := rfl
@[simp] theorem inRead_height (s : State) (n : Nat) : (s.inRead n).height = s.height := rfl
@[simp] theorem inRead_channels (s : State) (n : Nat) : (s.inRead n).channels = s.channels := rfl
@[simp] theorem inRead_colorspace (s : State) (n : Nat) : (s.inRead n).colorspace = s.colorspace := rfl
@[simp] theorem inRead_npix (s : State) (n : Nat) : (s.inRead n).npix = s.npix := rfl
@[simp] theorem inRead_pixcount (s : State) (n : Nat) : (s.inRead n).pixcount = s.pixcount := rfl
@[simp] theorem inRead_bytecount (s : State) (n : Nat) : (s.inRead n).bytecount = s.bytecount + BitVec.ofNat 64 n := rfl
@[simp] theorem inRead_err (s : State) (n : Nat) : (s.inRead n).err = s.err := rfl
@[simp] theorem inRead_biq (s : State) (n : Nat) : (s.inRead n).biq = s.biq.drop n := rfl
@[simp] theorem inRead_biClosed (s : State) (n : Nat) : (s.inRead n).biClosed = s.biClosed := rfl
@[simp] theorem inRead_piq (s : State) (n : Nat) : (s.inRead n).piq = s.piq := rfl
@[simp] theorem inRead_poq (s : State) (n : Nat) : (s.inRead n).poq = s.poq := rfl
@[simp] theorem inRead_boq (s : State) (n : Nat) : (s.inRead n).boq = s.boq := rfl

@[simp] theorem outWrite_params (s : State) (bs : List Byte) : (s.outWrite bs).params = s.params := rfl
@[simp] theorem outWrite_pins (s : State) (bs : List Byte) : (s.outWrite bs).pins = s.pins := rfl
@[simp] theorem outWrite_host (s : State) (bs : List Byte) : (s.outWrite bs).host = s.host := rfl
@[simp] theorem outWrite_phase (s : State) (bs : List Byte) : (s.outWrite bs).phase = s.phase := rfl
@[simp] theorem outWrite_prev (s : State) (bs : List Byte) : (s.outWrite bs).prev = s.prev := rfl
@[simp] theorem outWrite_run (s : State) (bs : List Byte) : (s.outWrite bs).run = s.run := rfl
@[simp] theorem outWrite_cache (s : State) (bs : List Byte) : (s.outWrite bs).cache = s.cache := rfl
@[simp] theorem outWrite_width (s : State) (bs : List Byte) : (s.outWrite bs).width = s.width := rfl
@[simp] theorem outWrite_height (s : State) (bs : List Byte) : (s.outWrite bs).height = s.height := rfl
@[simp] theorem outWrite_channels (s : State) (bs : List Byte) : (s.outWrite bs).channels = s.channels := rfl
@[simp] theorem outWrite_colorspace (s : State) (bs : List Byte) : (s.outWrite bs).colorspace = s.colorspace := rfl
@[simp] theorem outWrite_npix (s : State) (bs : List Byte) : (s.outWrite bs).npix = s.npix := rfl
@[simp] theorem outWrite_pixcount (s : State) (bs : List Byte) : (s.outWrite bs).pixcount = s.pixcount := rfl
@[simp] theorem outWrite_bytecount (s : State) (bs : List Byte) : (s.outWrite bs).bytecount = s.bytecount + BitVec.ofNat 64 bs.length := rfl
@[simp] theorem outWrite_err (s : State) (bs : List Byte) : (s.outWrite bs).err = s.err := rfl
@[simp] theorem outWrite_biq (s : State) (bs : List Byte) : (s.outWrite bs).biq = s.biq := rfl
@[simp] theorem outWrite_biClosed (s : State) (bs : List Byte) : (s.outWrite bs).biClosed = s.biClosed := rfl
@[simp] theorem outWrite_piq (s : State) (bs : List Byte) : (s.outWrite bs).piq = s.piq := rfl
@[simp] theorem outWrite_poq (s : State) (bs : List Byte) : (s.outWrite bs).poq = s.poq := rfl
@[simp] theorem outWrite_boq (s : State) (bs : List Byte) : (s.outWrite bs).boq = s.boq ++ bs := rfl

@[simp] theorem pixIn_params (s : State) : (s.pixIn).params = s.params := rfl
@[simp] theorem pixIn_pins (s : State) : (s.pixIn).pins = s.pins := rfl
@[simp] theorem pixIn_host (s : State) : (s.pixIn).host = s.host := rfl
@[simp] theorem pixIn_phase (s : State) : (s.pixIn).phase = s.phase := rfl
@[simp] theorem pixIn_prev (s : State) : (s.pixIn).prev = s.prev := rfl
@[simp] theorem pixIn_run (s : State) : (s.pixIn).run = s.run := rfl
@[simp] theorem pixIn_cache (s : State) : (s.pixIn).cache = s.cache := rfl
@[simp] theorem pixIn_width (s : State) : (s.pixIn).width = s.width := rfl
@[simp] theorem pixIn_height (s : State) : (s.pixIn).height = s.height := rfl
@[simp] theorem pixIn_channels (s : State) : (s.pixIn).channels = s.channels := rfl
@[simp] theorem pixIn_colorspace (s : State) : (s.pixIn).colorspace = s.colorspace := rfl
@[simp] theorem pixIn_npix (s : State) : (s.pixIn).npix = s.npix := rfl
@[simp] theorem pixIn_pixcount (s : State) : (s.pixIn).pixcount = s.pixcount := rfl
@[simp] theorem pixIn_bytecount (s : State) : (s.pixIn).bytecount = s.bytecount := rfl
@[simp] theorem pixIn_err (s : State) : (s.pixIn).err = s.err := rfl
@[simp] theorem pixIn_biq (s : State) : (s.pixIn).biq = s.biq := rfl
@[simp] theorem pixIn_biClosed (s : State) : (s.pixIn).biClosed = s.biClosed := rfl
@[simp] theorem pixIn_piq (s : State) : (s.pixIn).piq = s.piq.tail := rfl
@[simp] theorem pixIn_poq (s : State) : (s.pixIn).poq = s.poq := rfl
@[simp] theorem pixIn_boq (s : State) : (s.pixIn).boq = s.boq := rfl

@[simp] theorem pixOut_params (s : State) (px : Pixel) : (s.pixOut px).params = s.params := rfl
@[simp] theorem pixOut_pins (s : State) (px : Pixel) : (s.pixOut px).pins = s.pins := rfl
@[simp] theorem pixOut_host (s : State) (px : Pixel) : (s.pixOut px).host = s.host := rfl
@[simp] theorem pixOut_phase (s : State) (px : Pixel) : (s.pixOut px).phase = s.phase := rfl
@[simp] theorem pixOut_prev (s : State) (px : Pixel) : (s.pixOut px).prev = s.prev := rfl
@[simp] theorem pixOut_run (s : State) (px : Pixel) : (s.pixOut px).run = s.run := rfl
@[simp] theorem pixOut_cache (s : State) (px : Pixel) : (s.pixOut px).cache = s.cache := rfl
@[simp] theorem pixOut_width (s : State) (px : Pixel) : (s.pixOut px).width = s.width := rfl
@[simp] theorem pixOut_height (s : State) (px : Pixel) : (s.pixOut px).height = s.height := rfl
@[simp] theorem pixOut_channels (s : State) (px : Pixel) : (s.pixOut px).channels = s.channels := rfl
@[simp] theorem pixOut_colorspace (s : State) (px : Pixel) : (s.pixOut px).colorspace = s.colorspace := rfl
@[simp] theorem pixOut_npix (s : State) (px : Pixel) : (s.pixOut px).npix = s.npix := rfl
@[simp] theorem pixOut_pixcount (s : State) (px : Pixel) : (s.pixOut px).pixcount = s.pixcount := rfl
@[simp] theorem pixOut_bytecount (s : State) (px : Pixel) : (s.pixOut px).bytecount = s.bytecount := rfl
@[simp] theorem pixOut_err (s : State) (px : Pixel) : (s.pixOut px).err = s.err := rfl
@[simp] theorem pixOut_biq (s : State) (px : Pixel) : (s.pixOut px).biq = s.biq := rfl
@[simp] theorem pixOut_biClosed (s : State) (px : Pixel) : (s.pixOut px).biClosed = s.biClosed := rfl
@[simp] theorem pixOut_piq (s : State) (px : Pixel) : (s.pixOut px).piq = s.piq := rfl
@[simp] theorem pixOut_poq (s : State) (px : Pixel) : (s.pixOut px).poq = s.poq ++ [px] := rfl
@[simp] theorem pixOut_boq (s : State) (px : Pixel) : (s.pixOut px).boq = s.boq := rfl

@[simp] theorem countPixel_params (s : State) : (s.countPixel).params = s.params := rfl
@[simp] theorem countPixel_pins (s : State) : (s.countPixel).pins = s.pins := rfl
@[simp] theorem countPixel_host (s : State) : (s.countPixel).host = s.host := rfl
@[simp] theorem countPixel_phase (s : State) : (s.countPixel).phase = s.phase := rfl
@[simp] theorem countPixel_prev (s : State) : (s.countPixel).prev = s.prev := rfl
@[simp] theorem countPixel_run (s : State) : (s.countPixel).run = s.run := rfl
@[simp] theorem countPixel_cache (s : State) : (s.countPixel).cache = s.cache := rfl
@[simp] theorem countPixel_width (s : State) : (s.countPixel).width = s.width := rfl
@[simp] theorem countPixel_height (s : State) : (s.countPixel).height = s.height := rfl
@[simp] theorem countPixel_channels (s : State) : (s.countPixel).channels = s.channels := rfl
@[simp] theorem countPixel_colorspace (s : State) : (s.countPixel).colorspace = s.colorspace := rfl
@[simp] theorem countPixel_npix (s : State) : (s.countPixel).npix = s.npix := rfl
@[simp] theorem countPixel_pixcount (s : State) : (s.countPixel).pixcount = s.pixcount + 1 := rfl
@[simp] theorem countPixel_bytecount (s : State) : (s.countPixel).bytecount = s.bytecount := rfl
@[simp] theorem countPixel_err (s : State) : (s.countPixel).err = s.err := rfl
@[simp] theorem countPixel_biq (s : State) : (s.countPixel).biq = s.biq := rfl
@[simp] theorem countPixel_biClosed (s : State) : (s.countPixel).biClosed = s.biClosed := rfl
@[simp] theorem countPixel_piq (s : State) : (s.countPixel).piq = s.piq := rfl
@[simp] theorem countPixel_poq (s : State) : (s.countPixel).poq = s.poq := rfl
@[simp] theorem countPixel_boq (s : State) : (s.countPixel).boq = s.boq := rfl

@[simp] theorem setHeader_params (s : State) (hd : Header) : (s.setHeader hd).params = s.params := rfl
@[simp] theorem setHeader_pins (s : State) (hd : Header) : (s.setHeader hd).pins = s.pins := rfl
@[simp] theorem setHeader_host (s : State) (hd : Header) : (s.setHeader hd).host = s.host := rfl
@[simp] theorem setHeader_phase (s : State) (hd : Header) : (s.setHeader hd).phase = s.phase := rfl
@[simp] theorem setHeader_prev (s : State) (hd : Header) : (s.setHeader hd).prev = s.prev := rfl
@[simp] theorem setHeader_run (s : State) (hd : Header) : (s.setHeader hd).run = s.run := rfl
@[simp] theorem setHeader_cache (s : State) (hd : Header) : (s.setHeader hd).cache = s.cache := rfl
@[simp] theorem setHeader_width (s : State) (hd : Header) : (s.setHeader hd).width = hd.width := rfl
@[simp] theorem setHeader_height (s : State) (hd : Header) : (s.setHeader hd).height = hd.height := rfl
@[simp] theorem setHeader_channels (s : State) (hd : Header) : (s.setHeader hd).channels = hd.channels := rfl
@[simp] theorem setHeader_colorspace (s : State) (hd : Header) : (s.setHeader hd).colorspace = hd.colorspace := rfl
@[simp] theorem setHeader_npix (s : State) (hd : Header) : (s.setHeader hd).npix = pixelTotal hd.width hd.height := rfl
@[simp] theorem setHeader_pixcount (s : State) (hd : Header) : (s.setHeader hd).pixcount = s.pixcount := rfl
@[simp] theorem setHeader_bytecount (s : State) (hd : Header) : (s.setHeader hd).bytecount = s.bytecount := rfl
@[simp] theorem setHeader_err (s : State) (hd : Header) : (s.setHeader hd).err = s.err := rfl
@[simp] theorem setHeader_biq (s : State) (hd : Header) : (s.setHeader hd).biq = s.biq := rfl
@[simp] theorem setHeader_biClosed (s : State) (hd : Header) : (s.setHeader hd).biClosed = s.biClosed := rfl
@[simp] theorem setHeader_piq (s : State) (hd : Header) : (s.setHeader hd).piq = s.piq := rfl
@[simp] theorem setHeader_poq (s : State) (hd : Header) : (s.setHeader hd).poq = s.poq := rfl
@[simp] theorem setHeader_boq (s : State) (hd : Header) : (s.setHeader hd).boq = s.boq := rfl

@[simp] theorem raise_params (s : State) (e : ErrorKind) : (s.raise e).params = s.params := rfl
@[simp] theorem raise_pins (s : State) (e : ErrorKind) : (s.raise e).pins = s.pins := rfl
@[simp] theorem raise_host (s : State) (e : ErrorKind) : (s.raise e).host = s.host := rfl
@[simp] theorem raise_phase (s : State) (e : ErrorKind) : (s.raise e).phase = .error := rfl
@[simp] theorem raise_prev (s : State) (e : ErrorKind) : (s.raise e).prev = s.prev := rfl
@[simp] theorem raise_run (s : State) (e : ErrorKind) : (s.raise e).run = s.run := rfl
@[simp] theorem raise_cache (s : State) (e : ErrorKind) : (s.raise e).cache = s.cache := rfl
@[simp] theorem raise_width (s : State) (e : ErrorKind) : (s.raise e).width = s.width := rfl
@[simp] theorem raise_height (s : State) (e : ErrorKind) : (s.raise e).height = s.height := rfl
@[simp] theorem raise_channels (s : State) (e : ErrorKind) : (s.raise e).channels = s.channels := rfl
@[simp] theorem raise_colorspace (s : State) (e : ErrorKind) : (s.raise e).colorspace = s.colorspace := rfl
@[simp] theorem raise_npix (s : State) (e : ErrorKind) : (s.raise e).npix = s.npix := rfl
@[simp] theorem raise_pixcount (s : State) (e : ErrorKind) : (s.raise e).pixcount = s.pixcount := rfl
@[simp] theorem raise_bytecount (s : State) (e : ErrorKind) : (s.raise e).bytecount = s.bytecount := rfl
@[simp] theorem raise_err (s : State) (e : ErrorKind) : (s.raise e).err = e.code := rfl
@[simp] theorem raise_biq (s : State) (e : ErrorKind) : (s.raise e).biq = s.biq := rfl
@[simp] theorem raise_biClosed (s : State) (e : ErrorKind) : (s.raise e).biClosed = s.biClosed := rfl
@[simp] theorem raise_piq (s : State) (e : ErrorKind) : (s.raise e).piq = s.piq := rfl
@[simp] theorem raise_poq (s : State) (e : ErrorKind) : (s.raise e).poq = s.poq := rfl
@[simp] theorem raise_boq (s : State) (e : ErrorKind) : (s.raise e).boq = s.boq := rfl

@[simp] theorem initJob_params (s : State) : (s.initJob).params = s.params := rfl
@[simp] theorem initJob_pins (s : State) : (s.initJob).pins = s.pins := rfl
@[simp] theorem initJob_host (s : State) : (s.initJob).host = s.host := rfl
@[simp] theorem initJob_phase (s : State) : (s.initJob).phase = s.phase := rfl
@[simp] theorem initJob_prev (s : State) : (s.initJob).prev = prevInit := rfl
@[simp] theorem initJob_run (s : State) : (s.initJob).run = 0 := rfl
@[simp] theorem initJob_cache (s : State) : (s.initJob).cache = Vector.replicate 64 cacheInit := rfl
@[simp] theorem initJob_width (s : State) : (s.initJob).width = s.width := rfl
@[simp] theorem initJob_height (s : State) : (s.initJob).height = s.height := rfl
@[simp] theorem initJob_channels (s : State) : (s.initJob).channels = s.channels := rfl
@[simp] theorem initJob_colorspace (s : State) : (s.initJob).colorspace = s.colorspace := rfl
@[simp] theorem initJob_npix (s : State) : (s.initJob).npix = s.npix := rfl
@[simp] theorem initJob_pixcount (s : State) : (s.initJob).pixcount = 0 := rfl
@[simp] theorem initJob_bytecount (s : State) : (s.initJob).bytecount = 0 := rfl
@[simp] theorem initJob_err (s : State) : (s.initJob).err = 0 := rfl
@[simp] theorem initJob_biq (s : State) : (s.initJob).biq = [] := rfl
@[simp] theorem initJob_biClosed (s : State) : (s.initJob).biClosed = false := rfl
@[simp] theorem initJob_piq (s : State) : (s.initJob).piq = [] := rfl
@[simp] theorem initJob_poq (s : State) : (s.initJob).poq = s.poq := rfl
@[simp] theorem initJob_boq (s : State) : (s.initJob).boq = s.boq := rfl

@[simp] theorem resetEngine_params (s : State) : (s.resetEngine).params = s.params := rfl
@[simp] theorem resetEngine_pins (s : State) : (s.resetEngine).pins = s.pins := rfl
@[simp] theorem resetEngine_host (s : State) : (s.resetEngine).host = s.host := rfl
@[simp] theorem resetEngine_phase (s : State) : (s.resetEngine).phase = .idle := rfl
@[simp] theorem resetEngine_width (s : State) : (s.resetEngine).width = 0 := rfl
@[simp] theorem resetEngine_height (s : State) : (s.resetEngine).height = 0 := rfl
@[simp] theorem resetEngine_channels (s : State) : (s.resetEngine).channels = 0 := rfl
@[simp] theorem resetEngine_colorspace (s : State) : (s.resetEngine).colorspace = 0 := rfl
@[simp] theorem resetEngine_npix (s : State) : (s.resetEngine).npix = 0 := rfl
@[simp] theorem resetEngine_pixcount (s : State) : (s.resetEngine).pixcount = 0 := rfl
@[simp] theorem resetEngine_bytecount (s : State) : (s.resetEngine).bytecount = 0 := rfl
@[simp] theorem resetEngine_err (s : State) : (s.resetEngine).err = 0 := rfl
@[simp] theorem resetEngine_biq (s : State) : (s.resetEngine).biq = [] := rfl
@[simp] theorem resetEngine_biClosed (s : State) : (s.resetEngine).biClosed = false := rfl
@[simp] theorem resetEngine_piq (s : State) : (s.resetEngine).piq = [] := rfl
@[simp] theorem resetEngine_poq (s : State) : (s.resetEngine).poq = s.poq := rfl
@[simp] theorem resetEngine_boq (s : State) : (s.resetEngine).boq = s.boq := rfl

end Sys2Proof.Machine.State
end

