-- ==== Sys2Proof/Laws/Ops.lean ====
section
/-! SUPPORT. What each shared operation does, said once: the cache, the end of a pixel step, a starved step, the repeat and
the fresh path of the encoder, and the job start. -/

namespace Sys2Proof.Machine.State

theorem ext_fields {s t : State} (h0 : s.params = t.params) (h1 : s.pins = t.pins) (h2 : s.host = t.host)
    (h3 : s.phase = t.phase) (h4 : s.prev = t.prev) (h5 : s.run = t.run) (h6 : s.cache = t.cache)
    (h7 : s.width = t.width) (h8 : s.height = t.height) (h9 : s.channels = t.channels)
    (h10 : s.colorspace = t.colorspace) (h11 : s.npix = t.npix) (h12 : s.pixcount = t.pixcount)
    (h13 : s.bytecount = t.bytecount) (h14 : s.err = t.err) (h15 : s.biq = t.biq) (h16 : s.biClosed = t.biClosed)
    (h17 : s.piq = t.piq) (h18 : s.poq = t.poq) (h19 : s.boq = t.boq) : s = t := by
  cases s; cases t; simp_all

/-! The cache (R132, R133). -/

theorem cacheRead_eq (s : State) (i : Slot) : s.cacheRead i = s.cache[i.toNat]'(i.isLt) := rfl

theorem cacheRead_congr {s t : State} (h : s.cache = t.cache) (i : Slot) : s.cacheRead i = t.cacheRead i := by
  simp [cacheRead, h]

@[simp] theorem cacheRead_cacheWrite_same (s : State) (i : Slot) (px : Pixel) :
    (s.cacheWrite i px).cacheRead i = px := by simp [cacheRead]

theorem cacheRead_cacheWrite_other (s : State) {i j : Slot} (px : Pixel) (h : j ≠ i) :
    (s.cacheWrite i px).cacheRead j = s.cacheRead j := by
  have hn : i.toNat ≠ j.toNat := fun e => h (BitVec.eq_of_toNat_eq e.symm)
  simp [cacheRead, Vector.getElem_set_ne, hn]

theorem cacheRead_cacheWrite (s : State) (i j : Slot) (px : Pixel) :
    (s.cacheWrite i px).cacheRead j = if j = i then px else s.cacheRead j := by
  split
  · next h => rw [h, cacheRead_cacheWrite_same]
  · next h => exact cacheRead_cacheWrite_other s px h

@[simp] theorem initJob_cacheRead (s : State) (i : Slot) : s.initJob.cacheRead i = cacheInit := by
  simp [cacheRead]

@[simp] theorem setPhase_cacheRead (s : State) (p : Phase) (i : Slot) : (s.setPhase p).cacheRead i = s.cacheRead i := rfl
@[simp] theorem setPrev_cacheRead (s : State) (px : Pixel) (i : Slot) : (s.setPrev px).cacheRead i = s.cacheRead i := rfl
@[simp] theorem setRun_cacheRead (s : State) (n : BitVec 6) (i : Slot) : (s.setRun n).cacheRead i = s.cacheRead i := rfl
@[simp] theorem inRead_cacheRead (s : State) (n : Nat) (i : Slot) : (s.inRead n).cacheRead i = s.cacheRead i := rfl
@[simp] theorem outWrite_cacheRead (s : State) (bs : List Byte) (i : Slot) : (s.outWrite bs).cacheRead i = s.cacheRead i := rfl
@[simp] theorem pixIn_cacheRead (s : State) (i : Slot) : (s.pixIn).cacheRead i = s.cacheRead i := rfl
@[simp] theorem pixOut_cacheRead (s : State) (px : Pixel) (i : Slot) : (s.pixOut px).cacheRead i = s.cacheRead i := rfl
@[simp] theorem countPixel_cacheRead (s : State) (i : Slot) : (s.countPixel).cacheRead i = s.cacheRead i := rfl
@[simp] theorem raise_cacheRead (s : State) (e : ErrorKind) (i : Slot) : (s.raise e).cacheRead i = s.cacheRead i := rfl
@[simp] theorem setHeader_cacheRead (s : State) (hd : Header) (i : Slot) : (s.setHeader hd).cacheRead i = s.cacheRead i := rfl

/-! The end of a decoder pixel step (R159, R160). -/

theorem emitPixel_phase (s : State) (px : Pixel) : (s.emitPixel px).phase =
    if s.pixcount + 1 = s.npix then s.endOfPixelsPhase else s.phase := by
  unfold emitPixel
  by_cases h : s.pixcount + 1 = s.npix
  · rw [if_pos h, if_pos (show (s.pixOut px).countPixel.pixcount = (s.pixOut px).countPixel.npix from h)]; rfl
  · rw [if_neg h, if_neg (show ¬ (s.pixOut px).countPixel.pixcount = (s.pixOut px).countPixel.npix from h)]; rfl

@[simp] theorem emitPixel_params (s : State) (px : Pixel) : (s.emitPixel px).params = s.params := by
  unfold emitPixel; dsimp only; split <;> rfl
@[simp] theorem emitPixel_pins (s : State) (px : Pixel) : (s.emitPixel px).pins = s.pins := by
  unfold emitPixel; dsimp only; split <;> rfl
@[simp] theorem emitPixel_host (s : State) (px : Pixel) : (s.emitPixel px).host = s.host := by
  unfold emitPixel; dsimp only; split <;> rfl
@[simp] theorem emitPixel_prev (s : State) (px : Pixel) : (s.emitPixel px).prev = s.prev := by
  unfold emitPixel; dsimp only; split <;> rfl
@[simp] theorem emitPixel_run (s : State) (px : Pixel) : (s.emitPixel px).run = s.run := by
  unfold emitPixel; dsimp only; split <;> rfl
@[simp] theorem emitPixel_cache (s : State) (px : Pixel) : (s.emitPixel px).cache = s.cache := by
  unfold emitPixel; dsimp only; split <;> rfl
@[simp] theorem emitPixel_width (s : State) (px : Pixel) : (s.emitPixel px).width = s.width := by
  unfold emitPixel; dsimp only; split <;> rfl
@[simp] theorem emitPixel_height (s : State) (px : Pixel) : (s.emitPixel px).height = s.height := by
  unfold emitPixel; dsimp only; split <;> rfl
@[simp] theorem emitPixel_channels (s : State) (px : Pixel) : (s.emitPixel px).channels = s.channels := by
  unfold emitPixel; dsimp only; split <;> rfl
@[simp] theorem emitPixel_colorspace (s : State) (px : Pixel) : (s.emitPixel px).colorspace = s.colorspace := by
  unfold emitPixel; dsimp only; split <;> rfl
@[simp] theorem emitPixel_npix (s : State) (px : Pixel) : (s.emitPixel px).npix = s.npix := by
  unfold emitPixel; dsimp only; split <;> rfl
@[simp] theorem emitPixel_pixcount (s : State) (px : Pixel) : (s.emitPixel px).pixcount = s.pixcount + 1 := by
  unfold emitPixel; dsimp only; split <;> rfl
@[simp] theorem emitPixel_bytecount (s : State) (px : Pixel) : (s.emitPixel px).bytecount = s.bytecount := by
  unfold emitPixel; dsimp only; split <;> rfl
@[simp] theorem emitPixel_err (s : State) (px : Pixel) : (s.emitPixel px).err = s.err := by
  unfold emitPixel; dsimp only; split <;> rfl
@[simp] theorem emitPixel_biq (s : State) (px : Pixel) : (s.emitPixel px).biq = s.biq := by
  unfold emitPixel; dsimp only; split <;> rfl
@[simp] theorem emitPixel_biClosed (s : State) (px : Pixel) : (s.emitPixel px).biClosed = s.biClosed := by
  unfold emitPixel; dsimp only; split <;> rfl
@[simp] theorem emitPixel_piq (s : State) (px : Pixel) : (s.emitPixel px).piq = s.piq := by
  unfold emitPixel; dsimp only; split <;> rfl
@[simp] theorem emitPixel_poq (s : State) (px : Pixel) : (s.emitPixel px).poq = s.poq ++ [px] := by
  unfold emitPixel; dsimp only; split <;> rfl
@[simp] theorem emitPixel_boq (s : State) (px : Pixel) : (s.emitPixel px).boq = s.boq := by
  unfold emitPixel; dsimp only; split <;> rfl

@[simp] theorem emitPixel_cacheRead (s : State) (px : Pixel) (i : Slot) :
    (s.emitPixel px).cacheRead i = s.cacheRead i := cacheRead_congr (by simp) i

/-! What every operation does with its pixel (R158 to R160). -/

theorem produce_phase (s : State) (px : Pixel) : (s.produce px).phase =
    if s.pixcount + 1 = s.npix then s.endOfPixelsPhase else s.phase :=
  emitPixel_phase ((s.cacheWrite (pixelHash px) px).setPrev px) px

@[simp] theorem produce_params (s : State) (px : Pixel) : (s.produce px).params = s.params := by simp [produce]
@[simp] theorem produce_pins (s : State) (px : Pixel) : (s.produce px).pins = s.pins := by simp [produce]
@[simp] theorem produce_host (s : State) (px : Pixel) : (s.produce px).host = s.host := by simp [produce]
@[simp] theorem produce_prev (s : State) (px : Pixel) : (s.produce px).prev = px := by simp [produce]
@[simp] theorem produce_run (s : State) (px : Pixel) : (s.produce px).run = s.run := by simp [produce]
@[simp] theorem produce_cache (s : State) (px : Pixel) : (s.produce px).cache = s.cache.set (pixelHash px).toNat px (pixelHash px).isLt := by simp [produce]
@[simp] theorem produce_width (s : State) (px : Pixel) : (s.produce px).width = s.width := by simp [produce]
@[simp] theorem produce_height (s : State) (px : Pixel) : (s.produce px).height = s.height := by simp [produce]
@[simp] theorem produce_channels (s : State) (px : Pixel) : (s.produce px).channels = s.channels := by simp [produce]
@[simp] theorem produce_colorspace (s : State) (px : Pixel) : (s.produce px).colorspace = s.colorspace := by simp [produce]
@[simp] theorem produce_npix (s : State) (px : Pixel) : (s.produce px).npix = s.npix := by simp [produce]
@[simp] theorem produce_pixcount (s : State) (px : Pixel) : (s.produce px).pixcount = s.pixcount + 1 := by simp [produce]
@[simp] theorem produce_bytecount (s : State) (px : Pixel) : (s.produce px).bytecount = s.bytecount := by simp [produce]
@[simp] theorem produce_err (s : State) (px : Pixel) : (s.produce px).err = s.err := by simp [produce]
@[simp] theorem produce_biq (s : State) (px : Pixel) : (s.produce px).biq = s.biq := by simp [produce]
@[simp] theorem produce_biClosed (s : State) (px : Pixel) : (s.produce px).biClosed = s.biClosed := by simp [produce]
@[simp] theorem produce_piq (s : State) (px : Pixel) : (s.produce px).piq = s.piq := by simp [produce]
@[simp] theorem produce_poq (s : State) (px : Pixel) : (s.produce px).poq = s.poq ++ [px] := by simp [produce]
@[simp] theorem produce_boq (s : State) (px : Pixel) : (s.produce px).boq = s.boq := by simp [produce]

theorem produce_cacheRead (s : State) (px : Pixel) (i : Slot) :
    (s.produce px).cacheRead i = if i = pixelHash px then px else s.cacheRead i := by
  simp [produce, cacheRead_cacheWrite]

theorem runContinuation_phase (s : State) : s.runContinuation.phase =
    if s.pixcount + 1 = s.npix then s.endOfPixelsPhase else s.phase :=
  emitPixel_phase (s.setRun (s.run - 1)) s.prev

@[simp] theorem runContinuation_params (s : State) : s.runContinuation.params = s.params := by simp [runContinuation]
@[simp] theorem runContinuation_pins (s : State) : s.runContinuation.pins = s.pins := by simp [runContinuation]
@[simp] theorem runContinuation_host (s : State) : s.runContinuation.host = s.host := by simp [runContinuation]
@[simp] theorem runContinuation_prev (s : State) : s.runContinuation.prev = s.prev := by simp [runContinuation]
@[simp] theorem runContinuation_run (s : State) : s.runContinuation.run = s.run - 1 := by simp [runContinuation]
@[simp] theorem runContinuation_cache (s : State) : s.runContinuation.cache = s.cache := by simp [runContinuation]
@[simp] theorem runContinuation_width (s : State) : s.runContinuation.width = s.width := by simp [runContinuation]
@[simp] theorem runContinuation_height (s : State) : s.runContinuation.height = s.height := by simp [runContinuation]
@[simp] theorem runContinuation_channels (s : State) : s.runContinuation.channels = s.channels := by simp [runContinuation]
@[simp] theorem runContinuation_colorspace (s : State) : s.runContinuation.colorspace = s.colorspace := by simp [runContinuation]
@[simp] theorem runContinuation_npix (s : State) : s.runContinuation.npix = s.npix := by simp [runContinuation]
@[simp] theorem runContinuation_pixcount (s : State) : s.runContinuation.pixcount = s.pixcount + 1 := by simp [runContinuation]
@[simp] theorem runContinuation_bytecount (s : State) : s.runContinuation.bytecount = s.bytecount := by simp [runContinuation]
@[simp] theorem runContinuation_err (s : State) : s.runContinuation.err = s.err := by simp [runContinuation]
@[simp] theorem runContinuation_biq (s : State) : s.runContinuation.biq = s.biq := by simp [runContinuation]
@[simp] theorem runContinuation_biClosed (s : State) : s.runContinuation.biClosed = s.biClosed := by simp [runContinuation]
@[simp] theorem runContinuation_piq (s : State) : s.runContinuation.piq = s.piq := by simp [runContinuation]
@[simp] theorem runContinuation_poq (s : State) : s.runContinuation.poq = s.poq ++ [s.prev] := by simp [runContinuation]
@[simp] theorem runContinuation_boq (s : State) : s.runContinuation.boq = s.boq := by simp [runContinuation]

/-! A step that lacks input (R6, R113, R150, R162). -/

theorem starve_cases (s : State) :
    (s.biClosed = false ∧ s.starve = s) ∨
    (s.biClosed = true ∧ s.starve = (s.inRead s.biq.length).raise .unexpectedEndOfStream) := by
  unfold starve inAvail
  cases s.biClosed <;> simp

/-! The end of an encoder pixel step (R197, R198). -/

theorem finishEncodePixel_phase (s : State) (out : List Byte) (px : Pixel) :
    (s.finishEncodePixel out px).phase = if s.pixcount + 1 = s.npix then .eEnd else s.phase := by
  unfold finishEncodePixel
  have e : (((s.outWrite out).setPrev px).countPixel.pixcount = ((s.outWrite out).setPrev px).countPixel.npix) =
      (s.pixcount + 1 = s.npix) := rfl
  by_cases h : s.pixcount + 1 = s.npix
  · rw [if_pos h, if_pos (e ▸ h)]; rfl
  · rw [if_neg h, if_neg (e ▸ h)]; rfl

@[simp] theorem finishEncodePixel_params (s : State) (out : List Byte) (px : Pixel) :
    (s.finishEncodePixel out px).params = s.params := by
  unfold finishEncodePixel; dsimp only; split <;> rfl
@[simp] theorem finishEncodePixel_pins (s : State) (out : List Byte) (px : Pixel) :
    (s.finishEncodePixel out px).pins = s.pins := by
  unfold finishEncodePixel; dsimp only; split <;> rfl
@[simp] theorem finishEncodePixel_host (s : State) (out : List Byte) (px : Pixel) :
    (s.finishEncodePixel out px).host = s.host := by
  unfold finishEncodePixel; dsimp only; split <;> rfl
@[simp] theorem finishEncodePixel_prev (s : State) (out : List Byte) (px : Pixel) :
    (s.finishEncodePixel out px).prev = px := by
  unfold finishEncodePixel; dsimp only; split <;> rfl
@[simp] theorem finishEncodePixel_run (s : State) (out : List Byte) (px : Pixel) :
    (s.finishEncodePixel out px).run = s.run := by
  unfold finishEncodePixel; dsimp only; split <;> rfl
@[simp] theorem finishEncodePixel_cache (s : State) (out : List Byte) (px : Pixel) :
    (s.finishEncodePixel out px).cache = s.cache := by
  unfold finishEncodePixel; dsimp only; split <;> rfl
@[simp] theorem finishEncodePixel_width (s : State) (out : List Byte) (px : Pixel) :
    (s.finishEncodePixel out px).width = s.width := by
  unfold finishEncodePixel; dsimp only; split <;> rfl
@[simp] theorem finishEncodePixel_height (s : State) (out : List Byte) (px : Pixel) :
    (s.finishEncodePixel out px).height = s.height := by
  unfold finishEncodePixel; dsimp only; split <;> rfl
@[simp] theorem finishEncodePixel_channels (s : State) (out : List Byte) (px : Pixel) :
    (s.finishEncodePixel out px).channels = s.channels := by
  unfold finishEncodePixel; dsimp only; split <;> rfl
@[simp] theorem finishEncodePixel_colorspace (s : State) (out : List Byte) (px : Pixel) :
    (s.finishEncodePixel out px).colorspace = s.colorspace := by
  unfold finishEncodePixel; dsimp only; split <;> rfl
@[simp] theorem finishEncodePixel_npix (s : State) (out : List Byte) (px : Pixel) :
    (s.finishEncodePixel out px).npix = s.npix := by
  unfold finishEncodePixel; dsimp only; split <;> rfl
@[simp] theorem finishEncodePixel_pixcount (s : State) (out : List Byte) (px : Pixel) :
    (s.finishEncodePixel out px).pixcount = s.pixcount + 1 := by
  unfold finishEncodePixel; dsimp only; split <;> rfl
@[simp] theorem finishEncodePixel_bytecount (s : State) (out : List Byte) (px : Pixel) :
    (s.finishEncodePixel out px).bytecount = s.bytecount + BitVec.ofNat 64 out.length := by
  unfold finishEncodePixel; dsimp only; split <;> rfl
@[simp] theorem finishEncodePixel_err (s : State) (out : List Byte) (px : Pixel) :
    (s.finishEncodePixel out px).err = s.err := by
  unfold finishEncodePixel; dsimp only; split <;> rfl
@[simp] theorem finishEncodePixel_biq (s : State) (out : List Byte) (px : Pixel) :
    (s.finishEncodePixel out px).biq = s.biq := by
  unfold finishEncodePixel; dsimp only; split <;> rfl
@[simp] theorem finishEncodePixel_biClosed (s : State) (out : List Byte) (px : Pixel) :
    (s.finishEncodePixel out px).biClosed = s.biClosed := by
  unfold finishEncodePixel; dsimp only; split <;> rfl
@[simp] theorem finishEncodePixel_piq (s : State) (out : List Byte) (px : Pixel) :
    (s.finishEncodePixel out px).piq = s.piq := by
  unfold finishEncodePixel; dsimp only; split <;> rfl
@[simp] theorem finishEncodePixel_poq (s : State) (out : List Byte) (px : Pixel) :
    (s.finishEncodePixel out px).poq = s.poq := by
  unfold finishEncodePixel; dsimp only; split <;> rfl
@[simp] theorem finishEncodePixel_boq (s : State) (out : List Byte) (px : Pixel) :
    (s.finishEncodePixel out px).boq = s.boq ++ out := by
  unfold finishEncodePixel; dsimp only; split <;> rfl

@[simp] theorem finishEncodePixel_cacheRead (s : State) (out : List Byte) (px : Pixel) (i : Slot) :
    (s.finishEncodePixel out px).cacheRead i = s.cacheRead i := cacheRead_congr (by simp) i

/-- The repeat path writes nothing but `RUN` (R182, R183). -/
theorem encodeRepeat_cases (last : Bool) (s : State) :
    ((s.run + 1 = 62 ∨ last = true) ∧ encodeRepeat last s = (flushBytes (s.run + 1), s.setRun 0)) ∨
    (s.run + 1 ≠ 62 ∧ last = false ∧ encodeRepeat last s = ([], s.setRun (s.run + 1))) := by
  unfold encodeRepeat
  have e : ((s.setRun (s.run + 1)).run = 62 ∨ last = true) = (s.run + 1 = 62 ∨ last = true) := rfl
  by_cases h : s.run + 1 = 62 ∨ last = true
  · left; exact ⟨h, if_pos (e ▸ h)⟩
  · right
    have h' := h
    simp only [not_or, Bool.not_eq_true] at h
    exact ⟨h.1, h.2, if_neg (e ▸ h')⟩

/-- The bytes that close a pending run (R184). -/
def pendingRun (s : State) : List Byte := if s.run = 0 then [] else flushBytes s.run

/-- The other path writes `RUN`, and one cache entry on a miss (R184 to R186). -/
theorem encodeFresh_cases (px : Pixel) (s : State) :
    (s.contains px = true ∧ encodeFresh px s = (s.pendingRun ++ encode (.opIndex (pixelHash px)), s.setRun 0)) ∨
    (s.contains px = false ∧ encodeFresh px s =
      (s.pendingRun ++ encode (selectDelta px s.prev), (s.setRun 0).cacheWrite (pixelHash px) px)) := by
  have e : (if s.run = 0 then s else s.setRun 0) = s.setRun 0 := by
    split
    · next h => simp only [setRun, ← h]
    · rfl
  unfold encodeFresh pendingRun
  rw [e]
  have ec : (s.setRun 0).contains px = s.contains px := rfl
  cases h : s.contains px
  · right; exact ⟨rfl, if_neg (by rw [ec, h]; decide)⟩
  · left; exact ⟨rfl, if_pos (ec.trans h)⟩

/-! The job start (R222, R223). -/

theorem jobStart_cases (s : State) :
    (s.pins.cmd = cmdEncode ∧ (s.pins.cfgWidth = 0 ∨ s.pins.cfgHeight = 0) ∧
      s.jobStart = (s.initJob.setHeader ⟨s.pins.cfgWidth, s.pins.cfgHeight, 4, 0⟩).raise .invalidDimensions) ∨
    (s.pins.cmd = cmdEncode ∧ s.pins.cfgWidth ≠ 0 ∧ s.pins.cfgHeight ≠ 0 ∧
      s.jobStart = (s.initJob.setHeader ⟨s.pins.cfgWidth, s.pins.cfgHeight, 4, 0⟩).setPhase .eHdr) ∨
    (s.pins.cmd ≠ cmdEncode ∧ s.jobStart =
      (s.initJob.setHeader ⟨0, 0, 0, 0⟩).setPhase (if s.pins.cmd = cmdDecode then .dHdr else .pHdr)) := by
  unfold jobStart
  dsimp only
  by_cases h : s.pins.cmd = cmdEncode
  · by_cases hz : s.pins.cfgWidth = 0 ∨ s.pins.cfgHeight = 0
    · left; rw [if_pos h, if_pos hz]; exact ⟨h, hz, rfl⟩
    · right; left; rw [if_pos h, if_neg hz]; simp only [not_or] at hz; exact ⟨h, hz.1, hz.2, rfl⟩
  · right; right; rw [if_neg h]; exact ⟨h, rfl⟩

/-! The header step (R113). -/

theorem headerStep_cases (s : State) :
    (s.biq.length < 14 ∧ s.headerStep = s.starve) ∨
    (14 ≤ s.biq.length ∧ ∃ e, parseHeader s.params (s.biq.take 14) = .error e ∧
      s.headerStep = (s.inRead 14).raise e) ∨
    (14 ≤ s.biq.length ∧ ∃ hd, parseHeader s.params (s.biq.take 14) = .ok hd ∧
      s.headerStep = ((s.inRead 14).setHeader hd).setPhase (if s.phase = .dHdr then .dPix else .done)) := by
  unfold headerStep inAvail
  by_cases h : s.biq.length < 14
  · left; simp [h]
  · right
    rw [if_neg h]
    cases hp : parseHeader s.params (s.biq.take 14) with
    | error e => left; exact ⟨by omega, e, rfl, rfl⟩
    | ok hd => right; exact ⟨by omega, hd, rfl, rfl⟩

/-! The end-marker check (R162). -/

theorem endCheckStep_cases (s : State) :
    (s.biq.length < 8 ∧ s.endCheckStep = s.starve) ∨
    (8 ≤ s.biq.length ∧ s.biq.take 8 ≠ endMarkerBytes ∧ s.endCheckStep = (s.inRead 8).raise .invalidOpcode) ∨
    (8 ≤ s.biq.length ∧ s.biq.take 8 = endMarkerBytes ∧ s.endCheckStep = (s.inRead 8).setPhase .done) := by
  unfold endCheckStep inAvail
  by_cases h : s.biq.length < 8
  · left; simp [h]
  · right
    rw [if_neg h]
    by_cases hm : s.biq.take 8 = endMarkerBytes
    · right; rw [if_neg (not_not.mpr hm)]; exact ⟨by omega, hm, rfl⟩
    · left; rw [if_pos hm]; exact ⟨by omega, hm, rfl⟩

/-! The host's moves: what the engine's registers see of them (R41, R270). -/

/-- Every host move ends under the reset input: with `rst` high the engine is in the reset state. -/
theorem hostMove_underReset (m : HostMove) (s : State) :
    m = .engine ∨ ∃ t : State, s.hostMove m = t.underReset ∧ t.params = s.params ∧ t.host = s.host ∧
      t.phase = s.phase ∧ t.prev = s.prev ∧ t.run = s.run ∧ t.cache = s.cache ∧ t.width = s.width ∧
      t.height = s.height ∧ t.channels = s.channels ∧ t.colorspace = s.colorspace ∧ t.npix = s.npix ∧
      t.pixcount = s.pixcount ∧ t.bytecount = s.bytecount ∧ t.err = s.err ∧ t.poq = s.poq ∧ t.boq = s.boq := by
  cases m with
  | engine => exact .inl rfl
  | rst l => exact .inr ⟨_, rfl, by simp⟩
  | cmd v c => exact .inr ⟨_, rfl, by simp⟩
  | cfg w h => exact .inr ⟨_, rfl, by simp⟩
  | byte b => exact .inr ⟨_, rfl, by simp⟩
  | eos => exact .inr ⟨_, rfl, by simp⟩
  | pixel d => exact .inr ⟨_, rfl, by simp⟩
  | idle => exact .inr ⟨_, rfl, by simp⟩

/-! Each host move with `rst` low, by its effect (R230). -/

theorem underReset_low {s : State} (h : s.pins.rst = false) : s.underReset = s := by
  unfold underReset; rw [h]; rfl

theorem hostMove_byte {s : State} (h : s.pins.rst = false) (b : Byte) :
    s.hostMove (.byte b) = { s with biq := s.biq ++ [b] } :=
  underReset_low (s := { s with biq := s.biq ++ [b] }) h

theorem hostMove_pixel {s : State} (h : s.pins.rst = false) (w : Word32) :
    s.hostMove (.pixel w) = { s with piq := s.piq ++ [unpackPixel w] } :=
  underReset_low (s := { s with piq := s.piq ++ [unpackPixel w] }) h

theorem hostMove_eos {s : State} (h : s.pins.rst = false) : s.hostMove .eos = { s with biClosed := true } :=
  underReset_low (s := { s with biClosed := true }) h

theorem hostMove_cmd {s : State} (h : s.pins.rst = false) (v : Bool) (c : BitVec 2) :
    s.hostMove (.cmd v c) = { s with pins := { s.pins with cmdValid := v, cmd := c } } :=
  underReset_low (s := { s with pins := { s.pins with cmdValid := v, cmd := c } }) h

theorem hostMove_cfg {s : State} (h : s.pins.rst = false) (w ht : Word32) :
    s.hostMove (.cfg w ht) = { s with pins := { s.pins with cfgWidth := w, cfgHeight := ht } } :=
  underReset_low (s := { s with pins := { s.pins with cfgWidth := w, cfgHeight := ht } }) h

theorem underReset_cases (s : State) :
    (s.pins.rst = true ∧ s.underReset = s.resetEngine) ∨ (s.pins.rst = false ∧ s.underReset = s) := by
  unfold underReset
  cases s.pins.rst <;> simp

end Sys2Proof.Machine.State
end

