-- ==== Sys2Proof/Laws/PerInstr.lean ====
section
/-! SUPPORT. Facts about every instruction as syntax, one lemma per constructor. -/

namespace Sys2Proof.Laws.EncodedLength

/-- A well-formed instruction is encoded in as many bytes as its class has, and its first byte names its class, so that the
length is a function of the first byte alone (R84). -/
def Statement (i : Instr) : Prop :=
  i.wellFormed = true → (encode i).length = i.byteLength ∧ (encode i).head?.map classify = some i.opClass

theorem opRgb (r g b : Byte) : Statement (.opRgb r g b) := fun _ => ⟨rfl, rfl⟩

theorem opRgba (r g b a : Byte) : Statement (.opRgba r g b a) := fun _ => ⟨rfl, rfl⟩

theorem opIndex (slot : Slot) : Statement (.opIndex slot) := by
  intro _
  have hs := slot.isLt
  refine ⟨rfl, ?_⟩
  simp only [encode, List.head?_cons, Option.map_some, Option.some.injEq, classify_eq, indexByte_toNat, Instr.opClass]
  repeat' split
  all_goals first | rfl | omega

theorem opDiff (dr dg db : Int) : Statement (.opDiff dr dg db) := by
  intro h
  simp only [Instr.wellFormed, Bool.and_eq_true, inRange_iff] at h
  have hb := diffByte_toNat h.1.1 h.1.2 h.2
  refine ⟨rfl, ?_⟩
  simp only [encode, List.head?_cons, Option.map_some, Option.some.injEq, classify_eq, Instr.opClass]
  repeat' split
  all_goals first | rfl | omega

theorem opLuma (dg drDg dbDg : Int) : Statement (.opLuma dg drDg dbDg) := by
  intro h
  simp only [Instr.wellFormed, Bool.and_eq_true, inRange_iff] at h
  have hb := lumaByte1_toNat h.1.1
  refine ⟨rfl, ?_⟩
  simp only [encode, List.head?_cons, Option.map_some, Option.some.injEq, classify_eq, Instr.opClass]
  repeat' split
  all_goals first | rfl | omega

theorem opRun (length : Nat) : Statement (.opRun length) := by
  intro h
  simp only [Instr.wellFormed, Bool.and_eq_true, decide_eq_true_eq] at h
  have hb := runByte_toNat h
  refine ⟨rfl, ?_⟩
  simp only [encode, List.head?_cons, Option.map_some, Option.some.injEq, classify_eq, Instr.opClass]
  repeat' split
  all_goals first | rfl | omega

end Sys2Proof.Laws.EncodedLength
end

