-- ==== Sys2Proof/Laws/Step.lean ====
section
/-! SUPPORT. What a meaning, the engine's turn and a step can do, each said once as a case analysis of its next state. -/

namespace Sys2Proof.Machine

/-- The pixel an operation produces from a state (R152 to R157). -/
def operationPixel (i : Instr) (s : State) : Pixel :=
  match i with
  | .opRgb r g b => ⟨r, g, b, s.prev.a⟩
  | .opRgba r g b a => ⟨r, g, b, a⟩
  | .opIndex slot => s.cacheRead slot
  | .opDiff dr dg db => offsetPixel s.prev dr dg db
  | .opLuma dg drDg dbDg => offsetPixel s.prev (dg + drDg) dg (dg + dbDg)
  | .opRun _ => s.prev

/-- What an operation leaves in `RUN` (R157): only OP_RUN writes it. -/
def operationRun (i : Instr) (s : State) : BitVec 6 :=
  match i with
  | .opRun length => BitVec.ofNat 6 (length - 1)
  | _ => s.run

/-- Every operation ends in a next state: `RUN` as the operation leaves it, then its pixel produced (R158 to R160). -/
theorem exec_eq_produce (i : Instr) (s : State) :
    exec i s = .next ((s.setRun (operationRun i s)).produce (operationPixel i s)) := by
  cases i <;> rfl

/-- What a decode pixel step can do (R150). -/
theorem decodePixelStep_cases {s t : State} (h : decodePixelStep s = .next t) :
    (s.run ≠ 0 ∧ t = s.runContinuation) ∨
    (s.run = 0 ∧ ∃ i rest, decode s.biq = .ok (i, rest) ∧ exec i (s.inRead i.byteLength) = .next t) ∨
    (s.run = 0 ∧ ∃ r, decode s.biq = .error r ∧ t = s.starve) := by
  unfold decodePixelStep at h
  split at h
  · next hr => left; exact ⟨hr, by injection h with h; exact h.symm⟩
  · next hr =>
    right
    have hr : s.run = 0 := by simpa using hr
    split at h
    · next i rest hd => left; exact ⟨hr, i, rest, hd, h⟩
    · next hd => right; exact ⟨hr, _, hd, by injection h with h; exact h.symm⟩
    · next hd => right; exact ⟨hr, _, hd, by injection h with h; exact h.symm⟩

/-- A decode pixel step always has a next state. -/
theorem decodePixelStep_next (s : State) : ∃ t, decodePixelStep s = .next t := by
  unfold decodePixelStep
  split
  · exact ⟨_, rfl⟩
  · split
    · exact ⟨_, exec_eq_produce _ _⟩
    · exact ⟨_, rfl⟩
    · exact ⟨_, rfl⟩

/-- What the engine's turn can do (R21, R220, R270). -/
theorem engineStep_cases {s t : State} (h : engineStep s = .next t) :
    (s.pins.rst = true ∧ t = s.resetEngine) ∨
    (s.pins.rst = false ∧ s.accepts = true ∧ t = s.jobStart) ∨
    (s.pins.rst = false ∧ s.accepts = false ∧ (s.phase = .idle ∨ s.phase = .done ∨ s.phase = .error) ∧ t = s) ∨
    (s.pins.rst = false ∧ (s.phase = .dHdr ∨ s.phase = .pHdr) ∧ t = s.headerStep) ∨
    (s.pins.rst = false ∧ s.phase = .dPix ∧ decodePixelStep s = .next t) ∨
    (s.pins.rst = false ∧ s.phase = .dEnd ∧ t = s.endCheckStep) ∨
    (s.pins.rst = false ∧ s.phase = .eHdr ∧ t = s.headerEmitStep) ∨
    (s.pins.rst = false ∧ s.phase = .ePix ∧ t = s.encodePixelStep) ∨
    (s.pins.rst = false ∧ s.phase = .eEnd ∧ t = s.endEmitStep) := by
  unfold engineStep at h
  split at h
  · next hr => left; exact ⟨hr, by injection h with h; exact h.symm⟩
  · next hr =>
    have hr : s.pins.rst = false := by simpa using hr
    split at h
    · next ha => right; left; exact ⟨hr, ha, by injection h with h; exact h.symm⟩
    · next ha =>
      have ha : s.accepts = false := by simpa using ha
      cases hp : s.phase <;> rw [hp] at h <;> simp only at h <;> (try injection h with h) <;> subst_vars <;> simp_all

/-- The engine's turn always has a next state: the engine never stops without one. -/
theorem engineStep_next (s : State) : ∃ t, engineStep s = .next t := by
  unfold engineStep
  split
  · exact ⟨_, rfl⟩
  · split
    · exact ⟨_, rfl⟩
    · cases s.phase <;> first | exact ⟨_, rfl⟩ | exact decodePixelStep_next s

/-- What a step can do: the engine's turn, or one move of the host (R6, log 1). -/
theorem step_cases {s t : State} (h : step s = .next t) :
    (s.host = [] ∧ engineStep s = .next t) ∨
    (∃ rest, s.host = .engine :: rest ∧ engineStep { s with host := rest } = .next t) ∨
    (∃ m rest, m ≠ .engine ∧ s.host = m :: rest ∧ t = State.hostMove m { s with host := rest }) := by
  unfold step at h
  split at h
  · next hh => left; exact ⟨hh, h⟩
  · next rest hh => right; left; exact ⟨rest, hh, h⟩
  · next m rest hne hh =>
    right; right
    exact ⟨m, rest, fun e => hne e, hh, by injection h with h; exact h.symm⟩

/-- With nothing left for the host to do, a step is the engine's. -/
theorem step_engine {s : State} (h : s.host = []) : step s = engineStep s := by
  unfold step; rw [h]

/-- A host move at the head of the list is the step. -/
theorem step_hostMove {s : State} {m : HostMove} {rest : List HostMove} (hh : s.host = m :: rest) (hm : m ≠ .engine) :
    step s = .next (State.hostMove m { s with host := rest }) := by
  unfold step; rw [hh]
  cases m <;> first | rfl | exact absurd rfl hm

/-- A step always has a next state. -/
theorem step_next (s : State) : ∃ t, step s = .next t := by
  unfold step
  split
  · exact engineStep_next _
  · exact engineStep_next _
  · exact ⟨_, rfl⟩

/-- A run of one step more, on any machine, is the step, then the run. -/
theorem run_of_coreStep {M : Host.Core} (n : Nat) {s t : M.State} (h : M.step s = .next t) : M.run (n + 1) s = M.run n t := by
  rw [Host.Core.run, h]

/-- A run of one step more is the step, then the run. -/
theorem run_of_step (n : Nat) {s t : State} (h : step s = .next t) :
    Host.Core.run Sys2Proof.core (n + 1) s = Host.Core.run Sys2Proof.core n t :=
  run_of_coreStep (M := Sys2Proof.core) n h

/-- A run of `b + a` steps is the run of `a` steps, then that of `b`. -/
theorem run_of_run (a b : Nat) {s t : State} (h : Host.Core.run Sys2Proof.core a s = .next t) :
    Host.Core.run Sys2Proof.core (b + a) s = Host.Core.run Sys2Proof.core b t := by
  induction a generalizing s with
  | zero => injection h with h; subst h; rfl
  | succ a ih =>
    obtain ⟨u, hu⟩ := step_next s
    rw [run_of_step a hu] at h
    rw [← Nat.add_assoc, run_of_step _ hu]
    exact ih h

end Sys2Proof.Machine
end

