-- ==== Sys2Proof/Tests/Slice0.lean ====
section
/-! SUPPORT. The model's own tests. Expected results come from the spec: its encodings (30_encoding.md), its rules and its
test vectors (95_test_vectors.md), named at each test. The theorems named witness_ show that the hypotheses of the
statement they are named after can be met, clause by clause. -/

namespace Sys2Proof.Tests

open Sys2Proof Sys2Proof.Machine

/-! ## Well-formedness: each check refuses an ill-formed term (R95) -/

theorem test_wellFormed_refuses_diff_low : (Instr.opDiff (-3) 0 0).wellFormed = false := by decide
theorem test_wellFormed_refuses_diff_green : (Instr.opDiff 0 2 0).wellFormed = false := by decide
theorem test_wellFormed_refuses_diff_blue : (Instr.opDiff 0 0 2).wellFormed = false := by decide
theorem test_wellFormed_refuses_luma_green : (Instr.opLuma 32 0 0).wellFormed = false := by decide
theorem test_wellFormed_refuses_luma_red : (Instr.opLuma 0 (-9) 0).wellFormed = false := by decide
theorem test_wellFormed_refuses_luma_blue : (Instr.opLuma 0 0 8).wellFormed = false := by decide
theorem test_wellFormed_refuses_run_zero : (Instr.opRun 0).wellFormed = false := by decide
theorem test_wellFormed_refuses_run_63 : (Instr.opRun 63).wellFormed = false := by decide

/-! ## Decoding: words written out from the encodings of R85 to R89 -/

/-- R85: 11111110, then 00001010 00010100 00011110 (TD1). -/
theorem test_decode_rgb : decode [0b11111110, 0b00001010, 0b00010100, 0b00011110, 0x55] =
    .ok (.opRgb 10 20 30, [0x55]) := by rfl

/-- R85: 11111111, then four bytes (TD2). -/
theorem test_decode_rgba : decode [0b11111111, 0b00001001, 0b00001000, 0b00000111, 0b00000110] =
    .ok (.opRgba 9 8 7 6, []) := by rfl

/-- R86: tag 00, index 001110 (TD3). -/
theorem test_decode_index : decode [0b00001110] = .ok (.opIndex 14, []) := by rfl

/-- R87: tag 01, dr field 11, dg field 01, db field 10 (P1: OP_DIFF 1, -1, 0). -/
theorem test_decode_diff : decode [0b01110110] = .ok (.opDiff 1 (-1) 0, []) := by rfl

/-- R88: tag 10, dg field 100101; dr_dg field 0110, db_dg field 1011 (P1: OP_LUMA 5, -2, 3). -/
theorem test_decode_luma : decode [0b10100101, 0b01101011] = .ok (.opLuma 5 (-2) 3, []) := by rfl

/-- R89: tag 11, length field 111101 is length 62 (TD15). -/
theorem test_decode_run : decode [0b11111101] = .ok (.opRun 62, []) := by rfl

/-- The opcode table numbers bit 0 as the least significant bit of the first byte: FE 0A 14 1E is 0x1E140AFE. -/
theorem test_decode_table_word : decodeTableWord 32 0x1E140AFE = some (.opRgb 10 20 30) := by decide

/-- A table word runs as the next step after reset: the bytes FD are OP_RUN 62 (TD15). -/
theorem test_withFetchWord_runs : ∃ t, step (State.reset.withFetchWord 8 0xFD) = .next t ∧ t.run = 61 ∧
    t.poq = [⟨0, 0, 0, 255⟩] := ⟨_, rfl, by decide, by decide⟩

/-! ## One operation, one step (95_test_vectors.md section 4) -/

/-- A decoder reading the pixels of a 4 x 1 image, with `PREV` and the coming bytes as given and the cache empty. -/
def reading (prev : Pixel) (bytes : List Byte) : State :=
  { State.reset with phase := .dPix, width := 4, height := 1, channels := 4, npix := 4, bytecount := 14, prev := prev
                     biq := bytes }

/-- The state after one step, for reading fields off it. -/
def after (s : State) : State :=
  match step s with
  | .next t => t
  | .fault _ => s
  | .refused _ => s

/-- TD1. -/
theorem test_rgb_keeps_alpha : (after (reading ⟨1, 2, 3, 200⟩ [0xFE, 0x0A, 0x14, 0x1E])).poq = [⟨10, 20, 30, 200⟩] := by decide

/-- R150: four bytes are read as one unit and counted, and a byte behind them stays. -/
theorem test_rgb_bytes : (after (reading ⟨1, 2, 3, 200⟩ [0xFE, 0x0A, 0x14, 0x1E, 7])).biq = [7] ∧
    (after (reading ⟨1, 2, 3, 200⟩ [0xFE, 0x0A, 0x14, 0x1E, 7])).bytecount = 18 := by decide

/-- TD2. -/
theorem test_rgba : (after (reading ⟨1, 2, 3, 200⟩ [0xFF, 9, 8, 7, 6])).poq = [⟨9, 8, 7, 6⟩] := by decide

/-- TD3's setting: (1,2,3,4) is written to slot 14 and to `PREV` (R158, TK1). -/
theorem test_rgba_writes_its_slot : (after (reading ⟨1, 2, 3, 200⟩ [0xFF, 1, 2, 3, 4])).cacheRead 14 = ⟨1, 2, 3, 4⟩ ∧
    (after (reading ⟨1, 2, 3, 200⟩ [0xFF, 1, 2, 3, 4])).prev = ⟨1, 2, 3, 4⟩ := by decide

/-- TD3. -/
theorem test_index_hit : (after ((reading ⟨1, 2, 3, 4⟩ [0x0E]).cacheWrite 14 ⟨1, 2, 3, 4⟩)).poq = [⟨1, 2, 3, 4⟩] := by decide

/-- P5: an index operation writes its pixel at the pixel's own slot, here slot 0 where (64,0,0,0) stood. -/
theorem test_index_moves_an_entry :
    (after ((reading ⟨64, 0, 0, 0⟩ [0x05]).cacheWrite 0 ⟨64, 0, 0, 0⟩)).cacheRead 0 = ⟨0, 0, 0, 0⟩ := by decide

/-- TD5: R wraps up. -/
theorem test_diff_wraps_up : (after (reading ⟨255, 7, 9, 255⟩ [0x7A])).poq = [⟨0, 7, 9, 255⟩] := by decide

/-- TD6: all -2, wrapping down. -/
theorem test_diff_wraps_down : (after (reading ⟨0, 0, 0, 7⟩ [0x40])).poq = [⟨254, 254, 254, 7⟩] := by decide

/-- TD10: the least offsets. -/
theorem test_luma_minimum : (after (reading ⟨0, 0, 0, 9⟩ [0x80, 0x00])).poq = [⟨216, 224, 216, 9⟩] := by decide

/-- TD13: wraps, and red and blue take different differences. -/
theorem test_luma_wraps : (after (reading ⟨250, 250, 250, 1⟩ [0xBF, 0xF0])).poq = [⟨32, 25, 17, 1⟩] := by decide

/-- TD17 and the lock-step vector: a first run writes (0,0,0,255) to slot 53. -/
theorem test_run_writes_slot_53 : (after (reading ⟨0, 0, 0, 255⟩ [0xC1])).cacheRead 53 = ⟨0, 0, 0, 255⟩ ∧
    (after (reading ⟨0, 0, 0, 255⟩ [0xC1])).run = 1 := by decide

/-- TD16: a continuation reads no byte and writes no cache entry. -/
theorem test_run_continuation :
    (after { reading ⟨9, 9, 9, 9⟩ [0x40] with run := 3 }).run = 2 ∧
    (after { reading ⟨9, 9, 9, 9⟩ [0x40] with run := 3 }).poq = [⟨9, 9, 9, 9⟩] ∧
    (after { reading ⟨9, 9, 9, 9⟩ [0x40] with run := 3 }).biq = [0x40] ∧
    (after { reading ⟨9, 9, 9, 9⟩ [0x40] with run := 3 }).cache = (reading ⟨9, 9, 9, 9⟩ [0x40]).cache := by decide

/-- TD19: a cut operation of a closed stream is consumed and raises code 6. -/
theorem test_cut_operation : (after { reading ⟨0, 0, 0, 255⟩ [0xFF, 1, 2] with biClosed := true }).status = 0x64 ∧
    (after { reading ⟨0, 0, 0, 255⟩ [0xFF, 1, 2] with biClosed := true }).bytecount = 17 := by decide

/-! ## Header, hash, selection, assembler: one vector of each table -/

/-- A header of the default magic. -/
def headerBytes (w h : Word32) (ch cs : Byte) : List Byte :=
  [0x71, 0x6F, 0x69, 0x66] ++ bigEndian32 w ++ bigEndian32 h ++ [ch, cs]

/-- A job waiting for its header: `dHdr` for DECODE, `pHdr` for PEEK, with the coming bytes. -/
def awaiting (p : Phase) (bytes : List Byte) : State := { State.reset with phase := p, prev := prevInit, biq := bytes }

/-- The magic bytes are 71 6F 69 66 and the dimensions big-endian (serializer vector of section 2). -/
theorem test_serializer : serializeHeader Params.default 640 480 =
    [0x71, 0x6F, 0x69, 0x66, 0x00, 0x00, 0x02, 0x80, 0x00, 0x00, 0x01, 0xE0, 0x04, 0x00] := by decide

/-- TH16: the greatest dimensions. -/
theorem test_header_greatest : (after (awaiting .pHdr (headerBytes 0xFFFFFFFF 0xFFFFFFFF 4 0))).npix = 0xFFFFFFFE00000001 ∧
    (after (awaiting .pHdr (headerBytes 0xFFFFFFFF 0xFFFFFFFF 4 0))).status = 0x02 := by decide

/-- TH9 and TH11: the first failing check wins. -/
theorem test_header_priority :
    (after (awaiting .dHdr [0, 0, 0, 0, 0, 0, 0, 0, 0, 0, 0, 1, 7, 9])).status = 0x14 ∧
    (after (awaiting .dHdr (headerBytes 1 1 7 9))).status = 0x34 := by decide

/-- Table TK1. -/
theorem test_hash : pixelHash ⟨200, 100, 50, 25⟩ = 61 ∧ pixelHash ⟨255, 255, 255, 255⟩ = 38 ∧
    pixelHash ⟨0, 0, 0, 255⟩ = 53 := by decide

/-- TE1, TE5, TE9 and TE19: one selection of each kind. -/
theorem test_selection :
    encode (selectDelta ⟨101, 101, 101, 255⟩ ⟨100, 100, 100, 255⟩) = [0x7F] ∧
    encode (selectDelta ⟨97, 100, 100, 255⟩ ⟨100, 100, 100, 255⟩) = [0xA0, 0x58] ∧
    encode (selectDelta ⟨67, 67, 67, 255⟩ ⟨100, 100, 100, 255⟩) = [0xFE, 0x43, 0x43, 0x43] ∧
    encode (selectDelta ⟨101, 100, 100, 254⟩ ⟨100, 100, 100, 255⟩) = [0xFF, 0x65, 0x64, 0x64, 0xFE] := by decide

/-- P1, one line: `OP_DIFF 1, -1, 0 ; px1` assembles to 76. -/
theorem test_assembler_line : assembleText Params.default ["OP_DIFF 1, -1, 0 ; px1".toList] = some [0x76] := by decide

/-- R95: an operand out of range is refused. -/
theorem test_assembler_refuses : assembleText Params.default ["OP_RUN 63".toList] = none := by decide

/-- R96: REPEAT 125 is FD FD C0 (TE28's runs). -/
theorem test_assembler_repeat : assembleText Params.default ["REPEAT 125".toList] = some [0xFD, 0xFD, 0xC0] := by decide

/-- R223, TJ6: an ENCODE with a zero width stops at once with code 2 and keeps the sampled dimensions. -/
theorem test_encode_zero_width :
    (after { State.reset with pins := ⟨false, true, 2, 0, 5⟩ }).status = 0x24 ∧
    (after { State.reset with pins := ⟨false, true, 2, 0, 5⟩ }).hdrHeight = 5 := by decide

/-! ## Witnesses: the hypotheses of each statement, met at concrete states, clause by clause

A statement without hypotheses has no entry. -/

/-- DecodeOfEncodeIsTheInstruction, AssemblerRefusesOperandsOutOfRange: operands at the ends of their ranges. -/
theorem witness_wellFormed :
    (Instr.opDiff (-2) 1 (-2)).wellFormed = true ∧ (Instr.opDiff 1 (-2) 1).wellFormed = true ∧
    (Instr.opLuma (-32) (-8) 7).wellFormed = true ∧ (Instr.opLuma 31 7 (-8)).wellFormed = true ∧
    (Instr.opRun 1).wellFormed = true ∧ (Instr.opRun 62).wellFormed = true ∧ (Instr.opIndex 63).wellFormed = true ∧
    (Instr.opRgb 0 255 0).wellFormed = true ∧ (Instr.opRgba 255 0 255 0).wellFormed = true := by decide

/-- AssemblerRefusesOperandsOutOfRange, the OP_DIFFW clause: 255 and -1 are the same delta modulo 256. -/
theorem witness_diffw : ((255 : Int) - -1) % 256 = 0 ∧ (-128 ≤ (-1 : Int) ∧ (-1 : Int) ≤ 127) ∧
    assemble Params.default (.diffw 255 0 0) = some [0x5A] := by decide

/-- AssemblerRefusesOperandsOutOfRange, the HEADER clauses: operands at and just outside the ends of their ranges, and an
illegal header of R96. -/
theorem witness_headerItem :
    spellHeader [4294967295, 0, 255, 0] = some (.header 0xFFFFFFFF 0 255 0) ∧ spellHeader [4294967296, 0, 0, 0] = none ∧
    spellHeader [0, -1, 0, 0] = none ∧ spellHeader [0, 0, 256, 0] = none ∧ spellHeader [0, 0, 0, -1] = none ∧
    assemble Params.default (.header 0 1 5 2) =
      some [0x71, 0x6F, 0x69, 0x66, 0, 0, 0, 0, 0, 0, 0, 1, 5, 2] := by decide

/-- DecodedBytesAreTheEncodingOfTheResult. -/
theorem witness_decoded : decode [0x40, 0x99] = .ok (.opDiff (-2) (-2) (-2), [0x99]) := by rfl

/-- ClassifyTestsFullBytesThenTags: a least and a greatest byte of each class. -/
theorem witness_classify :
    classify 0xFE = .rgb ∧ classify 0xFF = .rgba ∧ classify 0x00 = .index ∧ classify 0x3F = .index ∧
    classify 0x40 = .diff ∧ classify 0x7F = .diff ∧ classify 0x80 = .luma ∧ classify 0xBF = .luma ∧
    classify 0xC0 = .run ∧ classify 0xFD = .run := by decide

/-- OperationLengthComesFromTheFirstByte: each length, one byte short and just enough. -/
theorem witness_lengths :
    decode [0xFF, 0, 0, 0] = .error (.truncated .rgba) ∧ decode [0xFF, 0, 0, 0, 0] = .ok (.opRgba 0 0 0 0, []) ∧
    decode [0xFE, 0, 0] = .error (.truncated .rgb) ∧ decode [0xFE, 0, 0, 0] = .ok (.opRgb 0 0 0, []) ∧
    decode [0x80] = .error (.truncated .luma) ∧ decode [0xBF, 0xFF] = .ok (.opLuma 31 7 7, []) ∧
    decode [0x7F] = .ok (.opDiff 1 1 1, []) ∧ decode [0xC0] = .ok (.opRun 1, []) :=
  ⟨rfl, rfl, rfl, rfl, rfl, rfl, rfl, rfl⟩

/-- FieldsStandWhereTheFormatsPutThem: the least and greatest fields of each format with bounds. -/
theorem witness_fields :
    decode [0x3F] = .ok (.opIndex 63, []) ∧ decode [0x40] = .ok (.opDiff (-2) (-2) (-2), []) ∧
    decode [0x7F] = .ok (.opDiff 1 1 1, []) ∧ decode [0x80, 0x00] = .ok (.opLuma (-32) (-8) (-8), []) ∧
    decode [0xBF, 0xFF] = .ok (.opLuma 31 7 7, []) ∧ decode [0xC0] = .ok (.opRun 1, []) ∧
    decode [0xFD] = .ok (.opRun 62, []) := ⟨rfl, rfl, rfl, rfl, rfl, rfl, rfl⟩

/-- HeaderNumbersAreBigEndian, both clauses. -/
theorem witness_headerNumbers :
    parseHeader Params.default (headerBytes 0x01020304 0x05060708 4 0) = .ok ⟨0x01020304, 0x05060708, 4, 0⟩ ∧
    headerBytes 0x01020304 0x05060708 4 0 = serializeHeader Params.default 0x01020304 0x05060708 := by decide

/-- HashAdderMayBeAnyWidthFromSixBits: the least width. -/
theorem witness_adder : 6 ≤ 6 ∧
    ((3 * (255 : Byte).setWidth 6 + 5 * (255 : Byte).setWidth 6 + 7 * (255 : Byte).setWidth 6 +
      11 * (255 : Byte).setWidth 6 : BitVec 6)) = 38 := by decide

/-- CacheReadAfterWrite: the written slot and another one. -/
theorem witness_cacheWrite :
    (State.reset.cacheWrite 63 ⟨1, 2, 3, 4⟩).cacheRead 63 = ⟨1, 2, 3, 4⟩ ∧
    (State.reset.cacheWrite 63 ⟨1, 2, 3, 4⟩).cacheRead 62 = ⟨0, 0, 0, 0⟩ := by decide

/-- HitTestExaminesOnlyTheHashSlot: equal at slot 14, different elsewhere. -/
theorem witness_hitTest :
    (State.reset.cacheWrite 14 ⟨1, 2, 3, 4⟩).cacheRead (pixelHash ⟨1, 2, 3, 4⟩) =
      ((State.reset.cacheWrite 14 ⟨1, 2, 3, 4⟩).cacheWrite 15 ⟨9, 9, 9, 9⟩).cacheRead (pixelHash ⟨1, 2, 3, 4⟩) ∧
    (State.reset.cacheWrite 14 ⟨1, 2, 3, 4⟩).contains ⟨1, 2, 3, 4⟩ = true ∧
    State.reset.contains ⟨1, 2, 3, 4⟩ = false := by decide

/-- A decoder at its pixels is ready. -/
theorem reading_ready (prev : Pixel) (bytes : List Byte) : (reading prev bytes).ready .dPix := ⟨rfl, rfl, rfl⟩

/-- The starving clauses of OpRgbKeepsAlphaAndReplacesColour, OpRgbaReplacesAllFourChannels and
OpLumaAddsGreenAndDifferencesModulo256: one byte short; open streams hold, closed ones raise code 6. -/
theorem witness_starving :
    (reading prevInit [0xFE, 1, 2]).ready .dPix ∧ (reading prevInit [0xFE, 1, 2]).run = 0 ∧
    after (reading prevInit [0xFE, 1, 2]) = reading prevInit [0xFE, 1, 2] ∧
    after (reading prevInit [0xFF, 1, 2, 3]) = reading prevInit [0xFF, 1, 2, 3] ∧
    after (reading prevInit [0x80]) = reading prevInit [0x80] ∧ after (reading prevInit [0xBF]) = reading prevInit [0xBF] ∧
    (after { reading prevInit [0xFE, 1, 2] with biClosed := true }).err = 6 ∧
    (after { reading prevInit [0xBF] with biClosed := true }).err = 6 :=
  ⟨reading_ready _ _, rfl, by decide, by decide, by decide, by decide, by decide, by decide⟩

/-- OpRunRepeatsPrevAndLoadsTheCount: both ends of the range. -/
theorem witness_opRun :
    (after (reading prevInit [0xC0])).run = 0 ∧ (after (reading prevInit [0xFD])).run = 61 ∧
    1 ≤ 1 ∧ 62 ≤ 62 := by decide

/-- RunContinuationReadsNothing, and the continuation clause of StepRunsTheDecodedOperation. -/
theorem witness_continuation : ({ reading prevInit [] with run := 1 } : State).ready .dPix ∧
    ({ reading prevInit [] with run := 1 } : State).run ≠ 0 := ⟨⟨rfl, rfl, rfl⟩, by decide⟩

/-- StepRunsTheDecodedOperation: the operation clause and the starving clause, with a turn entry in the host list. -/
theorem witness_stepRuns :
    ({ reading prevInit [0x7F] with host := [.engine] } : State).ready .dPix ∧ (reading prevInit [0x7F]).run = 0 ∧
    decode (reading prevInit [0x7F]).biq = .ok (.opDiff 1 1 1, []) ∧
    decode (reading prevInit []).biq = .error .noByte := ⟨⟨rfl, rfl, rfl⟩, rfl, rfl, rfl⟩

/-- A decoder at the end-marker check. -/
def checking (bytes : List Byte) : State :=
  { State.reset with params := { Params.default with checkEndMarker := true }, phase := .dEnd, width := 1, height := 1
                     channels := 4, npix := 1, pixcount := 1, bytecount := 15, biq := bytes, biClosed := true }

/-- EndMarkerCheckVerdict: seven bytes (TD25), the marker (TD24, TD28), another eight bytes (TD26). -/
theorem witness_endMarker :
    (checking [0, 0, 0, 0, 0, 0, 1]).ready .dEnd ∧ (after (checking [0, 0, 0, 0, 0, 0, 1])).status = 0x64 ∧
    (after (checking [0, 0, 0, 0, 0, 0, 0, 1, 5, 5])).status = 0x02 ∧
    (after (checking [0, 0, 0, 0, 0, 0, 0, 1, 5, 5])).biq = [5, 5] ∧
    (after (checking [0, 0, 0, 0, 0, 0, 0, 2])).status = 0x54 :=
  ⟨⟨rfl, rfl, rfl⟩, by decide, by decide, by decide, by decide⟩

/-- LanesAreIndependent: two states that agree in the red lane only, and an operation that keeps alpha. -/
theorem witness_lanes : ∃ t1 t2, exec (.opDiff 1 1 1) (reading ⟨5, 1, 1, 1⟩ []) = .next t1 ∧
    exec (.opDiff 1 1 1) (reading ⟨5, 2, 3, 4⟩ []) = .next t2 ∧ t1.prev.r = t2.prev.r ∧ t1.prev.g ≠ t2.prev.g ∧
    t1.prev.a = 1 := ⟨_, _, rfl, rfl, by decide, by decide, by decide⟩

/-- A decoder of a 4 x 1 image one pixel into a first run, with a continuation to come. -/
def running : State :=
  { (reading prevInit []).cacheWrite 53 prevInit with run := 1, pixcount := 1, bytecount := 15 }

/-- ContinuationCacheWriteWouldChangeNothing, and InvariantIsKeptByEveryStep in a decode job: every clause of the
invariant holds with a run pending. -/
theorem witness_inv_running : running.Inv ∧ running.phase = .dPix ∧ running.run ≠ 0 := by
  refine ⟨?_, rfl, by decide⟩
  constructor <;> first | decide | skip
  · exact fun _ => ⟨by decide, by decide, by decide, by decide⟩
  · exact fun h => absurd h (by decide)

/-- ChannelsAndColorspaceAreInformational. -/
theorem witness_informational : (reading prevInit [0x7F]).ready .dPix ∧ ∃ t, step (reading prevInit [0x7F]) = .next t ∧
    t.poq = [⟨1, 1, 1, 255⟩] := ⟨⟨rfl, rfl, rfl⟩, _, rfl, by decide⟩

/-- The default parameters, but lenient about the colorspace. -/
def lenient : Params := { Params.default with strictColorspace := false }

/-- HeaderVerdictFollowsTheCheckOrder: each branch (TH8, TH2, TH3, TH5, TH13, TH12, TH14, TH7). -/
theorem witness_headerVerdict :
    parseHeader Params.default ([0x71, 0x6F, 0x69, 0x46] ++ (headerBytes 1 1 4 0).drop 4) = .error .invalidMagic ∧
    parseHeader Params.default (headerBytes 0 5 4 0) = .error .invalidDimensions ∧
    parseHeader Params.default (headerBytes 5 0 4 0) = .error .invalidDimensions ∧
    parseHeader Params.default (headerBytes 1 1 0 0) = .error .invalidChannelCount ∧
    parseHeader Params.default (headerBytes 1 1 4 2) = .error .invalidColorspace ∧
    parseHeader Params.default (headerBytes 1 1 4 1) = .ok ⟨1, 1, 4, 1⟩ ∧
    parseHeader lenient (headerBytes 1 1 4 2) = .ok ⟨1, 1, 4, 2⟩ ∧
    parseHeader Params.default (headerBytes 1 1 3 0) = .ok ⟨1, 1, 3, 0⟩ := by decide

/-- HeaderStepConsumesFourteenBytes: 13 bytes, and 14 for DECODE and PEEK, accepted and rejected. -/
theorem witness_headerStep :
    (awaiting .dHdr (headerBytes 2 1 4 0)).ready .dHdr ∧ (awaiting .pHdr (headerBytes 2 1 4 0)).ready .pHdr ∧
    after (awaiting .dHdr ((headerBytes 2 1 4 0).take 13)) = awaiting .dHdr ((headerBytes 2 1 4 0).take 13) ∧
    (after (awaiting .dHdr (headerBytes 2 1 4 0))).phase = .dPix ∧
    (after (awaiting .pHdr (headerBytes 2 1 4 0))).phase = .done ∧
    (after (awaiting .pHdr (headerBytes 2 0 4 0))).phase = .error :=
  ⟨⟨rfl, rfl, rfl⟩, ⟨rfl, rfl, rfl⟩, by decide, by decide, by decide, by decide⟩

/-- Before its header a job meets the invariant, in either of the two phases. -/
theorem awaiting_inv (p : Phase) (hp : p = .dHdr ∨ p = .pHdr) (bytes : List Byte) : (awaiting p bytes).Inv := by
  have fresh : (awaiting p bytes).FreshJob := ⟨rfl, rfl, fun i => by simp [State.cacheRead, awaiting, State.reset, State.resetOf], rfl, rfl⟩
  rcases hp with rfl | rfl <;> constructor <;>
    first | exact fun _ => fresh | (simp [awaiting, State.reset, State.resetOf])

/-- HeaderErrorLeavesZeroOutputs, in both phases. -/
theorem witness_headerError :
    (awaiting .dHdr (headerBytes 2 0 4 0)).Inv ∧ (awaiting .dHdr (headerBytes 2 0 4 0)).ready .dHdr ∧
    (after (awaiting .dHdr (headerBytes 2 0 4 0))).phase = .error ∧
    (awaiting .pHdr (headerBytes 2 0 4 0)).Inv ∧ (awaiting .pHdr (headerBytes 2 0 4 0)).ready .pHdr ∧
    (after (awaiting .pHdr (headerBytes 2 0 4 0))).phase = .error :=
  ⟨awaiting_inv _ (.inl rfl) _, ⟨rfl, rfl, rfl⟩, by decide, awaiting_inv _ (.inr rfl) _, ⟨rfl, rfl, rfl⟩, by decide⟩

/-- ParseOfSerializeGivesTheDimensions: two parameter sets with the same MAGIC. -/
theorem witness_parseOfSerialize : (1 : Word32) ≠ 0 ∧ (0xFFFFFFFF : Word32) ≠ 0 ∧
    Params.default.magic = lenient.magic := by decide

/-- An encoder of a 70 x 1 image at its pixels, `count` of them taken and `run` of them pending. -/
def encoding (prev : Pixel) (run : BitVec 6) (count : Word64) (pixels : List Pixel) : State :=
  { State.reset with phase := .ePix, width := 70, height := 1, channels := 4, npix := 70, pixcount := count, run := run
                     prev := prev, piq := pixels }

/-- Such an encoder meets the invariant while a pixel is to come and the run is at most 61. -/
theorem encoding_inv (prev : Pixel) (run : BitVec 6) (count : Word64) (pixels : List Pixel) (hr : run.toNat ≤ 61)
    (hc : count.toNat < 70) : (encoding prev run count pixels).Inv := by
  constructor <;> simp [encoding, State.reset, State.resetOf]
  · omega
  · omega
  · omega

/-- EncodeRepeatCountsOrFlushes, and the repeat clause of EncodeStepEmitsUpToSixBytes: the count reaches 62, the last
pixel, and neither (P3, TE20). -/
theorem witness_encodeRepeat :
    (encoding prevInit 61 61 [prevInit]).Inv ∧ (encoding prevInit 61 61 [prevInit]).ready .ePix ∧
    (after (encoding prevInit 61 61 [prevInit])).boq = [0xFD] ∧
    (encoding prevInit 0 69 [prevInit]).Inv ∧ (after (encoding prevInit 0 69 [prevInit])).boq = [0xC0] ∧
    (encoding prevInit 60 60 [prevInit]).Inv ∧ (after (encoding prevInit 60 60 [prevInit])).boq = [] ∧
    (after (encoding prevInit 60 60 [prevInit])).run = 61 :=
  ⟨encoding_inv _ _ _ _ (by decide) (by decide), ⟨rfl, rfl, rfl⟩, by decide, encoding_inv _ _ _ _ (by decide) (by decide),
   by decide, encoding_inv _ _ _ _ (by decide) (by decide), by decide, by decide⟩

/-- EncodeHitEmitsTheSlot, and the hit clause of EncodeStepEmitsUpToSixBytes: without and with a pending run (TE24,
TE21). -/
theorem witness_encodeHit :
    (encoding prevInit 0 0 [⟨0, 0, 0, 0⟩]).Inv ∧ (encoding prevInit 0 0 [⟨0, 0, 0, 0⟩]).ready .ePix ∧
    (⟨0, 0, 0, 0⟩ : Pixel) ≠ prevInit ∧
    (encoding prevInit 0 0 [⟨0, 0, 0, 0⟩]).cacheRead (pixelHash ⟨0, 0, 0, 0⟩) = ⟨0, 0, 0, 0⟩ ∧
    (after (encoding prevInit 0 0 [⟨0, 0, 0, 0⟩])).boq = [0x00] ∧
    (after (encoding ⟨5, 5, 5, 5⟩ 2 3 [⟨0, 0, 0, 0⟩])).boq = [0xC1, 0x00] :=
  ⟨encoding_inv _ _ _ _ (by decide) (by decide), ⟨rfl, rfl, rfl⟩, by decide, by decide, by decide, by decide⟩

/-- EncodeMissInsertsAndEmitsADelta, and the miss clause of EncodeStepEmitsUpToSixBytes: without and with a pending run
(V1, TE22). -/
theorem witness_encodeMiss :
    (encoding prevInit 0 0 [⟨10, 20, 30, 255⟩]).Inv ∧ (encoding prevInit 0 0 [⟨10, 20, 30, 255⟩]).ready .ePix ∧
    (⟨10, 20, 30, 255⟩ : Pixel) ≠ prevInit ∧
    (encoding prevInit 0 0 [⟨10, 20, 30, 255⟩]).cacheRead (pixelHash ⟨10, 20, 30, 255⟩) ≠ ⟨10, 20, 30, 255⟩ ∧
    (after (encoding prevInit 0 0 [⟨10, 20, 30, 255⟩])).boq = [0xFE, 0x0A, 0x14, 0x1E] ∧
    (after (encoding ⟨5, 5, 5, 5⟩ 1 2 [⟨9, 9, 9, 9⟩])).boq = [0xC0, 0xFF, 9, 9, 9, 9] :=
  ⟨encoding_inv _ _ _ _ (by decide) (by decide), ⟨rfl, rfl, rfl⟩, by decide, by decide, by decide, by decide⟩

/-- DeltaSelectionConditions: each branch at the ends of its ranges (TE1, TE2, TE7, TE8, TE9, TE14, TE15, TE18). -/
theorem witness_selection :
    encode (selectDelta ⟨101, 101, 101, 255⟩ ⟨100, 100, 100, 255⟩) = [0x7F] ∧
    encode (selectDelta ⟨98, 98, 98, 255⟩ ⟨100, 100, 100, 255⟩) = [0x40] ∧
    encode (selectDelta ⟨68, 68, 68, 255⟩ ⟨100, 100, 100, 255⟩) = [0x80, 0x88] ∧
    encode (selectDelta ⟨131, 131, 131, 255⟩ ⟨100, 100, 100, 255⟩) = [0xBF, 0x88] ∧
    encode (selectDelta ⟨67, 67, 67, 255⟩ ⟨100, 100, 100, 255⟩) = [0xFE, 0x43, 0x43, 0x43] ∧
    encode (selectDelta ⟨108, 100, 100, 255⟩ ⟨100, 100, 100, 255⟩) = [0xFE, 0x6C, 0x64, 0x64] ∧
    encode (selectDelta ⟨61, 68, 75, 255⟩ ⟨100, 100, 100, 255⟩) = [0x80, 0x1F] ∧
    encode (selectDelta ⟨100, 100, 100, 0⟩ ⟨100, 100, 100, 255⟩) = [0xFF, 0x64, 0x64, 0x64, 0x00] := by decide

/-- SelectedOperationIsShortest: OP_RGBA makes a pixel that OP_DIFF makes in one byte. -/
theorem witness_shortest : (⟨1, 1, 1, 255⟩ : Pixel) ≠ (reading prevInit []).prev ∧
    (Instr.opRgba 1 1 1 255).wellFormed = true ∧ (∀ slot, Instr.opRgba 1 1 1 255 ≠ .opIndex slot) ∧
    (∃ t, exec (.opRgba 1 1 1 255) (reading prevInit []) = .next t ∧ t.prev = ⟨1, 1, 1, 255⟩) :=
  ⟨by decide, by decide, by decide, _, rfl, by decide⟩

/-- SelectedOperationIsNeverRedundant: each of the three selections occurs. -/
theorem witness_redundant :
    selectDelta ⟨0, 0, 0, 254⟩ prevInit = .opRgba 0 0 0 254 ∧ selectDelta ⟨1, 0, 0, 255⟩ prevInit = .opDiff 1 0 0 ∧
    selectDelta ⟨2, 0, 0, 255⟩ prevInit = .opLuma 0 2 0 := by decide

/-- WrappingTheLumaDifferencesSelectsTheSame: the plain difference -128 - 31 wraps to 97, and neither is in range. -/
theorem witness_wrapping : -32 ≤ channelDelta 31 0 ∧ channelDelta 31 0 ≤ 31 ∧ channelDelta 128 0 - channelDelta 31 0 = -159 ∧
    s8 (-159) = 97 := by decide

/-- FrameEmission, both phases. -/
theorem witness_frame : ({ State.reset with phase := .eHdr } : State).ready .eHdr ∧
    ({ State.reset with phase := .eEnd } : State).ready .eEnd := ⟨⟨rfl, rfl, rfl⟩, ⟨rfl, rfl, rfl⟩⟩

/-- The reset state with a command offered. -/
def offering (cmd : BitVec 2) (w h : Word32) : State := { State.reset with pins := ⟨false, true, cmd, w, h⟩ }

/-- JobStartInitializesEverything: each command, and each zero dimension (TJ2, TJ6, TJ7). -/
theorem witness_jobStart :
    (offering 1 0 0).engineMoves = true ∧ (offering 1 0 0).busy = false ∧ (offering 1 0 0).pins.cmd ≠ 0 ∧
    (after (offering 1 0 0)).status = 0x01 ∧ (after (offering 1 0 0)).phase = .dHdr ∧ (after (offering 3 0 0)).phase = .pHdr ∧
    (after (offering 2 2 1)).phase = .eHdr ∧ (after (offering 2 2 1)).npix = 2 ∧
    (after (offering 2 0 5)).err = 2 ∧ (after (offering 2 3 0)).err = 2 := by decide

/-- BusyEngineIgnoresCommandsAndConfiguration (TJ3). -/
theorem witness_busy : (reading prevInit [0x7F]).engineMoves = true ∧ (reading prevInit [0x7F]).busy = true ∧
    (reading prevInit [0x7F]).pins.rst = false ∧ ∃ t, step (reading prevInit [0x7F]) = .next t :=
  ⟨rfl, rfl, rfl, _, rfl⟩

/-- NothingRunsOutsideAJob: each phase, with no command and with NOP (TJ4). -/
theorem witness_outsideAJob :
    after State.reset = State.reset ∧ after (offering 0 7 7) = offering 0 7 7 ∧
    after { offering 0 7 7 with phase := .done } = { offering 0 7 7 with phase := .done } ∧
    after { State.reset with phase := .error, err := 5 } = { State.reset with phase := .error, err := 5 } := by decide

/-- PhaseSequenceOfEachJob: a move of each kind, and reset. -/
theorem witness_phases :
    (after (offering 2 1 1)).phase = .eHdr ∧ (after (encoding prevInit 0 69 [prevInit])).phase = .eEnd ∧
    (after { reading prevInit [0x7F] with npix := 1 }).phase = .done ∧
    (after { reading prevInit [0x7F] with npix := 1, params := { Params.default with checkEndMarker := true } }).phase = .dEnd ∧
    (after { reading prevInit [] with host := [.rst true] }).phase = .idle := by decide

/-- ErrorsArePreciseAndKeepTheirState: a running job (TD19), and a job that never ran (TJ6). -/
theorem witness_errors :
    (reading prevInit [0xFF, 1, 2]).busy = true ∧
    (after { reading prevInit [0xFF, 1, 2] with biClosed := true }).phase = .error ∧
    (offering 2 0 5).busy = false ∧ (offering 2 0 5).phase ≠ .error ∧ (after (offering 2 0 5)).phase = .error := by decide

/-- OutputsAreNeverRetracted, CountersCountTheTraffic: a step that outputs. -/
theorem witness_traffic : ∃ t, step (reading prevInit [0x7F]) = .next t ∧ t.poq.length = 1 ∧ t.pixcount = 1 ∧
    t.bytecount = 15 := ⟨_, rfl, by decide, by decide, by decide⟩

/-- HostWritesOnlyInputs: each move of the host but the engine's turn and the raising of `rst`. -/
theorem witness_hostMoves :
    (after { State.reset with host := [.byte 7] }).biq = [7] ∧ (after { State.reset with host := [.eos] }).biClosed = true ∧
    (after { State.reset with host := [.pixel 0x010203FF] }).piq = [⟨1, 2, 3, 255⟩] ∧
    (after { State.reset with host := [.cmd true 2] }).pins.cmd = 2 ∧
    (after { State.reset with host := [.cfg 5 6] }).pins.cfgHeight = 6 ∧
    after { State.reset with host := [.rst false] } = State.reset ∧ after { State.reset with host := [.idle] } = State.reset := by
  decide

/-- HostWritesOnlyInputs, its positive clauses in a running job: a byte and a pixel join behind what is queued. -/
theorem witness_hostMoves_running :
    (after { reading prevInit [0x7F] with host := [.byte 7] }).biq = [0x7F, 7] ∧
    (reading prevInit [0x7F]).biClosed = false ∧ (reading prevInit [0x7F]).pins.rst = false ∧
    (after { encoding prevInit 0 1 [prevInit] with host := [.pixel 0x010203FF] }).piq = [prevInit, ⟨1, 2, 3, 255⟩] := by decide

/-- HostMovesStartAJobAndFeedIt: an engine that is not BUSY with stale input and an old error, and no byte, one byte, one
pixel offered (R272). -/
theorem witness_feeding :
    ({ State.reset with phase := .error, err := 5, biq := [9], biClosed := true } : State).busy = false ∧
    ({ State.reset with phase := .error, err := 5, biq := [9], biClosed := true } : State).pins.rst = false ∧
    (State.reset.decodeJob []).phase = .dHdr ∧ (State.reset.decodeJob [0x71]).biq = [0x71] ∧
    (State.reset.encodeJob 1 1 [prevInit]).phase = .eHdr ∧ (State.reset.encodeJob 1 1 [prevInit]).piq = [prevInit] := by
  decide

/-- ResetOverridesEverything, both clauses (TJ9). -/
theorem witness_reset :
    (after { reading prevInit [0x7F] with pins := ⟨true, true, 1, 0, 0⟩, poq := [prevInit] }).status = 0x00 ∧
    (after { reading prevInit [0x7F] with host := [.rst true], poq := [prevInit] }).status = 0x00 ∧
    (after { reading prevInit [0x7F] with host := [.rst true], poq := [prevInit] }).poq = [prevInit] := by decide

/-- EveryStepHasANextState: the four steps that hold, the last with a turn entry in the host list (TH20's stream cut,
TD18 left open, TD25 left open, TJ8). -/
theorem witness_holds :
    after (awaiting .pHdr []) = awaiting .pHdr [] ∧ after (reading prevInit []) = reading prevInit [] ∧
    after { checking [0] with biClosed := false } = { checking [0] with biClosed := false } ∧
    after { encoding prevInit 0 1 [] with host := [.engine] } = encoding prevInit 0 1 [] := by decide

/-- InvariantIsKeptByEveryStep in an encode job and before a header, for a step of the engine and of the host. -/
theorem witness_inv : (encoding prevInit 61 61 [prevInit]).Inv ∧ (awaiting .dHdr []).Inv ∧
    (∃ t, step (encoding prevInit 61 61 [prevInit]) = .next t) ∧
    ∃ t, step { awaiting .dHdr [] with host := [.byte 0x71] } = .next t :=
  ⟨encoding_inv _ _ _ _ (by decide) (by decide), awaiting_inv _ (.inl rfl) _, ⟨_, rfl⟩, _, rfl⟩

/-- InputTimingDoesNotMatter: a step of a running job that does something. -/
theorem witness_inputTiming : (reading prevInit [0x7F]).pins.rst = false ∧ (reading prevInit [0x7F]).busy = true ∧
    (reading prevInit [0x7F]).biClosed = false ∧
    ∃ t, engineStep (reading prevInit [0x7F]) = .next t ∧ t ≠ reading prevInit [0x7F] := ⟨rfl, rfl, rfl, _, rfl, by decide⟩

/-- JobsAreIsolated: the reset state and a state after a job that failed, both about to accept a DECODE. -/
theorem witness_isolated :
    (offering 1 0 0).params = ({ offering 1 0 0 with phase := .error, err := 5, prev := ⟨1, 2, 3, 4⟩, run := 9 } : State).params ∧
    (offering 1 0 0).engineMoves = true ∧ (offering 1 0 0).pins.rst = false ∧ (offering 1 0 0).accepts = true ∧
    ({ offering 1 0 0 with phase := .error, err := 5, prev := ⟨1, 2, 3, 4⟩, run := 9 } : State).accepts = true ∧
    (∃ t, Host.Core.run Sys2Proof.core 2 (offering 1 0 0) = .next t) := ⟨rfl, rfl, rfl, rfl, rfl, _, rfl⟩

/-- JobsAreIsolated, its last clause: a run that is not in IDLE, and one that a reset brings there. -/
theorem witness_isolated_phases : (after (offering 1 0 0)).phase ≠ .idle ∧
    (after (after { offering 1 0 0 with host := [.engine, .rst true] })).phase = .idle := by decide

/-- The bytes a job has output, if it goes on so long without a stop. -/
def outputAfter (n : Nat) (s : State) : List Byte :=
  match n with
  | 0 => s.boq
  | n + 1 => outputAfter n (after s)

/-- DecodeOfEncodeReturnsTheImage and EncoderAndDecoderCachesStayInStep: the 1 x 1 image (0,0,0,254), whose body is
FF 00 00 00 FE (V7). -/
theorem witness_roundTrip : (1 : Word32) ≠ 0 ∧ [(⟨0, 0, 0, 254⟩ : Pixel)].length = (1 : Word32).toNat * (1 : Word32).toNat ∧
    State.reset.params.magic = State.reset.params.magic ∧
    outputAfter 3 (State.reset.encodeJob 1 1 [⟨0, 0, 0, 254⟩]) =
      headerBytes 1 1 4 0 ++ [0xFF, 0x00, 0x00, 0x00, 0xFE] ++ [0, 0, 0, 0, 0, 0, 0, 1] ∧
    ∃ e, Host.Core.run Sys2Proof.core 3 (State.reset.encodeJob 1 1 [⟨0, 0, 0, 254⟩]) = .next e :=
  ⟨by decide, by decide, rfl, by decide, _, rfl⟩

/-- RepeatExpandsToRunsOfItsTotal: n = 1, 62 and 63. -/
theorem witness_repeat : repeatOps 1 = [.opRun 1] ∧ repeatOps 62 = [.opRun 62] ∧ repeatOps 63 = [.opRun 62, .opRun 1] := by
  decide

end Sys2Proof.Tests
end

section
/-! PROOFS. The big-endian numbers of the header (20_memory.md R61), parsed and serialized. -/

namespace Sys2Proof.Machine

/-! Four bytes and the dimension they spell. -/

theorem toNat_append_byte {n : Nat} (x : BitVec n) (b : Byte) : (x ++ b).toNat = x.toNat * 2 ^ 8 + b.toNat := by
  rw [BitVec.toNat_append, ← Nat.shiftLeft_add_eq_or_of_lt b.isLt, Nat.shiftLeft_eq]

theorem ofBigEndian32_toNat (b0 b1 b2 b3 : Byte) : (ofBigEndian32 b0 b1 b2 b3).toNat = bigEndianNat b0 b1 b2 b3 := by
  unfold ofBigEndian32 bigEndianNat
  rw [toNat_append_byte, toNat_append_byte, toNat_append_byte]
  omega

/-- Reading the four bytes of a dimension gives it back. -/
theorem ofBigEndian32_bigEndian32 (w : Word32) :
    ofBigEndian32 ((bigEndian32 w).getD 0 0) ((bigEndian32 w).getD 1 0) ((bigEndian32 w).getD 2 0)
      ((bigEndian32 w).getD 3 0) = w := by
  apply BitVec.eq_of_toNat_eq
  rw [ofBigEndian32_toNat]
  simp only [bigEndianNat, bigEndian32, List.getD_cons_zero, List.getD_cons_succ, BitVec.extractLsb'_toNat,
    Nat.shiftRight_eq_div_pow]
  omega

/-! The header codec. -/

/-- A header that parses holds the values its bytes spell (R110). -/
theorem parseHeader_ok_fields {p : Params} {h : List Byte} {hd : Header} (ok : parseHeader p h = .ok hd) :
    hd = { width := ofBigEndian32 (h.getD 4 0) (h.getD 5 0) (h.getD 6 0) (h.getD 7 0),
           height := ofBigEndian32 (h.getD 8 0) (h.getD 9 0) (h.getD 10 0) (h.getD 11 0),
           channels := h.getD 12 0, colorspace := h.getD 13 0 } := by
  unfold parseHeader at ok
  dsimp only at ok
  split_ifs at ok
  exact (Except.ok.inj ok).symm

/-- The serializer puts the four bytes of the width after the four of MAGIC (R116). -/
theorem serializeHeader_width (p : Params) (w ht : Word32) :
    ofBigEndian32 ((serializeHeader p w ht).getD 4 0) ((serializeHeader p w ht).getD 5 0)
      ((serializeHeader p w ht).getD 6 0) ((serializeHeader p w ht).getD 7 0) = w :=
  ofBigEndian32_bigEndian32 w

/-- The serializer puts the four bytes of the height after those of the width (R116). -/
theorem serializeHeader_height (p : Params) (w ht : Word32) :
    ofBigEndian32 ((serializeHeader p w ht).getD 8 0) ((serializeHeader p w ht).getD 9 0)
      ((serializeHeader p w ht).getD 10 0) ((serializeHeader p w ht).getD 11 0) = ht :=
  ofBigEndian32_bigEndian32 ht

/-- Settles O7: the number of `ofBigEndian32` is `bigEndianNat` of its bytes, the parser reads both dimensions by it, and it
reads both dimensions back from the serialized bytes. -/
theorem headerNumbersAreBigEndian : Obligations.HeaderNumbersAreBigEndian := by
  unfold Obligations.HeaderNumbersAreBigEndian
  simp only [← ofBigEndian32_toNat]
  constructor
  · intro p h hd ok
    rw [parseHeader_ok_fields ok]
    exact ⟨rfl, rfl⟩
  · rintro p w ht _ rfl
    rw [serializeHeader_width, serializeHeader_height]
    exact ⟨rfl, rfl⟩

end Sys2Proof.Machine
end

section
/-! PROOFS. The operation formats of 30_encoding.md: the class and length the first byte names (R84, R90), and the place and
bias of every operand field (R85 to R89). -/

namespace Sys2Proof

/-! The class by the number of the first byte (R90, R91), and the length it gives (R84). -/

theorem classify_eq_rgb {b1 : Byte} (h : b1.toNat = 0xFE) : classify b1 = .rgb := by
  rw [classify_eq, if_pos h]

theorem classify_eq_rgba {b1 : Byte} (h : b1.toNat = 0xFF) : classify b1 = .rgba := by
  rw [classify_eq, if_neg (by omega), if_pos h]

theorem classify_eq_index {b1 : Byte} (h : b1.toNat < 64) : classify b1 = .index := by
  rw [classify_eq, if_neg (by omega), if_neg (by omega), if_pos h]

theorem classify_eq_diff {b1 : Byte} (lo : 64 ≤ b1.toNat) (hi : b1.toNat < 128) : classify b1 = .diff := by
  rw [classify_eq, if_neg (by omega), if_neg (by omega), if_neg (by omega), if_pos hi]

theorem classify_eq_luma {b1 : Byte} (lo : 128 ≤ b1.toNat) (hi : b1.toNat < 192) : classify b1 = .luma := by
  rw [classify_eq, if_neg (by omega), if_neg (by omega), if_neg (by omega), if_neg (by omega), if_pos hi]

theorem classify_eq_run {b1 : Byte} (lo : 192 ≤ b1.toNat) (hi : b1.toNat < 254) : classify b1 = .run := by
  rw [classify_eq, if_neg (by omega), if_neg (by omega), if_neg (by omega), if_neg (by omega), if_neg (by omega)]

/-- `Length(Classify(b1))` as a function of the number of the first byte alone (R84). -/
theorem classify_length (b1 : Byte) : (classify b1).length =
    if b1.toNat = 255 then 5 else if b1.toNat = 254 then 4
    else if 128 ≤ b1.toNat ∧ b1.toNat < 192 then 2 else 1 := by
  split_ifs with hrgba hrgb hluma
  · rw [classify_eq_rgba hrgba]; rfl
  · rw [classify_eq_rgb hrgb]; rfl
  · rw [classify_eq_luma hluma.1 hluma.2]; rfl
  · have := b1.isLt
    have one : b1.toNat < 64 ∨ (64 ≤ b1.toNat ∧ b1.toNat < 128) ∨ (192 ≤ b1.toNat ∧ b1.toNat < 254) := by omega
    obtain hi | ⟨lo, hi⟩ | ⟨lo, hi⟩ := one
    · rw [classify_eq_index hi]; rfl
    · rw [classify_eq_diff lo hi]; rfl
    · rw [classify_eq_run lo hi]; rfl

/-! What the decoder makes of a first byte of each tagged class. -/

theorem decode_index {b1 : Byte} (h : b1.toNat < 64) (rest : List Byte) :
    decode (b1 :: rest) = .ok (.opIndex (indexSlot b1), rest) := by
  simp only [decode, classify_eq_index h]

theorem decode_diff {b1 : Byte} (lo : 64 ≤ b1.toNat) (hi : b1.toNat < 128) (rest : List Byte) :
    decode (b1 :: rest) = .ok (decodeDiff b1, rest) := by
  simp only [decode, classify_eq_diff lo hi]

theorem decode_luma {b1 : Byte} (lo : 128 ≤ b1.toNat) (hi : b1.toNat < 192) (b2 : Byte) (rest : List Byte) :
    decode (b1 :: b2 :: rest) = .ok (decodeLuma b1 b2, rest) := by
  simp only [decode, classify_eq_luma lo hi]

theorem decode_run {b1 : Byte} (lo : 192 ≤ b1.toNat) (hi : b1.toNat < 254) (rest : List Byte) :
    decode (b1 :: rest) = .ok (decodeRun b1, rest) := by
  simp only [decode, classify_eq_run lo hi]

/-! Each format, with its bytes written as numbers: decoded, then encoded. -/

theorem byte_toNat {n : Nat} (h : n < 256) : (BitVec.ofNat 8 n).toNat = n := by
  rw [BitVec.toNat_ofNat, Nat.mod_eq_of_lt h]

theorem eq_byte_of_toNat {b : Byte} {n : Nat} (h : b.toNat = n) : b = BitVec.ofNat 8 n := by
  rw [← h, BitVec.ofNat_toNat, BitVec.setWidth_eq]

/-- OP_INDEX's field is the byte itself (R86). -/
theorem decode_indexByte {i : Nat} (hi : i < 64) (rest : List Byte) :
    decode (BitVec.ofNat 8 i :: rest) = .ok (.opIndex (BitVec.ofNat 6 i), rest) := by
  have hn : (BitVec.ofNat 8 i).toNat = i := byte_toNat (by omega)
  rw [decode_index (by omega), indexSlot, bits_5_0, hn, Nat.mod_eq_of_lt hi]

theorem encode_indexByte {i : Nat} (hi : i < 64) : encode (.opIndex (BitVec.ofNat 6 i)) = [BitVec.ofNat 8 i] := by
  have hb : (0x00#8 ||| (BitVec.ofNat 6 i).setWidth 8).toNat = i := by
    rw [indexByte_toNat, BitVec.toNat_ofNat, Nat.mod_eq_of_lt hi]
  rw [encode, eq_byte_of_toNat hb]

/-- OP_DIFF's three fields, each with a bias of 2 (R87). -/
theorem decode_diffByte {r g b : Nat} (hr : r < 4) (hg : g < 4) (hb : b < 4) (rest : List Byte) :
    decode (BitVec.ofNat 8 (64 + 16 * r + 4 * g + b) :: rest) = .ok (.opDiff (r - 2) (g - 2) (b - 2), rest) := by
  have hn : (BitVec.ofNat 8 (64 + 16 * r + 4 * g + b)).toNat = 64 + 16 * r + 4 * g + b := byte_toNat (by omega)
  have red : (64 + 16 * r + 4 * g + b) / 16 % 4 = r := by omega
  have green : (64 + 16 * r + 4 * g + b) / 4 % 4 = g := by omega
  have blue : (64 + 16 * r + 4 * g + b) % 4 = b := by omega
  rw [decode_diff (by omega) (by omega), decodeDiff, bits_5_4, bits_3_2, bits_1_0, hn, red, green, blue]

theorem encode_diffByte {r g b : Nat} (hr : r < 4) (hg : g < 4) (hb : b < 4) :
    encode (.opDiff (r - 2) (g - 2) (b - 2)) = [BitVec.ofNat 8 (64 + 16 * r + 4 * g + b)] := by
  have hn := diffByte_toNat (dr := r - 2) (dg := g - 2) (db := b - 2) (by omega) (by omega) (by omega)
  rw [encode, List.singleton_inj]
  exact eq_byte_of_toNat (by omega)

/-- OP_LUMA's green field with a bias of 32, and the two differences with a bias of 8 in the second byte (R88). -/
theorem decode_lumaBytes {g r b : Nat} (hg : g < 64) (hr : r < 16) (hb : b < 16) (rest : List Byte) :
    decode (BitVec.ofNat 8 (128 + g) :: BitVec.ofNat 8 (16 * r + b) :: rest) =
      .ok (.opLuma (g - 32) (r - 8) (b - 8), rest) := by
  have hn1 : (BitVec.ofNat 8 (128 + g)).toNat = 128 + g := byte_toNat (by omega)
  have hn2 : (BitVec.ofNat 8 (16 * r + b)).toNat = 16 * r + b := byte_toNat (by omega)
  have green : (128 + g) % 64 = g := by omega
  have red : (16 * r + b) / 16 = r := by omega
  have blue : (16 * r + b) % 16 = b := by omega
  rw [decode_luma (by omega) (by omega), decodeLuma, bits_5_0, bits_7_4, bits_3_0, hn1, hn2, green, red, blue]

theorem encode_lumaBytes {g r b : Nat} (hg : g < 64) (hr : r < 16) (hb : b < 16) :
    encode (.opLuma (g - 32) (r - 8) (b - 8)) = [BitVec.ofNat 8 (128 + g), BitVec.ofNat 8 (16 * r + b)] := by
  have hn1 := lumaByte1_toNat (dg := g - 32) (by omega)
  have hn2 := lumaByte2_toNat (r := r - 8) (b := b - 8) (by omega) (by omega)
  exact congrArg₂ (fun b1 b2 => [b1, b2]) (eq_byte_of_toNat (by omega)) (eq_byte_of_toNat (by omega))

/-- OP_RUN's field with a bias of -1 (R89). -/
theorem decode_runByte {l : Nat} (hl : l < 62) (rest : List Byte) :
    decode (BitVec.ofNat 8 (192 + l) :: rest) = .ok (.opRun (l + 1), rest) := by
  have hn : (BitVec.ofNat 8 (192 + l)).toNat = 192 + l := byte_toNat (by omega)
  have field : (192 + l) % 64 = l := by omega
  rw [decode_run (by omega) (by omega), decodeRun, bits_5_0, hn, field]

theorem encode_runByte {l : Nat} (hl : l < 62) : encode (.opRun (l + 1)) = [BitVec.ofNat 8 (192 + l)] := by
  rw [encode, eq_byte_of_toNat (runByte_toNat (length := l + 1) (by omega)), Nat.add_sub_cancel]

/-! The obligations. -/

/-- Settles O3: the tag is the quotient by 64, which bounds the number of the byte. -/
theorem classifyTestsFullBytesThenTags : Obligations.ClassifyTestsFullBytesThenTags := by
  intro b1
  have := b1.isLt
  exact ⟨classify_eq_rgb, classify_eq_rgba, fun _ => classify_eq_index (by omega),
    fun _ => classify_eq_diff (by omega) (by omega), fun _ => classify_eq_luma (by omega) (by omega),
    fun _ _ _ => classify_eq_run (by omega) (by omega)⟩

/-- Settles O4: the length is that of the byte's class, the decoder refuses only a list shorter than it (R92), and it accepts
only an operation of the class, dropping its bytes. -/
theorem operationLengthComesFromTheFirstByte : Obligations.OperationLengthComesFromTheFirstByte := by
  refine ⟨rfl, fun b1 tl n hn => ?_⟩
  rw [← classify_length] at hn
  cases hd : decode (b1 :: tl) with
  | error r =>
    obtain ⟨⟨⟩, -⟩ | ⟨_, _, ⟨⟩, rfl, short⟩ := decode_error_facts hd
    rw [List.length_cons, ← hn] at short
    exact ⟨fun _ => rfl, fun enough => absurd enough (by omega)⟩
  | ok p =>
    obtain ⟨i, rest⟩ := p
    obtain ⟨-, rfl, fits, _, _, ⟨⟩, hc⟩ := decode_ok_facts hd
    have hlen : i.byteLength = n := by rw [hn, hc, Instr.byteLength]
    rw [List.length_cons, hlen] at fits
    exact ⟨fun short => absurd short (by omega), fun _ => ⟨i, by rw [hlen], hc.symm, hlen⟩⟩

/-- Settles O5: format by format, decoded and encoded; the literals' bytes are their operands as they stand. -/
theorem fieldsStandWhereTheFormatsPutThem : Obligations.FieldsStandWhereTheFormatsPutThem := by
  intro rest
  refine ⟨fun _ _ _ => ⟨rfl, rfl⟩, fun _ _ _ _ => ⟨rfl, rfl⟩, fun i hi => ?index, fun r g b hr hg hb => ?diff,
    fun g r b hg hr hb => ?luma, fun l hl => ?run⟩
  case index => exact ⟨decode_indexByte hi rest, encode_indexByte hi⟩
  case diff => exact ⟨decode_diffByte hr hg hb rest, encode_diffByte hr hg hb⟩
  case luma => exact ⟨decode_lumaBytes hg hr hb rest, encode_lumaBytes hg hr hb⟩
  case run => exact ⟨decode_runByte hl rest, encode_runByte hl⟩

end Sys2Proof
end

section
/-! PROOFS. The header codec of 40_header_codec.md: the verdict on fourteen bytes (R110, R111, R114), the header step (R113)
and the serialized bytes (R116). -/

namespace Sys2Proof.Machine

/-! The parser's verdict, with the dimensions as numbers. -/

theorem ofBigEndian32_eq_zero_iff (b0 b1 b2 b3 : Byte) :
    ofBigEndian32 b0 b1 b2 b3 = 0 ↔ bigEndianNat b0 b1 b2 b3 = 0 := by
  rw [← ofBigEndian32_toNat]
  exact BitVec.toNat_inj.symm

/-- The check order of R114 on the numbers the dimension bytes spell. -/
theorem parseHeader_eq (p : Params) (h : List Byte) : parseHeader p h =
    if h.take 4 ≠ [p.magic0, p.magic1, p.magic2, p.magic3] then .error .invalidMagic
    else if bigEndianNat (h.getD 4 0) (h.getD 5 0) (h.getD 6 0) (h.getD 7 0) = 0 ∨
        bigEndianNat (h.getD 8 0) (h.getD 9 0) (h.getD 10 0) (h.getD 11 0) = 0 then .error .invalidDimensions
    else if h.getD 12 0 ≠ 3 ∧ h.getD 12 0 ≠ 4 then .error .invalidChannelCount
    else if p.strictColorspace = true ∧ h.getD 13 0 ≠ 0 ∧ h.getD 13 0 ≠ 1 then .error .invalidColorspace
    else .ok { width := ofBigEndian32 (h.getD 4 0) (h.getD 5 0) (h.getD 6 0) (h.getD 7 0),
               height := ofBigEndian32 (h.getD 8 0) (h.getD 9 0) (h.getD 10 0) (h.getD 11 0),
               channels := h.getD 12 0, colorspace := h.getD 13 0 } := by
  simp only [parseHeader, Params.magic, ofBigEndian32_eq_zero_iff]

/-- Settles O25: each clause follows the chain of checks to its branch. -/
theorem headerVerdictFollowsTheCheckOrder : Obligations.HeaderVerdictFollowsTheCheckOrder := by
  rintro p h w ht - rfl rfl
  rw [parseHeader_eq]
  refine ⟨fun magic => if_pos magic, fun magic => ?_⟩
  rw [if_neg (not_not.mpr magic)]
  refine ⟨fun zero => if_pos zero, fun width height => ?_⟩
  rw [if_neg (not_or.mpr ⟨width, height⟩)]
  refine ⟨fun channels => if_pos channels, fun channels => ?_⟩
  rw [if_neg fun ⟨not3, not4⟩ => channels.elim not3 not4]
  refine ⟨fun colorspace => if_pos colorspace, fun colorspace => ?_⟩
  have accepted : ¬ (p.strictColorspace = true ∧ h.getD 13 0 ≠ 0 ∧ h.getD 13 0 ≠ 1) := by
    rintro ⟨strict, not0, not1⟩
    obtain lenient | is0 | is1 := colorspace
    · exact Bool.false_ne_true (lenient.symm.trans strict)
    · exact not0 is0
    · exact not1 is1
  rw [if_neg accepted]
  exact ⟨_, rfl, ofBigEndian32_toNat .., ofBigEndian32_toNat .., rfl, rfl⟩

/-! The serialized bytes. -/

theorem bigEndian32_eq (w : Word32) : bigEndian32 w =
    [BitVec.ofNat 8 (w.toNat / 2 ^ 24), BitVec.ofNat 8 (w.toNat / 2 ^ 16), BitVec.ofNat 8 (w.toNat / 2 ^ 8),
     BitVec.ofNat 8 w.toNat] := by
  simp only [bigEndian32, BitVec.extractLsb', Nat.shiftRight_eq_div_pow, Nat.pow_zero, Nat.div_one]

/-- Settles O28: each dimension goes out as its four quotients, between MAGIC and the fixed last two bytes. -/
theorem serializedHeaderBytes : Obligations.SerializedHeaderBytes := by
  intro p w h
  rw [serializeHeader, bigEndian32_eq, bigEndian32_eq]
  rfl

/-! The engine's turn (R21), and a step of it that lacks input (R6). -/

theorem step_of_engineMoves {s : State} (turn : s.engineMoves = true) : step s = engineStep s.afterTurn := by
  unfold State.engineMoves at turn
  split at turn
  · next hh => rw [step_engine hh, State.afterTurn, hh, List.tail_nil, ← hh]
  · next m rest hh =>
    obtain rfl := of_decide_eq_true turn
    simp only [step, State.afterTurn, hh, List.tail_cons]

theorem accepts_of_busy {s : State} (h : s.busy = true) : s.accepts = false := by
  rw [State.accepts, h, Bool.not_true, Bool.and_false]

/-- In a header phase the engine's turn is the header step, whatever command is offered (R21, R220). -/
theorem engineStep_header {s : State} (low : s.pins.rst = false) (phase : s.phase = .dHdr ∨ s.phase = .pHdr) :
    engineStep s = .next s.headerStep := by
  have busy : s.busy = true := by obtain h | h := phase <;> rw [State.busy, h]
  rw [engineStep, low, accepts_of_busy busy]
  obtain h | h := phase <;> rw [h] <;> rfl

theorem step_of_ready_header {s : State} (ready : s.ready .dHdr ∨ s.ready .pHdr) :
    step s = .next s.afterTurn.headerStep := by
  obtain ⟨turn, low, phase⟩ | ⟨turn, low, phase⟩ := ready
  · exact (step_of_engineMoves turn).trans (engineStep_header low (.inl phase))
  · exact (step_of_engineMoves turn).trans (engineStep_header low (.inr phase))

theorem starves_of_step {s : State} (h : step s = .next s.afterTurn.starve) : s.Starves := by
  obtain ⟨isOpen, e⟩ | ⟨closed, e⟩ := s.afterTurn.starve_cases <;> rw [e] at h
  · exact ⟨fun _ => h, fun closed => absurd (isOpen.symm.trans closed) (by decide)⟩
  · exact ⟨fun isOpen => absurd (isOpen.symm.trans closed) (by decide),
      fun _ => ⟨_, h, rfl, rfl, ⟨rfl, rfl⟩, ⟨rfl, rfl, rfl, rfl, rfl, rfl⟩, ⟨rfl, rfl, rfl, rfl, rfl⟩,
        ⟨rfl, rfl, rfl, rfl, rfl⟩⟩⟩

/-! The header step. -/

/-- `NPIX` holds the product of any two dimensions (R29). -/
theorem pixelTotal_toNat (w h : Word32) : (pixelTotal w h).toNat = w.toNat * h.toNat := by
  have fits : w.toNat * h.toNat < 2 ^ 64 := (Nat.mul_lt_mul'' w.isLt h.isLt).trans_eq (by norm_num)
  rw [pixelTotal, BitVec.toNat_mul, BitVec.toNat_setWidth_of_le (by decide), BitVec.toNat_setWidth_of_le (by decide),
    Nat.mod_eq_of_lt fits]

/-- Settles O26: the step is `headerStep`, which starves, raises the parser's error or loads the parsed header. -/
theorem headerStepConsumesFourteenBytes : Obligations.HeaderStepConsumesFourteenBytes := by
  intro s ready
  have stepped := step_of_ready_header ready
  obtain ⟨short, eq⟩ | ⟨enough, e, rejected, eq⟩ | ⟨enough, hd, accepted, eq⟩ := s.afterTurn.headerStep_cases <;>
    rw [eq] at stepped
  · exact ⟨fun _ => starves_of_step stepped, fun enough => absurd short (Nat.not_lt.mpr enough)⟩
  · refine ⟨fun short => absurd short (Nat.not_lt.mpr enough), fun _ => ⟨_, stepped, ⟨rfl, rfl⟩,
      ⟨rfl, rfl, rfl, rfl, rfl, rfl⟩, ⟨rfl, rfl, rfl, rfl, rfl⟩, fun hd accepted => ?_, fun e' rejected' => ?_⟩⟩
    · nomatch rejected.symm.trans accepted
    · obtain rfl := Except.error.inj (rejected.symm.trans rejected')
      exact ⟨⟨rfl, rfl, rfl, rfl, rfl⟩, rfl, rfl⟩
  · refine ⟨fun short => absurd short (Nat.not_lt.mpr enough), fun _ => ⟨_, stepped, ⟨rfl, rfl⟩,
      ⟨rfl, rfl, rfl, rfl, rfl, rfl⟩, ⟨rfl, rfl, rfl, rfl, rfl⟩, fun hd' accepted' => ?_, fun e rejected => ?_⟩⟩
    · obtain rfl := Except.ok.inj (accepted.symm.trans accepted')
      exact ⟨rfl, rfl, rfl, rfl, pixelTotal_toNat .., rfl, fun decoding => if_pos decoding,
        fun peeking => if_neg (by rw [State.afterTurn, peeking]; decide)⟩
    · nomatch accepted.symm.trans rejected

end Sys2Proof.Machine
end

section
/-! PROOFS. The color cache of 41_color_cache.md: the hash unit (R130), the write (R133) and the hit test (R134). -/

namespace Sys2Proof.Machine

/-! The hit test. -/

/-- Equality of pixels is the equality of all four channels (R9). -/
theorem pixel_eq_iff {p q : Pixel} : p = q ↔ p.r = q.r ∧ p.g = q.g ∧ p.b = q.b ∧ p.a = q.a := by
  cases p
  cases q
  simp only [Pixel.mk.injEq]

theorem contains_iff {s : State} {px : Pixel} : s.contains px = true ↔ s.cacheRead (pixelHash px) = px :=
  decide_eq_true_iff

theorem contains_congr {s t : State} {px : Pixel} (agree : s.cacheRead (pixelHash px) = t.cacheRead (pixelHash px)) :
    s.contains px = t.contains px := by
  rw [State.contains, State.contains, agree]

/-- Settles O12: the test is the equality of `px` with what one read, at its hash slot, returns. -/
theorem hitTestExaminesOnlyTheHashSlot : Obligations.HitTestExaminesOnlyTheHashSlot :=
  ⟨fun _ _ => contains_iff.trans pixel_eq_iff, fun _ _ _ => contains_congr⟩

/-! The hash unit. -/

theorem pixelHash_toNat (px : Pixel) : (pixelHash px).toNat = hashSum px % 64 := BitVec.toNat_ofNat ..

/-- A channel is at most 255, and the weights add up to 26. -/
theorem hashSum_le (px : Pixel) : hashSum px ≤ 26 * 255 := by
  have red := px.r.isLt
  have green := px.g.isLt
  have blue := px.b.isLt
  have alpha := px.a.isLt
  rw [hashSum]
  omega

/-- Settles O9: the slot is the low six bits of `hashSum`, and the bound of the sum is below 2^13. -/
theorem hashIsTheWeightedSumModulo64 : Obligations.HashIsTheWeightedSumModulo64 := fun px =>
  ⟨pixelHash_toNat px, hashSum_le px, (hashSum_le px).trans_lt (by decide)⟩

/-! The write. -/

/-- Settles O11: slots are equal when their numbers are, so the read is that of `cacheRead_cacheWrite`. -/
theorem cacheReadAfterWrite : Obligations.CacheReadAfterWrite := by
  rintro s _ i px rfl
  refine ⟨fun j => ?_, rfl⟩
  simp only [BitVec.toNat_inj]
  exact s.cacheRead_cacheWrite i j px

end Sys2Proof.Machine
end

section
/-! PROOFS. The decoder of 42_decoder.md: the six operations (R152 to R157) with the writes they share (R158 to R160), the
run continuation (R151), the operation cut short (R150) and the end-marker check (R162). -/

namespace Sys2Proof.Machine

/-! What every pixel step, and every operation, leaves (R158 to R160). -/

/-- Emitting a pixel after a step wrote `PREV`, `RUN` and the cache, the only registers the emission does not speak of. -/
theorem emitPixel_emitsPixel (s : State) (prev : Pixel) (run : BitVec 6) (cache : Vector Pixel 64) (px : Pixel) :
    s.EmitsPixel (({ s with prev := prev, run := run, cache := cache } : State).emitPixel px) px where
  out := State.emitPixel_poq ..
  count := State.emitPixel_pixcount ..
  phase_end last := (State.emitPixel_phase ..).trans (if_pos last)
  phase_more more := (State.emitPixel_phase ..).trans (if_neg more)
  err := State.emitPixel_err ..
  ports := ⟨State.emitPixel_params .., State.emitPixel_pins .., State.emitPixel_host .., State.emitPixel_biClosed ..,
    State.emitPixel_piq .., State.emitPixel_boq ..⟩
  header := ⟨State.emitPixel_width .., State.emitPixel_height .., State.emitPixel_channels ..,
    State.emitPixel_colorspace .., State.emitPixel_npix ..⟩

theorem runContinuation_emitsPixel (s : State) : s.EmitsPixel s.runContinuation s.prev :=
  emitPixel_emitsPixel s s.prev (s.run - 1) s.cache s.prev

theorem slot_eq_pixelHash_iff (j : Slot) (px : Pixel) : j = pixelHash px ↔ j.toNat = hashSum px % 64 := by
  rw [← pixelHash_toNat, BitVec.toNat_inj]

theorem produce_producesPixel (s : State) (run : BitVec 6) (px : Pixel) :
    s.ProducesPixel ((s.setRun run).produce px) px where
  prev := State.produce_prev ..
  cache j := by
    rw [State.produce_cacheRead, State.setRun_cacheRead]
    simp only [slot_eq_pixelHash_iff, hashSum]
  biq := State.produce_biq ..
  bytecount := State.produce_bytecount ..
  emits := emitPixel_emitsPixel s px run _ px

/-- The effect of each operation: it produces its pixel, and `RUN` is as the operation leaves it. -/
theorem exec_producesPixel (i : Instr) (s : State) :
    ∃ t, exec i s = .next t ∧ t.run = operationRun i s ∧ s.ProducesPixel t (operationPixel i s) :=
  ⟨_, exec_eq_produce i s, State.produce_run .., produce_producesPixel ..⟩

/-! A decoder step at the engine's turn (R21, R150). -/

theorem engineStep_dPix {s : State} (low : s.pins.rst = false) (phase : s.phase = .dPix) :
    engineStep s = decodePixelStep s := by
  have busy : s.busy = true := by rw [State.busy, phase]
  rw [engineStep, low, accepts_of_busy busy, phase]
  rfl

theorem step_of_ready_dPix {s : State} (ready : s.ready .dPix) : step s = decodePixelStep s.afterTurn := by
  obtain ⟨turn, low, phase⟩ := ready
  exact (step_of_engineMoves turn).trans (engineStep_dPix low phase)

/-- A pending run is continued whatever the byte stream holds. -/
theorem step_of_pendingRun {s : State} (ready : s.ready .dPix) (pending : s.run ≠ 0) :
    step s = .next s.afterTurn.runContinuation :=
  (step_of_ready_dPix ready).trans (if_pos pending)

/-- With no run pending, bytes that spell no operation starve the step. -/
theorem starves_of_decode_error {s : State} (ready : s.ready .dPix) (noRun : s.run = 0) {r : DecodeReject}
    (refused : decode s.biq = .error r) : s.Starves := by
  apply starves_of_step
  obtain ⟨t, stepped⟩ := step_next s
  rw [stepped]
  rw [step_of_ready_dPix ready] at stepped
  obtain ⟨pending, -⟩ | ⟨-, i, rest, accepted, -⟩ | ⟨-, -, -, rfl⟩ := decodePixelStep_cases stepped
  · exact absurd noRun pending
  · nomatch refused.symm.trans accepted
  · rfl

/-- The decoder refuses fewer bytes than the first one asks for (R84). -/
theorem decode_of_short {b1 : Byte} {tl : List Byte} (short : tl.length + 1 < (classify b1).length) :
    decode (b1 :: tl) = .error (.truncated (classify b1)) :=
  (operationLengthComesFromTheFirstByte.2 b1 tl _ (classify_length b1)).1 short

theorem starves_of_short {s : State} {b1 : Byte} {tl : List Byte} (ready : s.ready .dPix) (noRun : s.run = 0)
    (bytes : s.biq = b1 :: tl) (short : tl.length + 1 < (classify b1).length) : s.Starves :=
  starves_of_decode_error ready noRun (bytes ▸ decode_of_short short)

/-! The literals, the cache reference and the run. -/

/-- Settles O13: `operationPixel` keeps alpha, and FE asks for four bytes. -/
theorem opRgbKeepsAlphaAndReplacesColour : Obligations.OpRgbKeepsAlphaAndReplacesColour :=
  ⟨fun r g b s => exec_producesPixel (.opRgb r g b) s,
    fun _ _ ready noRun bytes short => starves_of_short ready noRun bytes (Nat.succ_lt_succ short)⟩

/-- Settles O14: `operationPixel` takes all four channels from the operands, and FF asks for five bytes. -/
theorem opRgbaReplacesAllFourChannels : Obligations.OpRgbaReplacesAllFourChannels :=
  ⟨fun r g b a s => exec_producesPixel (.opRgba r g b a) s,
    fun _ _ ready noRun bytes short => starves_of_short ready noRun bytes (Nat.succ_lt_succ short)⟩

/-- Settles O15: the pixel is read from the cache of the state before the write (R135). -/
theorem opIndexReadsTheSlotAndWritesTheHashSlot : Obligations.OpIndexReadsTheSlotAndWritesTheHashSlot :=
  fun slot s => exec_producesPixel (.opIndex slot) s

/-- Settles O18: a length of at most 62 fits in `RUN`. -/
theorem opRunRepeatsPrevAndLoadsTheCount : Obligations.OpRunRepeatsPrevAndLoadsTheCount := by
  intro length s _ le
  obtain ⟨t, executed, run, produced⟩ := exec_producesPixel (.opRun length) s
  refine ⟨t, executed, ?_, produced⟩
  have fits : length - 1 < 2 ^ 6 := by omega
  rw [run, operationRun, BitVec.toNat_ofNat, Nat.mod_eq_of_lt fits]

/-! The deltas. -/

theorem wrap8_toNat (x : Int) : ((wrap8 x).toNat : Int) = x % 256 := by
  rw [wrap8, BitVec.toNat_ofInt]
  exact Int.toNat_of_nonneg (Int.emod_nonneg x (by decide))

/-- Settles O16: the pixel is `offsetPixel` of `PREV`, whose lanes are `wrap8`. -/
theorem opDiffAddsItsDeltasModulo256 : Obligations.OpDiffAddsItsDeltasModulo256 := by
  intro dr dg db s
  obtain ⟨t, executed, run, produced⟩ := exec_producesPixel (.opDiff dr dg db) s
  refine ⟨t, executed, ?_⟩
  rw [produced.prev]
  exact ⟨wrap8_toNat _, wrap8_toNat _, wrap8_toNat _, rfl, run, produced⟩

/-- Settles O17: as OP_DIFF, with the green delta in the offset of every lane; 80..BF asks for two bytes. -/
theorem opLumaAddsGreenAndDifferencesModulo256 : Obligations.OpLumaAddsGreenAndDifferencesModulo256 := by
  refine ⟨fun dg drDg dbDg s => ?pixel, fun s b1 ready noRun bytes tag => ?cut⟩
  case pixel =>
    obtain ⟨t, executed, run, produced⟩ := exec_producesPixel (.opLuma dg drDg dbDg) s
    refine ⟨t, executed, ?_⟩
    rw [produced.prev, add_assoc, add_assoc]
    exact ⟨wrap8_toNat _, wrap8_toNat _, wrap8_toNat _, rfl, run, produced⟩
  case cut =>
    have luma : classify b1 = .luma := classify_eq_luma (by omega) (by omega)
    exact starves_of_short ready noRun bytes (by rw [luma]; decide)

/-! The run continuation. -/

/-- Settles O19: the step is `runContinuation`, which emits `PREV` and writes `RUN` alone besides. -/
theorem runContinuationReadsNothing : Obligations.RunContinuationReadsNothing := by
  intro s ready pending
  refine ⟨_, step_of_pendingRun ready pending, ?_, State.runContinuation_prev _, State.runContinuation_cache _,
    State.runContinuation_biq _, State.runContinuation_bytecount _, runContinuation_emitsPixel s.afterTurn⟩
  rw [State.runContinuation_run, State.afterTurn]
  bv_omega

/-! The end-marker check. -/

theorem engineStep_dEnd {s : State} (low : s.pins.rst = false) (phase : s.phase = .dEnd) :
    engineStep s = .next s.endCheckStep := by
  have busy : s.busy = true := by rw [State.busy, phase]
  rw [engineStep, low, accepts_of_busy busy, phase]
  rfl

theorem step_of_ready_dEnd {s : State} (ready : s.ready .dEnd) : step s = .next s.afterTurn.endCheckStep := by
  obtain ⟨turn, low, phase⟩ := ready
  exact (step_of_engineMoves turn).trans (engineStep_dEnd low phase)

/-- Settles O21: the step is `endCheckStep`, which starves, raises on the wrong eight bytes or ends the job. -/
theorem endMarkerCheckVerdict : Obligations.EndMarkerCheckVerdict := by
  intro s ready
  have stepped := step_of_ready_dEnd ready
  obtain ⟨short, eq⟩ | ⟨enough, wrong, eq⟩ | ⟨enough, right, eq⟩ := s.afterTurn.endCheckStep_cases <;>
    rw [eq] at stepped
  · exact ⟨fun _ => starves_of_step stepped, fun enough => absurd short (Nat.not_lt.mpr enough)⟩
  · exact ⟨fun short => absurd short (Nat.not_lt.mpr enough), fun _ => ⟨_, stepped, ⟨rfl, rfl⟩,
      ⟨rfl, rfl, rfl, rfl, rfl, rfl⟩, ⟨rfl, rfl, rfl, rfl, rfl⟩, ⟨rfl, rfl, rfl, rfl, rfl⟩,
      fun right => absurd right wrong, fun _ => ⟨rfl, rfl⟩⟩⟩
  · exact ⟨fun short => absurd short (Nat.not_lt.mpr enough), fun _ => ⟨_, stepped, ⟨rfl, rfl⟩,
      ⟨rfl, rfl, rfl, rfl, rfl, rfl⟩, ⟨rfl, rfl, rfl, rfl, rfl⟩, ⟨rfl, rfl, rfl, rfl, rfl⟩,
      fun _ => ⟨rfl, rfl⟩, fun wrong => absurd right wrong⟩⟩

end Sys2Proof.Machine
end

section
/-! PROOFS. The encoder of 43_encoder.md: the pixel step by its paths (R182 to R186), the selector (R188 to R191) and the
emission of the stream's frame (R199, R200). -/

namespace Sys2Proof.Machine

/-! An encoder step at the engine's turn (R21). -/

/-- In each phase of an encode job the engine's turn is that phase's step, whatever command is offered (R220). -/
theorem engineStep_encoder {s : State} (low : s.pins.rst = false) :
    (s.phase = .eHdr → engineStep s = .next s.headerEmitStep) ∧
    (s.phase = .ePix → engineStep s = .next s.encodePixelStep) ∧
    (s.phase = .eEnd → engineStep s = .next s.endEmitStep) := by
  refine ⟨fun phase => ?_, fun phase => ?_, fun phase => ?_⟩ <;>
    rw [engineStep, low, accepts_of_busy (by rw [State.busy, phase]), phase] <;> rfl

theorem step_of_ready_encoder (s : State) :
    (s.ready .eHdr → step s = .next s.afterTurn.headerEmitStep) ∧
    (s.ready .ePix → step s = .next s.afterTurn.encodePixelStep) ∧
    (s.ready .eEnd → step s = .next s.afterTurn.endEmitStep) := by
  refine ⟨fun ⟨turn, low, phase⟩ => ?_, fun ⟨turn, low, phase⟩ => ?_, fun ⟨turn, low, phase⟩ => ?_⟩ <;>
    obtain ⟨header, pixel, marker⟩ := engineStep_encoder (s := s.afterTurn) low <;>
    rw [step_of_engineMoves turn]
  exacts [header phase, pixel phase, marker phase]

/-! The emission of the stream's frame. -/

/-- Settles O39: the steps are `headerEmitStep` and `endEmitStep`, whose bytes are 14 and 8. -/
theorem frameEmission : Obligations.FrameEmission := by
  intro s
  obtain ⟨header, -, marker⟩ := step_of_ready_encoder s
  exact ⟨header, marker⟩

/-! The pixel step: what every path shares (R180, R197, R198). -/

/-- Finishing a pixel after a path wrote `RUN` and the cache, the only registers the end of the step does not speak of. -/
theorem finishEncodePixel_consumesPixel {s : State} {px : Pixel} {more : List Pixel} (offered : s.piq = px :: more)
    (run : BitVec 6) (cache : Vector Pixel 64) (out : List Byte) :
    s.ConsumesPixel (({ s.afterTurn.pixIn with run := run, cache := cache } : State).finishEncodePixel out px) px out where
  took := by rw [State.finishEncodePixel_piq, State.pixIn_piq, State.afterTurn, offered, List.tail_cons]
  host := State.finishEncodePixel_host ..
  emitted := State.finishEncodePixel_boq ..
  bytecount := State.finishEncodePixel_bytecount ..
  prev := State.finishEncodePixel_prev ..
  count := State.finishEncodePixel_pixcount ..
  phase_end last := (State.finishEncodePixel_phase ..).trans (if_pos last)
  phase_more more := (State.finishEncodePixel_phase ..).trans (if_neg more)
  rest := ⟨State.finishEncodePixel_params .., State.finishEncodePixel_pins ..,
    ⟨State.finishEncodePixel_width .., State.finishEncodePixel_height .., State.finishEncodePixel_channels ..,
      State.finishEncodePixel_colorspace .., State.finishEncodePixel_npix ..⟩,
    State.finishEncodePixel_err .., State.finishEncodePixel_biq .., State.finishEncodePixel_biClosed ..,
    State.finishEncodePixel_poq ..⟩

/-- The pixel step by the bytes, `RUN` and cache its path leaves. -/
theorem step_consumesPixel {s : State} {px : Pixel} {more : List Pixel} {out : List Byte} {run : BitVec 6}
    {cache : Vector Pixel 64} (ready : s.ready .ePix) (offered : s.piq = px :: more)
    (path : encodePixel px s.afterTurn.pixIn = (out, { s.afterTurn.pixIn with run := run, cache := cache })) :
    ∃ t, step s = .next t ∧ t.run = run ∧ t.cache = cache ∧ s.ConsumesPixel t px out := by
  obtain ⟨-, pixel, -⟩ := step_of_ready_encoder s
  have stepped := pixel ready
  have queue : s.afterTurn.piq = px :: more := offered
  rw [State.encodePixelStep, queue] at stepped
  simp only [path] at stepped
  exact ⟨_, stepped, State.finishEncodePixel_run .., State.finishEncodePixel_cache ..,
    finishEncodePixel_consumesPixel offered run cache out⟩

/-! The bytes a pixel step can emit (R86, R89). -/

theorem encode_opIndex (slot : Slot) : encode (.opIndex slot) = [BitVec.ofNat 8 slot.toNat] := by
  rw [encode, eq_byte_of_toNat (indexByte_toNat slot)]

/-- The flush of a count `l + 1` of at most 62. -/
theorem flushBytes_eq {run : BitVec 6} {l : Nat} (count : run.toNat = l + 1) (bound : l < 62) :
    flushBytes run = [BitVec.ofNat 8 (192 + l)] := by
  rw [flushBytes, count, encode_runByte bound]

/-- The bytes that close a pending run, under the bound of R25. -/
theorem pendingRun_eq {s : State} (bound : s.run.toNat ≤ 61) :
    s.pendingRun = if s.run = 0 then [] else [BitVec.ofNat 8 (192 + (s.run.toNat - 1))] := by
  refine ite_congr rfl (fun _ => rfl) fun pending => flushBytes_eq ?_ (by omega)
  bv_omega

theorem run_le_of_ready_ePix {s : State} (inv : s.Inv) (ready : s.ready .ePix) : s.run.toNat ≤ 61 := by
  obtain ⟨-, -, phase⟩ := ready
  exact inv.run_le (by rw [phase]; decide)

/-! The repeat path (R182, R183). -/

theorem run_succ_toNat {run : BitVec 6} (bound : run.toNat ≤ 61) : (run + 1).toNat = run.toNat + 1 := by
  bv_omega

theorem atLastPixel_iff {s : State} (toCome : s.pixcount.toNat < s.npix.toNat) :
    s.atLastPixel = true ↔ s.pixcount.toNat + 1 = s.npix.toNat := by
  rw [State.atLastPixel, decide_eq_true_iff]
  bv_omega

/-- The two ways of `encodeRepeat`, with its conditions as numbers. -/
theorem encodeRepeat_toNat {s : State} (bound : s.run.toNat ≤ 61) (toCome : s.pixcount.toNat < s.npix.toNat) :
    ((s.run.toNat + 1 = 62 ∨ s.pixcount.toNat + 1 = s.npix.toNat) →
      encodeRepeat s.atLastPixel s = ([BitVec.ofNat 8 (192 + s.run.toNat)], s.setRun 0)) ∧
    ((s.run.toNat + 1 ≠ 62 ∧ s.pixcount.toNat + 1 ≠ s.npix.toNat) →
      encodeRepeat s.atLastPixel s = ([], s.setRun (s.run + 1))) := by
  have counted := run_succ_toNat bound
  have full : s.run + 1 = 62 ↔ s.run.toNat + 1 = 62 := by rw [← counted, ← BitVec.toNat_inj]; rfl
  have last := atLastPixel_iff toCome
  obtain ⟨flushed, eq⟩ | ⟨notFull, notLast, eq⟩ := State.encodeRepeat_cases s.atLastPixel s
  · rw [full, last] at flushed
    refine ⟨fun _ => ?_, fun ⟨notFull, notLast⟩ => (flushed.elim notFull notLast).elim⟩
    rw [eq, flushBytes_eq counted (by omega)]
  · refine ⟨fun flushed => flushed.elim (fun h => absurd (full.mpr h) notFull) fun h => ?_, fun _ => eq⟩
    exact absurd (last.mpr h) (by rw [notLast]; decide)

/-- Settles O30: with `RUN` at most 61 and a pixel to come, neither the new count nor the last index wraps. -/
theorem encodeRepeatCountsOrFlushes : Obligations.EncodeRepeatCountsOrFlushes := by
  intro s px more inv ready offered repeats
  have bound := run_le_of_ready_ePix inv ready
  have ⟨_, _, phase⟩ := ready
  obtain ⟨flushes, counts⟩ := encodeRepeat_toNat (s := s.afterTurn.pixIn) bound (inv.count_lt (.inr phase))
  have path : encodePixel px s.afterTurn.pixIn = encodeRepeat s.afterTurn.pixIn.atLastPixel s.afterTurn.pixIn :=
    if_pos repeats
  by_cases flushed : s.run.toNat + 1 = 62 ∨ s.pixcount.toNat + 1 = s.npix.toNat
  · obtain ⟨t, stepped, run, cache, consumed⟩ := step_consumesPixel ready offered (path.trans (flushes flushed))
    exact ⟨t, stepped, cache, fun _ => ⟨run, consumed⟩, fun not => absurd flushed (not_or.mpr not)⟩
  · obtain ⟨t, stepped, run, cache, consumed⟩ :=
      step_consumesPixel ready offered (path.trans (counts (not_or.mp flushed)))
    exact ⟨t, stepped, cache, fun h => absurd h flushed, fun _ => ⟨run ▸ run_succ_toNat bound, consumed⟩⟩

/-! The other path (R184 to R186). -/

/-- Settles O31: the fresh path on a hit, which writes `RUN` alone. -/
theorem encodeHitEmitsTheSlot : Obligations.EncodeHitEmitsTheSlot := by
  intro s px more inv ready offered fresh hit
  have bound := run_le_of_ready_ePix inv ready
  obtain ⟨-, path⟩ | ⟨miss, -⟩ := State.encodeFresh_cases px s.afterTurn.pixIn
  · rw [pendingRun_eq (s := s.afterTurn.pixIn) bound, encode_opIndex] at path
    obtain ⟨t, stepped, run, cache, consumed⟩ := step_consumesPixel ready offered ((if_neg fresh).trans path)
    exact ⟨t, stepped, cache, run, consumed⟩
  · exact absurd (miss.symm.trans (contains_iff.mpr hit)) (by decide)

/-- Settles O32: the fresh path on a miss, which writes `RUN` and the pixel's hash slot. -/
theorem encodeMissInsertsAndEmitsADelta : Obligations.EncodeMissInsertsAndEmitsADelta := by
  intro s px more inv ready offered fresh miss
  have bound := run_le_of_ready_ePix inv ready
  obtain ⟨hit, -⟩ | ⟨-, path⟩ := State.encodeFresh_cases px s.afterTurn.pixIn
  · exact absurd (contains_iff.mp hit) miss
  · rw [pendingRun_eq (s := s.afterTurn.pixIn) bound] at path
    obtain ⟨t, stepped, run, cache, consumed⟩ := step_consumesPixel ready offered ((if_neg fresh).trans path)
    exact ⟨t, stepped, run, fun j => (State.cacheRead_congr (t := s.cacheWrite (pixelHash px) px) cache j).trans
      (s.cacheRead_cacheWrite (pixelHash px) j px), consumed⟩

/-! The selector (R187 to R191). -/

theorem channelDelta_eq_signedDelta (new old : Byte) : channelDelta new old = signedDelta new old := by
  unfold channelDelta s8 signedDelta chan
  split <;> omega

/-- The selector's chain of conditions on the numbers the channel differences stand for. -/
theorem selectDelta_eq {px p : Pixel} {vr vg vb : Int} (red : vr = signedDelta px.r p.r)
    (green : vg = signedDelta px.g p.g) (blue : vb = signedDelta px.b p.b) : selectDelta px p =
    if px.a = p.a then
      if (-2 ≤ vr ∧ vr ≤ 1) ∧ (-2 ≤ vg ∧ vg ≤ 1) ∧ (-2 ≤ vb ∧ vb ≤ 1) then .opDiff vr vg vb
      else if (-32 ≤ vg ∧ vg ≤ 31) ∧ (-8 ≤ vr - vg ∧ vr - vg ≤ 7) ∧ (-8 ≤ vb - vg ∧ vb - vg ≤ 7) then
        .opLuma vg (vr - vg) (vb - vg)
      else .opRgb px.r px.g px.b
    else .opRgba px.r px.g px.b px.a := by
  simp only [selectDelta, channelDelta_eq_signedDelta, ← red, ← green, ← blue, Bool.and_eq_true, inRange_iff, and_assoc]

theorem eq_ofInt_of_toNat {b : Byte} {x : Int} (h : (b.toNat : Int) = x) : b = BitVec.ofInt 8 x := by
  rw [← h, BitVec.ofInt_natCast, BitVec.ofNat_toNat, BitVec.setWidth_eq]

theorem encode_opDiff {dr dg db : Int} (hr : -2 ≤ dr ∧ dr ≤ 1) (hg : -2 ≤ dg ∧ dg ≤ 1) (hb : -2 ≤ db ∧ db ≤ 1) :
    encode (.opDiff dr dg db) = [BitVec.ofInt 8 (64 + 16 * (dr + 2) + 4 * (dg + 2) + (db + 2))] := by
  rw [encode, eq_ofInt_of_toNat (diffByte_toNat hr hg hb)]

theorem encode_opLuma {dg r b : Int} (hg : -32 ≤ dg ∧ dg ≤ 31) (hr : -8 ≤ r ∧ r ≤ 7) (hb : -8 ≤ b ∧ b ≤ 7) :
    encode (.opLuma dg r b) = [BitVec.ofInt 8 (128 + (dg + 32)), BitVec.ofInt 8 (16 * (r + 8) + (b + 8))] := by
  rw [encode, eq_ofInt_of_toNat (lumaByte1_toNat hg), eq_ofInt_of_toNat (lumaByte2_toNat hr hb)]

/-- Settles O33: each clause follows the chain of `selectDelta_eq` to its operation, and takes that operation's bytes. -/
theorem deltaSelectionConditions : Obligations.DeltaSelectionConditions := by
  intro px p vr vg vb red green blue
  rw [selectDelta_eq red green blue]
  refine ⟨fun changed => ?rgba, fun same => ?_⟩
  case rgba => rw [if_neg changed]; rfl
  rw [if_pos same]
  refine ⟨fun ⟨hr, hg, hb⟩ => ?diff, fun large => ?_⟩
  case diff => rw [if_pos ⟨hr, hg, hb⟩, encode_opDiff hr hg hb]
  rw [if_neg large]
  refine ⟨fun ⟨hg, hr, hb⟩ => ?luma, fun far => ?rgb⟩
  case luma => rw [if_pos ⟨hg, hr, hb⟩, encode_opLuma hg hr hb]
  case rgb => rw [if_neg far]; rfl

end Sys2Proof.Machine
end

section
/-! PROOFS. Job control of 44_job_control.md: the acceptance of a command (R220) and the job start (R222, R223). -/

namespace Sys2Proof.Machine

/-! The acceptance of a command at the engine's turn. -/

theorem accepts_of_offered {s : State} (free : s.busy = false) (valid : s.pins.cmdValid = true) (notNop : s.pins.cmd ≠ 0) :
    s.accepts = true := by
  rw [State.accepts, valid, free, decide_eq_true notNop]
  rfl

theorem engineStep_of_accepts {s : State} (low : s.pins.rst = false) (accepts : s.accepts = true) :
    engineStep s = .next s.jobStart := by
  rw [engineStep, low, accepts]
  rfl

theorem step_of_accepts {s : State} (turn : s.engineMoves = true) (low : s.pins.rst = false) (accepts : s.accepts = true) :
    step s = .next s.afterTurn.jobStart :=
  (step_of_engineMoves turn).trans (engineStep_of_accepts low accepts)

/-! What every command's job start leaves (R222). -/

/-- After the initializations a job start writes only the header registers, `ERR` and `PHASE`, whatever the command. -/
theorem jobStart_eq_initJob_update (s : State) :
    ∃ hd err phase, s.jobStart = { s.initJob.setHeader hd with err := err, phase := phase } := by
  obtain ⟨-, -, eq⟩ | ⟨-, -, -, eq⟩ | ⟨-, eq⟩ := s.jobStart_cases <;> exact ⟨_, _, _, eq⟩

theorem jobStart_freshJob (s : State) : s.jobStart.FreshJob := by
  obtain ⟨hd, err, phase, eq⟩ := jobStart_eq_initJob_update s
  rw [eq]
  exact ⟨rfl, rfl, s.initJob_cacheRead, rfl, rfl⟩

theorem jobStart_empties_inputs (s : State) :
    s.jobStart.biq = [] ∧ s.jobStart.biClosed = false ∧ s.jobStart.piq = [] := by
  obtain ⟨hd, err, phase, eq⟩ := jobStart_eq_initJob_update s
  rw [eq]
  exact ⟨rfl, rfl, rfl⟩

theorem jobStart_keeps_outputs_and_host (s : State) :
    s.jobStart.poq = s.poq ∧ s.jobStart.boq = s.boq ∧ s.jobStart.params = s.params ∧ s.jobStart.pins = s.pins ∧
      s.jobStart.host = s.host := by
  obtain ⟨hd, err, phase, eq⟩ := jobStart_eq_initJob_update s
  rw [eq]
  exact ⟨rfl, rfl, rfl, rfl, rfl⟩

/-! The obligation. -/

/-- Settles O40: the step is `jobStart`, which shares its initializations among all commands and differs in the header
registers, `ERR` and `PHASE` by the cases of `jobStart_cases`. -/
theorem jobStartInitializesEverything : Obligations.JobStartInitializesEverything := by
  intro s turn low free valid notNop
  obtain ⟨biq, biClosed, piq⟩ := jobStart_empties_inputs s.afterTurn
  obtain ⟨poq, boq, params, pins, host⟩ := jobStart_keeps_outputs_and_host s.afterTurn
  refine ⟨_, step_of_accepts turn low (accepts_of_offered free valid notNop), jobStart_freshJob s.afterTurn,
    biq, biClosed, piq, poq, boq, params, pins, host, ?_⟩
  have neither : s.pins.cmd = 2 → ¬ (s.pins.cmd = 1 ∨ s.pins.cmd = 3) := fun encode => by rw [encode]; decide
  obtain ⟨encode, zero, eq⟩ | ⟨encode, width, height, eq⟩ | ⟨other, eq⟩ := s.afterTurn.jobStart_cases <;> rw [eq]
  case inl =>
    exact ⟨fun decodes => absurd decodes (neither encode), fun _ => ⟨rfl, rfl, rfl, rfl, pixelTotal_toNat ..,
      fun _ => ⟨rfl, rfl⟩, fun ⟨width, height⟩ => (zero.elim width height).elim⟩⟩
  case inr.inl =>
    exact ⟨fun decodes => absurd decodes (neither encode), fun _ => ⟨rfl, rfl, rfl, rfl, pixelTotal_toNat ..,
      fun zero => (zero.elim width height).elim, fun _ => ⟨rfl, rfl⟩⟩⟩
  case inr.inr =>
    exact ⟨fun _ => ⟨rfl, rfl, rfl, rfl, rfl, rfl, rfl⟩, fun encode => absurd encode other⟩

end Sys2Proof.Machine
end

section
/-! PROOFS. Reset over everything (70_reset_and_hazards.md R270): the engine's turn with `rst` high and the host's raising
of `rst` are one update, `resetEngine`. -/

namespace Sys2Proof.Machine

/-! The two ways to the reset. -/

theorem engineStep_of_rst {s : State} (high : s.pins.rst = true) : engineStep s = .next s.resetEngine := by
  rw [engineStep, high]
  rfl

theorem hostMove_rst_high (s : State) :
    s.hostMove (.rst true) = ({ s with pins := { s.pins with rst := true } } : State).resetEngine := rfl

/-! What the reset leaves. -/

theorem resetEngine_busy (s : State) : s.resetEngine.busy = false := rfl

theorem resetEngine_cmdReady (s : State) : s.resetEngine.cmdReady = true := rfl

theorem resetEngine_status (s : State) : s.resetEngine.status = 0 := by
  rw [State.status, State.resetEngine_err, resetEngine_busy, State.errorBit, State.doneBit, State.resetEngine_phase]
  decide

/-- The state `t` is a reset of `s`: every register R40 gives a value has that value, and what `s` had output stays.
`PREV`, `RUN` and `CACHE` are unspecified by R40. -/
def State.IsResetOf (t s : State) : Prop :=
  t.phase = .idle ∧ t.err = 0 ∧ t.width = 0 ∧ t.height = 0 ∧ t.channels = 0 ∧ t.colorspace = 0 ∧
    t.npix = 0 ∧ t.pixcount = 0 ∧ t.bytecount = 0 ∧ t.biq = [] ∧ t.biClosed = false ∧ t.piq = [] ∧
    t.poq = s.poq ∧ t.boq = s.boq ∧ t.params = s.params ∧ t.pins.rst = true ∧ t.status = 0 ∧ t.cmdReady = true

theorem resetEngine_isResetOf {s u : State} (high : u.pins.rst = true) (poq : u.poq = s.poq) (boq : u.boq = s.boq)
    (params : u.params = s.params) : u.resetEngine.IsResetOf s := by
  simp [State.IsResetOf, high, poq, boq, params, resetEngine_status, resetEngine_cmdReady]

/-! The obligation. -/

/-- Settles O50: the step is `resetEngine`, at the engine's turn of the state after the turn, at the host's move of the
state with `rst` raised; both have the outputs and the parameters of `s`. -/
theorem resetOverridesEverything : Obligations.ResetOverridesEverything := by
  rintro s (⟨turn, high⟩ | ⟨rest, raises⟩)
  case inl =>
    exact ⟨_, (step_of_engineMoves turn).trans (engineStep_of_rst high), resetEngine_isResetOf high rfl rfl rfl⟩
  case inr =>
    have stepEq := step_hostMove raises nofun
    rw [hostMove_rst_high] at stepEq
    exact ⟨_, stepEq, resetEngine_isResetOf rfl rfl rfl rfl⟩

end Sys2Proof.Machine
end

section
/-! PROOFS. Decoding and encoding are inverse to each other (30_encoding.md sections 2 and 3). -/

namespace Sys2Proof

/-! Decoding what was encoded, format by format: each operand is written as its field minus its bias. -/

theorem decode_encode_opDiff {dr dg db : Int} (hr : -2 ≤ dr ∧ dr ≤ 1) (hg : -2 ≤ dg ∧ dg ≤ 1) (hb : -2 ≤ db ∧ db ≤ 1)
    (rest : List Byte) : decode (encode (.opDiff dr dg db) ++ rest) = .ok (.opDiff dr dg db, rest) := by
  obtain ⟨r, rfl⟩ : ∃ r : Nat, dr = r - 2 := ⟨(dr + 2).toNat, by omega⟩
  obtain ⟨g, rfl⟩ : ∃ g : Nat, dg = g - 2 := ⟨(dg + 2).toNat, by omega⟩
  obtain ⟨b, rfl⟩ : ∃ b : Nat, db = b - 2 := ⟨(db + 2).toNat, by omega⟩
  rw [encode_diffByte (by omega) (by omega) (by omega)]
  exact decode_diffByte (by omega) (by omega) (by omega) rest

theorem decode_encode_opLuma {dg r b : Int} (hg : -32 ≤ dg ∧ dg ≤ 31) (hr : -8 ≤ r ∧ r ≤ 7) (hb : -8 ≤ b ∧ b ≤ 7)
    (rest : List Byte) : decode (encode (.opLuma dg r b) ++ rest) = .ok (.opLuma dg r b, rest) := by
  obtain ⟨dg, rfl⟩ : ∃ n : Nat, dg = n - 32 := ⟨(dg + 32).toNat, by omega⟩
  obtain ⟨r, rfl⟩ : ∃ n : Nat, r = n - 8 := ⟨(r + 8).toNat, by omega⟩
  obtain ⟨b, rfl⟩ : ∃ n : Nat, b = n - 8 := ⟨(b + 8).toNat, by omega⟩
  rw [encode_lumaBytes (by omega) (by omega) (by omega)]
  exact decode_lumaBytes (by omega) (by omega) (by omega) rest

theorem decode_encode_opRun {length : Nat} (pos : 1 ≤ length) (le : length ≤ 62) (rest : List Byte) :
    decode (encode (.opRun length) ++ rest) = .ok (.opRun length, rest) := by
  obtain ⟨l, rfl⟩ := Nat.exists_eq_add_of_le' pos
  rw [encode_runByte (by omega)]
  exact decode_runByte (by omega) rest

theorem decode_encode_opIndex (slot : Slot) (rest : List Byte) :
    decode (encode (.opIndex slot) ++ rest) = .ok (.opIndex slot, rest) := by
  rw [Machine.encode_opIndex]
  simpa using decode_indexByte slot.isLt rest

/-- Decoding the encoding of a well-formed operation gives it back, and the bytes after it. -/
theorem decode_encode {i : Instr} (wf : i.wellFormed = true) (rest : List Byte) :
    decode (encode i ++ rest) = .ok (i, rest) := by
  cases i with
  | opRgb r g b => rfl
  | opRgba r g b a => rfl
  | opIndex slot => exact decode_encode_opIndex slot rest
  | opDiff dr dg db =>
    simp only [Instr.wellFormed, Bool.and_eq_true, inRange_iff] at wf
    exact decode_encode_opDiff wf.1.1 wf.1.2 wf.2 rest
  | opLuma dg drDg dbDg =>
    simp only [Instr.wellFormed, Bool.and_eq_true, inRange_iff] at wf
    exact decode_encode_opLuma wf.1.1 wf.1.2 wf.2 rest
  | opRun length =>
    simp only [Instr.wellFormed, Bool.and_eq_true, decide_eq_true_eq] at wf
    exact decode_encode_opRun wf.1 wf.2 rest

/-- Settles O1: format by format, by the bytes of each operation as numbers. -/
theorem decodeOfEncodeIsTheInstruction : Obligations.DecodeOfEncodeIsTheInstruction :=
  fun _ rest wf => decode_encode wf rest

/-! Encoding what was decoded, format by format: the fields of a byte add up to it. -/

theorem encode_indexSlot {b1 : Byte} (hi : b1.toNat < 64) : encode (.opIndex (indexSlot b1)) = [b1] := by
  rw [indexSlot, bits_5_0, Nat.mod_eq_of_lt hi, encode_indexByte hi, ← eq_byte_of_toNat rfl]

theorem encode_decodeDiff {b1 : Byte} (lo : 64 ≤ b1.toNat) (hi : b1.toNat < 128) : encode (decodeDiff b1) = [b1] := by
  rw [decodeDiff, bits_5_4, bits_3_2, bits_1_0, encode_diffByte (by omega) (by omega) (by omega),
    ← eq_byte_of_toNat (b := b1) (by omega)]

theorem encode_decodeLuma {b1 : Byte} (b2 : Byte) (lo : 128 ≤ b1.toNat) (hi : b1.toNat < 192) :
    encode (decodeLuma b1 b2) = [b1, b2] := by
  have := b2.isLt
  rw [decodeLuma, bits_5_0, bits_7_4, bits_3_0, encode_lumaBytes (by omega) (by omega) (by omega),
    ← eq_byte_of_toNat (b := b1) (by omega), ← eq_byte_of_toNat (b := b2) (by omega)]

theorem encode_decodeRun {b1 : Byte} (lo : 192 ≤ b1.toNat) (hi : b1.toNat < 254) : encode (decodeRun b1) = [b1] := by
  rw [decodeRun, bits_5_0, encode_runByte (by omega), ← eq_byte_of_toNat (b := b1) (by omega)]

/-- The six kinds of first byte (R90), by number. -/
theorem firstByte_cases (b1 : Byte) :
    b1 = 0xFE ∨ b1 = 0xFF ∨ b1.toNat < 64 ∨ (64 ≤ b1.toNat ∧ b1.toNat < 128) ∨
      (128 ≤ b1.toNat ∧ b1.toNat < 192) ∨ (192 ≤ b1.toNat ∧ b1.toNat < 254) := by
  bv_omega

/-- What the decoder accepts is the encoding of its result. -/
theorem encode_of_decode {bs rest : List Byte} {i : Instr} (h : decode bs = .ok (i, rest)) : bs = encode i ++ rest := by
  cases bs with
  | nil => nomatch h
  | cons b1 tl =>
    obtain rfl | rfl | hi | ⟨lo, hi⟩ | ⟨lo, hi⟩ | ⟨lo, hi⟩ := firstByte_cases b1
    case inl =>
      match tl, h with
      | _ :: _ :: _ :: _, rfl => rfl
    case inr.inl =>
      match tl, h with
      | _ :: _ :: _ :: _ :: _, rfl => rfl
    case inr.inr.inl =>
      obtain ⟨rfl, rfl⟩ := Prod.mk.inj (Except.ok.inj ((decode_index hi tl).symm.trans h))
      rw [encode_indexSlot hi, List.singleton_append]
    case inr.inr.inr.inl =>
      obtain ⟨rfl, rfl⟩ := Prod.mk.inj (Except.ok.inj ((decode_diff lo hi tl).symm.trans h))
      rw [encode_decodeDiff lo hi, List.singleton_append]
    case inr.inr.inr.inr.inl =>
      cases tl with
      | nil => simp only [decode, classify_eq_luma lo hi, reduceCtorEq] at h
      | cons b2 tl =>
        obtain ⟨rfl, rfl⟩ := Prod.mk.inj (Except.ok.inj ((decode_luma lo hi b2 tl).symm.trans h))
        rw [encode_decodeLuma b2 lo hi]
        rfl
    case inr.inr.inr.inr.inr =>
      obtain ⟨rfl, rfl⟩ := Prod.mk.inj (Except.ok.inj ((decode_run lo hi tl).symm.trans h))
      rw [encode_decodeRun lo hi, List.singleton_append]

/-- Settles O2: the operands read are in range (`decode_ok_facts`), and the fields of each format add up to its bytes. -/
theorem decodedBytesAreTheEncodingOfTheResult : Obligations.DecodedBytesAreTheEncodingOfTheResult := by
  intro bs rest i h
  obtain ⟨wf, -⟩ := decode_ok_facts h
  exact ⟨wf, encode_of_decode h⟩

/-- Settles O6: the six byte lists are written out, and the decoder computes on them. -/
theorem specWordsDecodeToTheirOperations : Obligations.SpecWordsDecodeToTheirOperations :=
  ⟨rfl, rfl, rfl, rfl, rfl, rfl⟩

end Sys2Proof
end

section
/-! PROOFS. The pixel words of 20_memory.md (R62) and the hash adder of 41_color_cache.md (R131). -/

namespace Sys2Proof.Machine

/-! Pixel words (R62). -/

/-- A pixel word is the big-endian word of the four channels. -/
theorem packPixel_toNat (px : Pixel) : (packPixel px).toNat = bigEndianNat px.r px.g px.b px.a :=
  ofBigEndian32_toNat px.r px.g px.b px.a

theorem unpackPixel_packPixel (px : Pixel) : unpackPixel (packPixel px) = px := by
  have red := px.r.isLt
  have green := px.g.isLt
  have blue := px.b.isLt
  have alpha := px.a.isLt
  rw [pixel_eq_iff]
  simp only [unpackPixel, ← BitVec.toNat_inj, BitVec.extractLsb'_toNat, packPixel_toNat, bigEndianNat,
    Nat.shiftRight_eq_div_pow]
  omega

theorem packPixel_unpackPixel (w : Word32) : packPixel (unpackPixel w) = w := ofBigEndian32_bigEndian32 w

/-- Settles O8: the word is `ofBigEndian32` of the channels. -/
theorem pixelWordsPackRgba : Obligations.PixelWordsPackRgba :=
  ⟨packPixel_toNat, unpackPixel_packPixel, packPixel_unpackPixel⟩

/-! The hash adder (R131). -/

/-- Settles O10: cutting to six bits commutes with the sum and the products, so only the low six bits of any operand count. -/
theorem hashAdderMayBeAnyWidthFromSixBits : Obligations.HashAdderMayBeAnyWidthFromSixBits := by
  intro n px wide
  simp only [BitVec.setWidth_add _ _ wide, BitVec.setWidth_mul _ _ wide, BitVec.setWidth_setWidth_of_le _ wide,
    BitVec.ofNat_eq_ofNat, BitVec.setWidth_ofNat_of_le wide]
  simp only [pixelHash, hashSum, BitVec.ofNat_add, BitVec.ofNat_mul, BitVec.ofNat_toNat]

end Sys2Proof.Machine
end

section
/-! PROOFS. The assembler of 30_encoding.md section 4 (R95, R96): REPEAT, the operand ranges and the pseudo-operations. -/

namespace Sys2Proof.Machine

/-- The lengths of the runs of `REPEAT n`. -/
def repeatLengths (n : Nat) : List Nat := List.replicate (n / 62) 62 ++ (if n % 62 > 0 then [n % 62] else [])

theorem repeatOps_eq (n : Nat) : repeatOps n = (repeatLengths n).map .opRun := by
  rw [repeatOps, repeatLengths, List.map_append, List.map_replicate]
  split <;> rfl

theorem repeatLengths_sum (n : Nat) : (repeatLengths n).sum = n := by
  rw [repeatLengths, List.sum_append, List.sum_replicate, smul_eq_mul]
  split <;> simp only [List.sum_singleton, List.sum_nil] <;> omega

theorem mem_repeatLengths {n l : Nat} (h : l ∈ repeatLengths n) : 1 ≤ l ∧ l ≤ 62 := by
  rw [repeatLengths, List.mem_append, List.mem_replicate] at h
  obtain ⟨-, rfl⟩ | h := h
  · decide
  · split at h
    · next pos =>
      obtain rfl := List.mem_singleton.mp h
      omega
    · nomatch h

theorem mem_repeatLengths_dropLast {n l : Nat} (h : l ∈ (repeatLengths n).dropLast) : l = 62 := by
  rw [repeatLengths] at h
  split at h
  · rw [List.dropLast_concat] at h
    exact List.eq_of_mem_replicate h
  · rw [List.append_nil] at h
    exact List.eq_of_mem_replicate (List.mem_of_mem_dropLast h)

theorem repeatLengths_length (n : Nat) : (repeatLengths n).length = (n + 61) / 62 := by
  rw [repeatLengths, List.length_append, List.length_replicate]
  split <;> simp only [List.length_singleton, List.length_nil] <;> omega

theorem encode_opRun {l : Nat} (h : 1 ≤ l ∧ l ≤ 62) : encode (.opRun l) = [BitVec.ofNat 8 (192 + (l - 1))] := by
  obtain ⟨k, rfl⟩ := Nat.exists_eq_add_of_le' h.1
  exact encode_runByte (by omega)

/-- Runs within the range of R95 take one byte each. -/
theorem flatMap_encode_opRun {lengths : List Nat} (h : ∀ l ∈ lengths, 1 ≤ l ∧ l ≤ 62) :
    (lengths.map Instr.opRun).flatMap encode = lengths.map fun l => BitVec.ofNat 8 (192 + (l - 1)) := by
  rw [List.flatMap_map, List.map_eq_flatMap]
  exact List.flatMap_congr fun l mem => encode_opRun (h l mem)

/-- Settles O59: the lengths are `repeatLengths n`, each within 1..62, so each is one byte. -/
theorem repeatExpandsToRunsOfItsTotal : Obligations.RepeatExpandsToRunsOfItsTotal := by
  intro p n pos
  have bytes := flatMap_encode_opRun (lengths := repeatLengths n) fun l => mem_repeatLengths
  rw [← repeatOps_eq] at bytes
  refine ⟨repeatLengths n, repeatOps_eq n, repeatLengths_sum n, fun l => mem_repeatLengths,
    fun l => mem_repeatLengths_dropLast, _, if_pos pos, rfl, bytes, ?_⟩
  rw [bytes, List.length_map, repeatLengths_length]

theorem assembleOp_eq_none {i : Instr} : assembleOp i = none ↔ i.wellFormed = false := by
  rw [assembleOp]
  cases i.wellFormed <;> simp

theorem decode_of_assembleOp {i : Instr} {bytes : List Byte} (h : assembleOp i = some bytes) : decode bytes = .ok (i, []) := by
  obtain ⟨wf, ⟨⟩⟩ := Option.ite_none_right_eq_some.mp h
  simpa using decode_encode wf []

/-- `s8` is the one number in -128..127 of its class modulo 256 (R8). -/
theorem s8_eq {x y : Int} (h : (x - y) % 256 = 0) (range : -128 ≤ y ∧ y ≤ 127) : s8 x = y := by
  rw [s8]
  split <;> omega

theorem assemble_header (p : Params) (w h : Word32) (ch cs : Byte) : assemble p (.header w h ch cs) = some
    [p.magic0, p.magic1, p.magic2, p.magic3,
     BitVec.ofNat 8 (w.toNat / 2 ^ 24), BitVec.ofNat 8 (w.toNat / 2 ^ 16), BitVec.ofNat 8 (w.toNat / 2 ^ 8),
     BitVec.ofNat 8 w.toNat,
     BitVec.ofNat 8 (h.toNat / 2 ^ 24), BitVec.ofNat 8 (h.toNat / 2 ^ 16), BitVec.ofNat 8 (h.toNat / 2 ^ 8),
     BitVec.ofNat 8 h.toNat, ch, cs] := by
  rw [assemble, bigEndian32_eq, bigEndian32_eq]
  rfl

/-- Settles O60: operations by `decode_encode`, OP_DIFFW by `s8_eq`, HEADER by its four operands. -/
theorem assemblerRefusesOperandsOutOfRange : Obligations.AssemblerRefusesOperandsOutOfRange := by
  intro p
  refine ⟨fun i => ⟨assembleOp_eq_none, fun bytes => decode_of_assembleOp⟩,
    fun dr dg db dr' dg' db' congR congG congB rangeR rangeG rangeB => ?diffw, fun w h ch cs => ?refused,
    fun w h ch cs => ⟨?spelled, assemble_header p w h ch cs⟩, rfl, rfl⟩
  case diffw =>
    change assembleOp (.opDiff (s8 dr) (s8 dg) (s8 db)) = assembleOp (.opDiff dr' dg' db')
    rw [s8_eq congR rangeR, s8_eq congG rangeG, s8_eq congB rangeB]
  case refused =>
    simp only [spellHeader_eq_none, unsignedOperand_eq_none, not_and_or]
    norm_num
  case spelled =>
    exact spellHeader_of_operands (unsignedOperand_toNat w) (unsignedOperand_toNat h) (unsignedOperand_toNat ch)
      (unsignedOperand_toNat cs)

end Sys2Proof.Machine
end

section
/-! PROOFS. The reconstructor of 42_decoder.md section 3: its lanes, and the cache at a run continuation. -/

namespace Sys2Proof.Machine

/-! The lanes (R163). -/

theorem prev_of_exec {i : Instr} {s t : State} (h : exec i s = .next t) : t.prev = operationPixel i s := by
  obtain ⟨u, executed, -, produced⟩ := exec_producesPixel i s
  obtain rfl := Host.Outcome.next.inj (executed.symm.trans h)
  exact produced.prev

/-- But for OP_INDEX, each channel an operation makes is a function of that channel of `PREV`. -/
theorem operationPixel_lanes {i : Instr} (notIndex : ∀ slot, i ≠ .opIndex slot) (s1 s2 : State) :
    (s1.prev.r = s2.prev.r → (operationPixel i s1).r = (operationPixel i s2).r) ∧
    (s1.prev.g = s2.prev.g → (operationPixel i s1).g = (operationPixel i s2).g) ∧
    (s1.prev.b = s2.prev.b → (operationPixel i s1).b = (operationPixel i s2).b) ∧
    (s1.prev.a = s2.prev.a → (operationPixel i s1).a = (operationPixel i s2).a) := by
  cases i with
  | opRgb r g b => exact ⟨fun _ => rfl, fun _ => rfl, fun _ => rfl, id⟩
  | opRgba r g b a => exact ⟨fun _ => rfl, fun _ => rfl, fun _ => rfl, fun _ => rfl⟩
  | opIndex slot => exact absurd rfl (notIndex slot)
  | opDiff dr dg db =>
    exact ⟨congrArg (wrap8 <| chan · + dr), congrArg (wrap8 <| chan · + dg), congrArg (wrap8 <| chan · + db), id⟩
  | opLuma dg drDg dbDg =>
    exact ⟨congrArg (wrap8 <| chan · + (dg + drDg)), congrArg (wrap8 <| chan · + dg),
      congrArg (wrap8 <| chan · + (dg + dbDg)), id⟩
  | opRun length => exact ⟨id, id, id, id⟩

/-- But for OP_RGBA and OP_INDEX, an operation keeps the alpha of `PREV`. -/
theorem operationPixel_alpha {i : Instr} (notIndex : ∀ slot, i ≠ .opIndex slot) (notRgba : ∀ r g b a, i ≠ .opRgba r g b a)
    (s : State) : (operationPixel i s).a = s.prev.a := by
  cases i with
  | opRgba r g b a => exact absurd rfl (notRgba r g b a)
  | opIndex slot => exact absurd rfl (notIndex slot)
  | opRgb | opDiff | opLuma | opRun => rfl

/-- Settles O22: what is in `PREV` after an operation is the pixel it makes. -/
theorem lanesAreIndependent : Obligations.LanesAreIndependent := by
  intro i s1 s2 t1 t2 executed1 executed2
  rw [prev_of_exec executed1, prev_of_exec executed2]
  exact ⟨fun notIndex => operationPixel_lanes notIndex s1 s2, fun notIndex notRgba => operationPixel_alpha notIndex notRgba s1⟩

/-! The cache at a run continuation (R166). -/

/-- Writing what a slot already holds changes nothing. -/
theorem cacheWrite_eq_self {s : State} {i : Slot} {px : Pixel} (held : s.cacheRead i = px) : s.cacheWrite i px = s := by
  have same : s.cache.set i.toNat px i.isLt = s.cache := by
    subst held
    exact Vector.set_getElem_self i.isLt
  rw [State.cacheWrite, same]

/-- Settles O23: a pending run is not the first pixel, so the invariant has `PREV` in the cache. -/
theorem continuationCacheWriteWouldChangeNothing : Obligations.ContinuationCacheWriteWouldChangeNothing :=
  fun _ inv phase pending => cacheWrite_eq_self (inv.prev_cached phase fun first => pending (inv.run_after_first phase first))

end Sys2Proof.Machine
end

section
/-! PROOFS. The header of 40_header_codec.md (R110, R115, R116): serialized and parsed, and after a failed header step. -/

namespace Sys2Proof.Machine

/-- Parsing a serialized header under an equal MAGIC gives its dimensions, four channels and colorspace 0. -/
theorem parseHeader_serializeHeader {p q : Params} {w h : Word32} (width : w ≠ 0) (height : h ≠ 0) (magic : p.magic = q.magic) :
    parseHeader q (serializeHeader p w h) = .ok ⟨w, h, 4, 0⟩ := by
  have first : (serializeHeader p w h).take 4 = q.magic := magic
  have channels : (serializeHeader p w h).getD 12 0 = 4 := rfl
  have colorspace : (serializeHeader p w h).getD 13 0 = 0 := rfl
  simp only [parseHeader, first, serializeHeader_width, serializeHeader_height, channels, colorspace]
  rw [if_neg (not_not.mpr rfl), if_neg (not_or.mpr ⟨width, height⟩), if_neg (by decide), if_neg fun h => h.2.1 rfl]

/-- Settles O29: each check of the parser passes on the bytes the serializer puts there. -/
theorem parseOfSerializeGivesTheDimensions : Obligations.ParseOfSerializeGivesTheDimensions :=
  fun _ _ _ _ => parseHeader_serializeHeader

/-- A header step that ends in ERROR keeps the header registers and the per-image state (R113). -/
theorem keeps_of_headerError {s t : State} (ready : s.ready .dHdr ∨ s.ready .pHdr) (stepped : step s = .next t)
    (error : t.phase = .error) : s.KeepsHeader t ∧ s.KeepsPixels t := by
  obtain ⟨short, enough⟩ := headerStepConsumesFourteenBytes s ready
  by_cases length : s.biq.length < 14
  · cases closed : s.biClosed
    case false =>
      obtain rfl := Host.Outcome.next.inj (stepped.symm.trans ((short length).held closed))
      obtain ⟨-, -, phase⟩ | ⟨-, -, phase⟩ := ready <;> exact absurd (phase.symm.trans error) (by decide)
    case true =>
      obtain ⟨u, stepped', -, -, -, -, header, pixels⟩ := (short length).raised closed
      obtain rfl := Host.Outcome.next.inj (stepped.symm.trans stepped')
      exact ⟨header, pixels⟩
  · obtain ⟨u, stepped', -, -, pixels, accepted, rejected⟩ := enough (Nat.not_lt.mp length)
    obtain rfl := Host.Outcome.next.inj (stepped.symm.trans stepped')
    cases parsed : parseHeader s.params (s.biq.take 14) with
    | error e => exact ⟨(rejected e parsed).1, pixels⟩
    | ok hd =>
      obtain ⟨-, -, -, -, -, -, decode, peek⟩ := accepted hd parsed
      obtain ⟨-, -, phase⟩ | ⟨-, -, phase⟩ := ready
      · exact absurd ((decode phase).symm.trans error) (by decide)
      · exact absurd ((peek phase).symm.trans error) (by decide)

/-- Settles O27: the registers are those before the step, which the invariant has at 0 while the header is pending. -/
theorem headerErrorLeavesZeroOutputs : Obligations.HeaderErrorLeavesZeroOutputs := by
  intro s t inv ready stepped error
  obtain ⟨header, pixels⟩ := keeps_of_headerError ready stepped error
  obtain ⟨width, height, channels, colorspace, npix⟩ := inv.header_pending (ready.imp (·.2.2) (·.2.2))
  exact ⟨header.width.trans width, header.height.trans height, header.channels.trans channels,
    header.colorspace.trans colorspace, header.npix.trans npix, pixels⟩

end Sys2Proof.Machine
end

section
/-! PROOFS. The delta selector of 43_encoder.md against the meanings of 42_decoder.md: the selected operation makes its pixel,
no other delta or literal does so in fewer bytes, and none is emitted in vain. -/

namespace Sys2Proof.Machine

/-! Channel differences (R187) and the offsets that undo them (R155). -/

theorem wrap8_add_signedDelta (new old : Byte) : wrap8 (chan old + signedDelta new old) = new := by
  have := new.isLt
  have number := wrap8_toNat (chan old + signedDelta new old)
  apply BitVec.eq_of_toNat_eq
  unfold chan signedDelta at *
  omega

theorem signedDelta_wrap8 {old : Byte} {d : Int} (range : -128 ≤ d ∧ d ≤ 127) :
    signedDelta (wrap8 (chan old + d)) old = d := by
  rw [signedDelta, wrap8_toNat, chan]
  omega

theorem eq_of_signedDelta_eq_zero {new old : Byte} (h : signedDelta new old = 0) : new = old := by
  have := new.isLt
  have := old.isLt
  apply BitVec.eq_of_toNat_eq
  unfold signedDelta at h
  omega

/-- The three differences of `px` against `p` are operands of OP_DIFF (R188). -/
def DiffFits (px p : Pixel) : Prop :=
  (-2 ≤ signedDelta px.r p.r ∧ signedDelta px.r p.r ≤ 1) ∧ (-2 ≤ signedDelta px.g p.g ∧ signedDelta px.g p.g ≤ 1) ∧
    (-2 ≤ signedDelta px.b p.b ∧ signedDelta px.b p.b ≤ 1)

/-- The green difference of `px` against `p` and the two others less it are operands of OP_LUMA (R189). -/
def LumaFits (px p : Pixel) : Prop :=
  (-32 ≤ signedDelta px.g p.g ∧ signedDelta px.g p.g ≤ 31) ∧
    (-8 ≤ signedDelta px.r p.r - signedDelta px.g p.g ∧ signedDelta px.r p.r - signedDelta px.g p.g ≤ 7) ∧
    (-8 ≤ signedDelta px.b p.b - signedDelta px.g p.g ∧ signedDelta px.b p.b - signedDelta px.g p.g ≤ 7)

/-- The four selections (R188 to R191). -/
theorem selectDelta_cases (px p : Pixel) :
    (px.a ≠ p.a ∧ selectDelta px p = .opRgba px.r px.g px.b px.a) ∨
    (px.a = p.a ∧ DiffFits px p ∧
      selectDelta px p = .opDiff (signedDelta px.r p.r) (signedDelta px.g p.g) (signedDelta px.b p.b)) ∨
    (px.a = p.a ∧ ¬ DiffFits px p ∧ LumaFits px p ∧ selectDelta px p = .opLuma (signedDelta px.g p.g)
      (signedDelta px.r p.r - signedDelta px.g p.g) (signedDelta px.b p.b - signedDelta px.g p.g)) ∨
    (px.a = p.a ∧ ¬ DiffFits px p ∧ ¬ LumaFits px p ∧ selectDelta px p = .opRgb px.r px.g px.b) := by
  rw [selectDelta_eq rfl rfl rfl]
  split_ifs with same diff luma
  · exact .inr (.inl ⟨same, diff, rfl⟩)
  · exact .inr (.inr (.inl ⟨same, diff, luma, rfl⟩))
  · exact .inr (.inr (.inr ⟨same, diff, luma, rfl⟩))
  · exact .inl ⟨same, rfl⟩

/-! The selected operation makes its pixel. -/

theorem selectDelta_wellFormed (px p : Pixel) : (selectDelta px p).wellFormed = true := by
  obtain ⟨-, eq⟩ | ⟨-, ⟨red, green, blue⟩, eq⟩ | ⟨-, -, ⟨green, red, blue⟩, eq⟩ | ⟨-, -, -, eq⟩ := selectDelta_cases px p <;>
    rw [eq]
  · rfl
  · simp only [Instr.wellFormed, Bool.and_eq_true, inRange_iff, red, green, blue, and_self]
  · simp only [Instr.wellFormed, Bool.and_eq_true, inRange_iff, red, green, blue, and_self]
  · rfl

/-- The three differences lead from `p` back to a pixel of the same alpha. -/
theorem offsetPixel_signedDelta {px p : Pixel} (same : px.a = p.a) :
    offsetPixel p (signedDelta px.r p.r) (signedDelta px.g p.g) (signedDelta px.b p.b) = px := by
  rw [offsetPixel, wrap8_add_signedDelta, wrap8_add_signedDelta, wrap8_add_signedDelta, ← same]

theorem operationPixel_selectDelta (px : Pixel) (s : State) : operationPixel (selectDelta px s.prev) s = px := by
  obtain ⟨-, eq⟩ | ⟨same, -, eq⟩ | ⟨same, -, -, eq⟩ | ⟨same, -, -, eq⟩ := selectDelta_cases px s.prev <;>
    rw [eq, operationPixel]
  · exact offsetPixel_signedDelta same
  · rw [add_sub_cancel, add_sub_cancel]
    exact offsetPixel_signedDelta same
  · rw [← same]

theorem operationRun_selectDelta (px p : Pixel) (s : State) : operationRun (selectDelta px p) s = s.run := by
  obtain ⟨-, eq⟩ | ⟨-, -, eq⟩ | ⟨-, -, -, eq⟩ | ⟨-, -, -, eq⟩ := selectDelta_cases px p <;> rw [eq] <;> rfl

/-- Settles O34: the selection is no run, and in each of its four cases the pixel it makes is `px`. -/
theorem selectedOperationReproducesThePixel : Obligations.SelectedOperationReproducesThePixel := by
  intro px s
  obtain ⟨t, executed, run, produced⟩ := exec_producesPixel (selectDelta px s.prev) s
  rw [operationPixel_selectDelta] at produced
  rw [operationRun_selectDelta] at run
  exact ⟨selectDelta_wellFormed px s.prev, t, executed, produced.prev, run, produced⟩

/-! No operation that makes the pixel is shorter. -/

@[simp] theorem byteLength_opRgb (r g b : Byte) : (Instr.opRgb r g b).byteLength = 4 := rfl
@[simp] theorem byteLength_opRgba (r g b a : Byte) : (Instr.opRgba r g b a).byteLength = 5 := rfl
@[simp] theorem byteLength_opIndex (slot : Slot) : (Instr.opIndex slot).byteLength = 1 := rfl
@[simp] theorem byteLength_opDiff (dr dg db : Int) : (Instr.opDiff dr dg db).byteLength = 1 := rfl
@[simp] theorem byteLength_opLuma (dg drDg dbDg : Int) : (Instr.opLuma dg drDg dbDg).byteLength = 2 := rfl
@[simp] theorem byteLength_opRun (length : Nat) : (Instr.opRun length).byteLength = 1 := rfl

theorem encode_length (i : Instr) : (encode i).length = i.byteLength := by cases i <;> rfl

/-- What OP_DIFF makes from `p`, and what OP_LUMA makes, has the alpha of `p` and fits that operation. -/
theorem offsetPixel_diffFits {dr dg db : Int} (p : Pixel) (hr : -2 ≤ dr ∧ dr ≤ 1) (hg : -2 ≤ dg ∧ dg ≤ 1)
    (hb : -2 ≤ db ∧ db ≤ 1) : DiffFits (offsetPixel p dr dg db) p := by
  simp only [DiffFits, offsetPixel]
  rw [signedDelta_wrap8 (by omega), signedDelta_wrap8 (by omega), signedDelta_wrap8 (by omega)]
  exact ⟨hr, hg, hb⟩

theorem offsetPixel_lumaFits {dg r b : Int} (p : Pixel) (hg : -32 ≤ dg ∧ dg ≤ 31) (hr : -8 ≤ r ∧ r ≤ 7)
    (hb : -8 ≤ b ∧ b ≤ 7) : LumaFits (offsetPixel p (dg + r) dg (dg + b)) p := by
  simp only [LumaFits, offsetPixel]
  rw [signedDelta_wrap8 (by omega), signedDelta_wrap8 (by omega), signedDelta_wrap8 (by omega), add_sub_cancel_left,
    add_sub_cancel_left]
  exact ⟨hg, hr, hb⟩

theorem selectDelta_byteLength_of_sameAlpha {px p : Pixel} (same : px.a = p.a) :
    (selectDelta px p).byteLength ≤ 4 ∧ (DiffFits px p → (selectDelta px p).byteLength ≤ 1) ∧
      (LumaFits px p → (selectDelta px p).byteLength ≤ 2) := by
  obtain ⟨changed, -⟩ | ⟨-, diff, eq⟩ | ⟨-, notDiff, luma, eq⟩ | ⟨-, notDiff, notLuma, eq⟩ := selectDelta_cases px p
  · exact absurd same changed
  · simp [eq]
  · simp [eq, notDiff]
  · simp [eq, notDiff, notLuma]

/-- Settles O35: an operation that makes `px` has its operands among those the selector tries in the order of their length;
only OP_RUN makes `PREV` again. -/
theorem selectedOperationIsShortest : Obligations.SelectedOperationIsShortest := by
  intro px i s t differs wf notIndex executed made
  rw [encode_length, encode_length]
  rw [prev_of_exec executed] at made
  have alpha := operationPixel_alpha (s := s) notIndex
  rw [made] at alpha
  cases i with
  | opRgb r g b => exact (selectDelta_byteLength_of_sameAlpha (alpha nofun)).1
  | opRgba r g b a => exact (byteLength_bounds _).2
  | opIndex slot => exact absurd rfl (notIndex slot)
  | opDiff dr dg db =>
    simp only [Instr.wellFormed, Bool.and_eq_true, inRange_iff] at wf
    have fits := offsetPixel_diffFits s.prev wf.1.1 wf.1.2 wf.2
    exact (selectDelta_byteLength_of_sameAlpha (alpha nofun)).2.1 (made ▸ fits)
  | opLuma dg drDg dbDg =>
    simp only [Instr.wellFormed, Bool.and_eq_true, inRange_iff] at wf
    have fits := offsetPixel_lumaFits s.prev wf.1.1 wf.1.2 wf.2
    exact (selectDelta_byteLength_of_sameAlpha (alpha nofun)).2.2 (made ▸ fits)
  | opRun => exact absurd made.symm differs

/-! No operation is emitted in vain. -/

theorem eq_of_signedDeltas_eq_zero {px p : Pixel} (same : px.a = p.a) (red : signedDelta px.r p.r = 0)
    (green : signedDelta px.g p.g = 0) (blue : signedDelta px.b p.b = 0) : px = p :=
  pixel_eq_iff.mpr ⟨eq_of_signedDelta_eq_zero red, eq_of_signedDelta_eq_zero green, eq_of_signedDelta_eq_zero blue, same⟩

/-- Settles O36: the selected operands are the channel differences, which are 0 together only for equal pixels. -/
theorem selectedOperationIsNeverRedundant : Obligations.SelectedOperationIsNeverRedundant := by
  intro px p differs
  obtain ⟨changed, eq⟩ | ⟨same, -, eq⟩ | ⟨same, -, -, eq⟩ | ⟨-, -, -, eq⟩ := selectDelta_cases px p <;> rw [eq]
  · refine ⟨fun r g b a h => ?_, nofun, nofun⟩
    cases h
    exact changed
  · refine ⟨nofun, fun dr dg db h => ?_, nofun⟩
    cases h
    exact fun ⟨red, green, blue⟩ => differs (eq_of_signedDeltas_eq_zero same red green blue)
  · refine ⟨nofun, nofun, fun dg drDg dbDg h => ?_⟩
    cases h
    rintro ⟨green, red, blue⟩
    rw [green, sub_zero] at red blue
    exact differs (eq_of_signedDeltas_eq_zero same red green blue)
  · exact ⟨nofun, nofun, nofun⟩

/-! The two readings of the luma differences (R187, 92_eei_decisions.md D5). -/

theorem signedDelta_range (new old : Byte) : -128 ≤ signedDelta new old ∧ signedDelta new old ≤ 127 := by
  unfold signedDelta
  omega

/-- Settles O37: the plain difference is in -159..159, and one that wraps lands outside -96..96. -/
theorem wrappingTheLumaDifferencesSelectsTheSame : Obligations.WrappingTheLumaDifferencesSelectsTheSame := by
  intro n o n' o' lo hi
  rw [channelDelta_eq_signedDelta] at *
  rw [channelDelta_eq_signedDelta, Bool.eq_iff_iff, inRange_iff, inRange_iff]
  have := signedDelta_range n o
  rw [s8]
  split <;> omega

/-! The bytes of a pixel step. -/

/-- The length of the byte that closes a pending run, if there is one. -/
theorem closing_length (run : BitVec 6) (b : Byte) :
    (if run = 0 then ([] : List Byte) else [b]).length = if run = 0 then 0 else 1 := by
  split <;> rfl

/-- Settles O38: the bytes of each path are those of `encodeRepeatCountsOrFlushes`, `encodeHitEmitsTheSlot` and
`encodeMissInsertsAndEmitsADelta`. -/
theorem encodeStepEmitsUpToSixBytes : Obligations.EncodeStepEmitsUpToSixBytes := by
  intro s t px more inv ready offered stepped
  by_cases repeats : px = s.prev
  · obtain ⟨u, stepped', -, flushes, counts⟩ := encodeRepeatCountsOrFlushes s px more inv ready offered repeats
    obtain rfl := Host.Outcome.next.inj (stepped.symm.trans stepped')
    by_cases flushed : s.run.toNat + 1 = 62 ∨ s.pixcount.toNat + 1 = s.npix.toNat
    · exact ⟨_, (flushes flushed).2.emitted, by simp, fun _ => (if_pos flushed).symm,
        fun fresh => absurd repeats fresh⟩
    · exact ⟨_, (counts (not_or.mp flushed)).2.emitted, Nat.zero_le _, fun _ => (if_neg flushed).symm,
        fun fresh => absurd repeats fresh⟩
  · have pending : (if s.run = 0 then 0 else 1) ≤ 1 := by split <;> decide
    by_cases hit : s.cacheRead (pixelHash px) = px
    · obtain ⟨u, stepped', -, -, consumed⟩ := encodeHitEmitsTheSlot s px more inv ready offered repeats hit
      obtain rfl := Host.Outcome.next.inj (stepped.symm.trans stepped')
      refine ⟨_, consumed.emitted, ?_, fun same => absurd same repeats, fun _ => ?_⟩
      · rw [List.length_append, closing_length, List.length_singleton]
        omega
      · rw [List.length_append, closing_length, List.length_singleton, if_pos hit]
    · obtain ⟨u, stepped', -, -, consumed⟩ := encodeMissInsertsAndEmitsADelta s px more inv ready offered repeats hit
      obtain rfl := Host.Outcome.next.inj (stepped.symm.trans stepped')
      have := (byteLength_bounds (selectDelta px s.prev)).2
      refine ⟨_, consumed.emitted, ?_, fun same => absurd same repeats, fun _ => ?_⟩
      · rw [List.length_append, closing_length, encode_length]
        omega
      · rw [List.length_append, closing_length, encode_length, if_neg hit]

end Sys2Proof.Machine
end

section
/-! PROOFS. The step of a running job and the machine's step, each as an inductive relation with one case for each thing that
can happen (10_state.md R21, 00_scope.md R6). What every step does or keeps is then proved by cases on it. -/

namespace Sys2Proof.Machine

/-! The step of a running job. -/

/-- The job's next step needs input bytes that have not come (R6, R113, R150, R162). -/
inductive State.LacksBytes (s : State) : Prop
  | header (phase : s.phase = .dHdr ∨ s.phase = .pHdr) (short : s.biq.length < 14)
  | operation (phase : s.phase = .dPix) (noRun : s.run = 0) (reject : DecodeReject) (refused : decode s.biq = .error reject)
  | marker (phase : s.phase = .dEnd) (short : s.biq.length < 8)

/-- The step a running job takes from `s` (R21). -/
inductive JobStep (s : State) : State → Prop
  | starve (lacks : s.LacksBytes) : JobStep s s.starve
  | headerRejected (phase : s.phase = .dHdr ∨ s.phase = .pHdr) (enough : 14 ≤ s.biq.length) (e : ErrorKind)
      (rejected : parseHeader s.params (s.biq.take 14) = .error e) : JobStep s ((s.inRead 14).raise e)
  | headerAccepted (phase : s.phase = .dHdr ∨ s.phase = .pHdr) (enough : 14 ≤ s.biq.length) (hd : Header)
      (accepted : parseHeader s.params (s.biq.take 14) = .ok hd) :
      JobStep s (((s.inRead 14).setHeader hd).setPhase (if s.phase = .dHdr then .dPix else .done))
  | continuation (phase : s.phase = .dPix) (pending : s.run ≠ 0) : JobStep s s.runContinuation
  | operation (phase : s.phase = .dPix) (noRun : s.run = 0) (i : Instr) (rest : List Byte)
      (decoded : decode s.biq = .ok (i, rest)) :
      JobStep s (((s.inRead i.byteLength).setRun (operationRun i s)).produce (operationPixel i s))
  | markerRejected (phase : s.phase = .dEnd) (enough : 8 ≤ s.biq.length) (wrong : s.biq.take 8 ≠ endMarkerBytes) :
      JobStep s ((s.inRead 8).raise .invalidOpcode)
  | markerAccepted (phase : s.phase = .dEnd) (enough : 8 ≤ s.biq.length) (right : s.biq.take 8 = endMarkerBytes) :
      JobStep s ((s.inRead 8).setPhase .done)
  | headerEmitted (phase : s.phase = .eHdr) : JobStep s s.headerEmitStep
  | noPixel (phase : s.phase = .ePix) (none : s.piq = []) : JobStep s s
  | pixelEncoded (phase : s.phase = .ePix) (px : Pixel) (more : List Pixel) (offered : s.piq = px :: more) :
      JobStep s ((encodePixel px s.pixIn).2.finishEncodePixel (encodePixel px s.pixIn).1 px)
  | markerEmitted (phase : s.phase = .eEnd) : JobStep s s.endEmitStep

theorem busy_of_headerPhase {s : State} (phase : s.phase = .dHdr ∨ s.phase = .pHdr) : s.busy = true := by
  obtain h | h := phase <;> rw [State.busy, h]

theorem LacksBytes.busy {s : State} (lacks : s.LacksBytes) : s.busy = true := by
  cases lacks with
  | header phase => exact busy_of_headerPhase phase
  | operation phase | marker phase => rw [State.busy, phase]

theorem JobStep.busy {s t : State} (h : JobStep s t) : s.busy = true := by
  cases h with
  | starve lacks => exact LacksBytes.busy lacks
  | headerRejected phase | headerAccepted phase => exact busy_of_headerPhase phase
  | continuation phase | operation phase | markerRejected phase | markerAccepted phase | headerEmitted phase
  | noPixel phase | pixelEncoded phase | markerEmitted phase => rw [State.busy, phase]

/-- The phases in which nothing runs (R37). -/
theorem busy_eq_false_iff {s : State} : s.busy = false ↔ s.phase = .idle ∨ s.phase = .done ∨ s.phase = .error := by
  rw [State.busy]
  cases s.phase <;> simp

/-- The engine's turn in a running job is a `JobStep`. -/
theorem jobStep_of_engineStep {s t : State} (low : s.pins.rst = false) (busy : s.busy = true)
    (h : engineStep s = .next t) : JobStep s t := by
  obtain ⟨high, -⟩ | ⟨-, accepts, -⟩ | ⟨-, -, stopped, -⟩ | ⟨-, phase, rfl⟩ | ⟨-, phase, pixel⟩ | ⟨-, phase, rfl⟩ |
    ⟨-, phase, rfl⟩ | ⟨-, phase, rfl⟩ | ⟨-, phase, rfl⟩ := engineStep_cases h
  · nomatch low.symm.trans high
  · nomatch (accepts_of_busy busy).symm.trans accepts
  · nomatch busy.symm.trans (busy_eq_false_iff.mpr stopped)
  · obtain ⟨short, eq⟩ | ⟨enough, e, rejected, eq⟩ | ⟨enough, hd, accepted, eq⟩ := s.headerStep_cases <;> rw [eq]
    · exact .starve (.header phase short)
    · exact .headerRejected phase enough e rejected
    · exact .headerAccepted phase enough hd accepted
  · obtain ⟨pending, rfl⟩ | ⟨noRun, i, rest, decoded, executed⟩ | ⟨noRun, r, refused, rfl⟩ := decodePixelStep_cases pixel
    · exact .continuation phase pending
    · obtain rfl := Host.Outcome.next.inj ((exec_eq_produce ..).symm.trans executed)
      exact .operation phase noRun i rest decoded
    · exact .starve (.operation phase noRun r refused)
  · obtain ⟨short, eq⟩ | ⟨enough, wrong, eq⟩ | ⟨enough, right, eq⟩ := s.endCheckStep_cases <;> rw [eq]
    · exact .starve (.marker phase short)
    · exact .markerRejected phase enough wrong
    · exact .markerAccepted phase enough right
  · exact .headerEmitted phase
  · rw [State.encodePixelStep]
    split
    · next none => exact .noPixel phase none
    · next px more offered => exact .pixelEncoded phase px more offered
  · exact .markerEmitted phase

theorem headerStep_of_error {s : State} {e : ErrorKind} (enough : 14 ≤ s.biq.length)
    (rejected : parseHeader s.params (s.biq.take 14) = .error e) : s.headerStep = (s.inRead 14).raise e := by
  rw [State.headerStep, State.inAvail, if_neg (by omega), rejected]

theorem headerStep_of_ok {s : State} {hd : Header} (enough : 14 ≤ s.biq.length)
    (accepted : parseHeader s.params (s.biq.take 14) = .ok hd) :
    s.headerStep = ((s.inRead 14).setHeader hd).setPhase (if s.phase = .dHdr then .dPix else .done) := by
  rw [State.headerStep, State.inAvail, if_neg (by omega), accepted]

/-- A `JobStep` is what the engine does at its turn. -/
theorem JobStep.engineStep {s t : State} (h : JobStep s t) (low : s.pins.rst = false) : engineStep s = .next t := by
  obtain ⟨headerPhase, pixelPhase, markerPhase⟩ := engineStep_encoder low
  cases h with
  | starve lacks =>
    cases lacks with
    | header phase short => rw [engineStep_header low phase, State.headerStep, State.inAvail, if_pos short]
    | operation phase noRun reject refused =>
      rw [engineStep_dPix low phase, decodePixelStep, if_neg (not_not.mpr noRun), refused]
      cases reject <;> rfl
    | marker phase short => rw [engineStep_dEnd low phase, State.endCheckStep, State.inAvail, if_pos short]
  | headerRejected phase enough e rejected =>
    rw [engineStep_header low phase, headerStep_of_error enough rejected]
  | headerAccepted phase enough hd accepted =>
    rw [engineStep_header low phase, headerStep_of_ok enough accepted]
  | continuation phase pending => rw [engineStep_dPix low phase, decodePixelStep, if_pos pending]
  | operation phase noRun i rest decoded =>
    rw [engineStep_dPix low phase, decodePixelStep, if_neg (not_not.mpr noRun), decoded]
    exact exec_eq_produce ..
  | markerRejected phase enough wrong =>
    rw [engineStep_dEnd low phase, State.endCheckStep, State.inAvail, if_neg (by omega), if_pos wrong]
  | markerAccepted phase enough right =>
    rw [engineStep_dEnd low phase, State.endCheckStep, State.inAvail, if_neg (by omega), if_neg (not_not.mpr right)]
  | headerEmitted phase => exact headerPhase phase
  | noPixel phase none => rw [pixelPhase phase, State.encodePixelStep, none]
  | pixelEncoded phase px more offered => rw [pixelPhase phase, State.encodePixelStep, offered]
  | markerEmitted phase => exact markerPhase phase

/-! The step of the machine. -/

/-- One step from `s`: the engine's turn, or a move of the host (R6, R220, R230, R270). -/
inductive MachineStep (s : State) : State → Prop
  | reset (pins : Pins) (high : pins.rst = true) : MachineStep s ({ s.afterTurn with pins := pins } : State).resetEngine
  | start (turn : s.engineMoves = true) (low : s.pins.rst = false) (accepts : s.accepts = true) :
      MachineStep s s.afterTurn.jobStart
  | rest (low : s.pins.rst = false) (stopped : s.busy = false) : MachineStep s s.afterTurn
  | job {t : State} (low : s.pins.rst = false) (h : JobStep s.afterTurn t) : MachineStep s t
  | host (pins : Pins) (biq : List Byte) (biClosed : Bool) (piq : List Pixel) (low : pins.rst = false) :
      MachineStep s { s.afterTurn with pins := pins, biq := biq, biClosed := biClosed, piq := piq }

/-- A host move writes the control inputs and the input queues, under the reset input. -/
theorem hostMove_writes_inputs {m : HostMove} (notTurn : m ≠ .engine) (s : State) : ∃ pins biq biClosed piq,
    s.hostMove m = ({ s with pins := pins, biq := biq, biClosed := biClosed, piq := piq } : State).underReset := by
  cases m with
  | engine => exact absurd rfl notTurn
  | rst | cmd | cfg | byte | eos | pixel | idle => exact ⟨_, _, _, _, rfl⟩

theorem machineStep_of_turn {s t : State} (turn : s.engineMoves = true) (h : engineStep s.afterTurn = .next t) :
    MachineStep s t := by
  cases rst : s.pins.rst
  case true =>
    obtain rfl := Host.Outcome.next.inj ((engineStep_of_rst (s := s.afterTurn) rst).symm.trans h)
    exact .reset s.pins rst
  case false =>
    cases busy : s.busy
    case true => exact .job rst (jobStep_of_engineStep rst busy h)
    case false =>
      obtain ⟨high, -⟩ | ⟨-, accepts, rfl⟩ | ⟨-, -, -, rfl⟩ | ⟨-, phase, -⟩ | ⟨-, phase, -⟩ | ⟨-, phase, -⟩ |
        ⟨-, phase, -⟩ | ⟨-, phase, -⟩ | ⟨-, phase, -⟩ := engineStep_cases h
      · nomatch rst.symm.trans high
      · exact .start turn rst accepts
      · exact .rest rst busy
      · nomatch busy.symm.trans (busy_of_headerPhase (s := s.afterTurn) phase)
      all_goals
        rw [State.busy, show s.phase = _ from phase] at busy
        nomatch busy

theorem machineStep_of_step {s t : State} (h : step s = .next t) : MachineStep s t := by
  obtain ⟨host, -⟩ | ⟨rest, host, -⟩ | ⟨m, rest, notTurn, host, rfl⟩ := step_cases h
  · have turn : s.engineMoves = true := by rw [State.engineMoves, host]
    exact machineStep_of_turn turn ((step_of_engineMoves turn).symm.trans h)
  · have turn : s.engineMoves = true := by rw [State.engineMoves, host]; rfl
    exact machineStep_of_turn turn ((step_of_engineMoves turn).symm.trans h)
  · have after : ({ s with host := rest } : State) = s.afterTurn := by rw [State.afterTurn, host, List.tail_cons]
    rw [after]
    obtain ⟨pins, biq, biClosed, piq, eq⟩ := hostMove_writes_inputs notTurn s.afterTurn
    rw [eq]
    obtain ⟨high, eq⟩ | ⟨low, eq⟩ := State.underReset_cases
      { s.afterTurn with pins := pins, biq := biq, biClosed := biClosed, piq := piq } <;> rw [eq]
    · exact .reset pins high
    · exact .host pins biq biClosed piq low

end Sys2Proof.Machine
end

section
/-! PROOFS. The invariant of the machine: it holds at reset, a job start makes it hold, and every other step keeps it. A clause
about phases that the next state is not in says nothing of it; what is left is a lemma for each kind of next state. -/

namespace Sys2Proof.Machine

/-! The invariant by the phase of the state. -/

/-- What the invariant asks in a phase after a job. -/
theorem inv_of_stopped {t : State} (stopped : (t.phase = .done ∧ t.err = 0) ∨ (t.phase = .error ∧ t.err ≠ 0 ∧ t.err ≠ 7))
    (count : t.pixcount.toNat ≤ t.npix.toNat) (npix : t.npix.toNat = t.width.toNat * t.height.toNat)
    (run : t.run.toNat ≤ 61) (low : t.pins.rst = false) : t.Inv := by
  obtain ⟨phase, err⟩ | ⟨phase, err, notSeven⟩ := stopped <;> constructor <;> simp_all

/-- What the invariant asks between the pixels of a decode job. -/
theorem inv_of_dPix {t : State} (phase : t.phase = .dPix) (err : t.err = 0) (count : t.pixcount.toNat < t.npix.toNat)
    (npix : t.npix.toNat = t.width.toNat * t.height.toNat) (run : t.run.toNat ≤ 61) (header : t.LegalHeader)
    (cached : t.pixcount ≠ 0 → t.cacheRead (pixelHash t.prev) = t.prev) (first : t.pixcount = 0 → t.run = 0)
    (low : t.pins.rst = false) : t.Inv := by
  have le := count.le
  constructor <;> simp_all

/-- What the invariant asks between the pixels of an encode job. -/
theorem inv_of_ePix {t : State} (phase : t.phase = .ePix) (err : t.err = 0) (count : t.pixcount.toNat < t.npix.toNat)
    (npix : t.npix.toNat = t.width.toNat * t.height.toNat) (run : t.run.toNat ≤ 61)
    (header : t.width ≠ 0 ∧ t.height ≠ 0 ∧ t.channels = 4 ∧ t.colorspace = 0) (low : t.pins.rst = false) : t.Inv := by
  have le := count.le
  constructor <;> simp_all

/-- What the invariant asks when the pixels of a job are done and its end marker is to come. -/
theorem inv_of_lastPhase {t : State} (err : t.err = 0) (count : t.pixcount = t.npix)
    (npix : t.npix.toNat = t.width.toNat * t.height.toNat) (run : t.run.toNat ≤ 61) (low : t.pins.rst = false)
    (last : (t.phase = .dEnd ∧ t.params.checkEndMarker = true ∧ t.LegalHeader) ∨
      (t.phase = .eEnd ∧ t.run = 0 ∧ t.width ≠ 0 ∧ t.height ≠ 0 ∧ t.channels = 4 ∧ t.colorspace = 0)) : t.Inv := by
  obtain ⟨phase, check, header⟩ | ⟨phase, flushed, header⟩ := last <;> constructor <;> simp_all

/-- What the invariant asks of a job before its first step. -/
theorem inv_of_firstPhase {t : State} (err : t.err = 0) (npix : t.npix.toNat = t.width.toNat * t.height.toNat)
    (fresh : t.FreshJob) (low : t.pins.rst = false)
    (first : ((t.phase = .dHdr ∨ t.phase = .pHdr) ∧
        t.width = 0 ∧ t.height = 0 ∧ t.channels = 0 ∧ t.colorspace = 0 ∧ t.npix = 0) ∨
      (t.phase = .eHdr ∧ t.width ≠ 0 ∧ t.height ≠ 0 ∧ t.channels = 4 ∧ t.colorspace = 0)) : t.Inv := by
  have run := fresh.run
  have pixcount := fresh.pixcount
  obtain ⟨phase | phase, header⟩ | ⟨phase, header⟩ := first <;> constructor <;> simp_all

/-! The reset (R40, R270). -/

theorem resetEngine_inv (s : State) : s.resetEngine.Inv := by
  constructor <;> simp

/-- Settles O53: the values are written in `resetOf`, which is what a reset leaves of itself. -/
theorem invariantHoldsAtReset : Obligations.InvariantHoldsAtReset := by
  intro p
  refine ⟨rfl, rfl, rfl, rfl, rfl, rfl, rfl, rfl, rfl, rfl, rfl, rfl, ?_, rfl, ?_⟩
  · exact resetEngine_status (State.resetOf p)
  · exact resetEngine_inv (State.resetOf p)

/-! The job start (R222, R223). -/

theorem jobStart_inv {s : State} (low : s.pins.rst = false) : s.jobStart.Inv := by
  have fresh := jobStart_freshJob s
  obtain ⟨-, -, eq⟩ | ⟨-, width, height, eq⟩ | ⟨-, eq⟩ := s.jobStart_cases <;> rw [eq] at fresh ⊢
  · exact inv_of_stopped (.inr ⟨rfl, (by decide : (2 : BitVec 3) ≠ 0), (by decide : (2 : BitVec 3) ≠ 7)⟩) (Nat.zero_le _)
      (pixelTotal_toNat ..) (Nat.zero_le _) low
  · exact inv_of_firstPhase rfl (pixelTotal_toNat ..) fresh low (.inr ⟨rfl, width, height, rfl, rfl⟩)
  · refine inv_of_firstPhase rfl (pixelTotal_toNat ..) fresh low (.inl ⟨?_, rfl, rfl, rfl, rfl, rfl⟩)
    rw [State.setPhase_phase]
    split
    · exact .inl rfl
    · exact .inr rfl

/-! Host moves and turns that change no register (R41). -/

/-- The invariant speaks of the control inputs and the input queues in its last clause alone. -/
theorem State.Inv.withInputs {s : State} (inv : s.Inv) {pins : Pins} (low : pins.rst = false) (host : List HostMove)
    (biq : List Byte) (biClosed : Bool) (piq : List Pixel) :
    ({ s with pins := pins, host := host, biq := biq, biClosed := biClosed, piq := piq } : State).Inv :=
  { inv with
    under_reset := fun high => nomatch low.symm.trans high
    decode_header := fun phase => have h := inv.decode_header phase; ⟨h.width, h.height, h.channels, h.colorspace⟩
    fresh := fun phase => have h := inv.fresh phase; ⟨h.prev, h.run, h.cache, h.pixcount, h.bytecount⟩ }

theorem State.Inv.afterTurn {s : State} (inv : s.Inv) (low : s.pins.rst = false) : s.afterTurn.Inv :=
  inv.withInputs low s.host.tail s.biq s.biClosed s.piq

/-! The steps of a running job. -/

theorem err_eq_zero_of_busy {s : State} (inv : s.Inv) (busy : s.busy = true) : s.err = 0 := by
  by_contra err
  rw [busy_eq_false_iff.mpr (.inr (.inr (inv.err_iff_error.mp err)))] at busy
  nomatch busy

theorem run_le_of_busy {s : State} (inv : s.Inv) (busy : s.busy = true) : s.run.toNat ≤ 61 := by
  refine inv.run_le fun idle => ?_
  rw [busy_eq_false_iff.mpr (.inl idle)] at busy
  nomatch busy

theorem ErrorKind.code_ne (e : ErrorKind) : e.code ≠ 0 ∧ e.code ≠ 7 := by
  cases e <;> decide

theorem raise_inv {s : State} (inv : s.Inv) (busy : s.busy = true) (low : s.pins.rst = false) (n : Nat) (e : ErrorKind) :
    ((s.inRead n).raise e).Inv :=
  have run := run_le_of_busy inv busy
  inv_of_stopped (.inr ⟨rfl, e.code_ne.1, e.code_ne.2⟩) inv.count_le inv.npix_eq run low

theorem starve_inv {s : State} (inv : s.Inv) (busy : s.busy = true) (low : s.pins.rst = false) : s.starve.Inv := by
  obtain ⟨-, eq⟩ | ⟨-, eq⟩ := s.starve_cases <;> rw [eq]
  · exact inv
  · exact raise_inv inv busy low _ _

/-- A header that parses is legal under the parser's parameters (R82, R111, R112). -/
theorem parseHeader_legal {p : Params} {h : List Byte} {hd : Header} (ok : parseHeader p h = .ok hd) :
    hd.width ≠ 0 ∧ hd.height ≠ 0 ∧ (hd.channels = 3 ∨ hd.channels = 4) ∧
      (p.strictColorspace = true → hd.colorspace = 0 ∨ hd.colorspace = 1) := by
  rw [parseHeader] at ok
  split_ifs at ok with magic zero channels colorspace
  obtain rfl := Except.ok.inj ok
  obtain ⟨width, height⟩ := not_or.mp zero
  refine ⟨width, height, ?_, fun strict => ?_⟩
  · by_contra none
    exact channels (not_or.mp none)
  · by_contra none
    exact colorspace ⟨strict, not_or.mp none⟩

theorem pixelTotal_pos {w h : Word32} (width : w ≠ 0) (height : h ≠ 0) : 0 < (pixelTotal w h).toNat := by
  rw [pixelTotal_toNat]
  exact Nat.mul_pos (by bv_omega) (by bv_omega)

theorem headerAccepted_inv {s : State} (inv : s.Inv) (low : s.pins.rst = false) (phase : s.phase = .dHdr ∨ s.phase = .pHdr)
    {hd : Header} (accepted : parseHeader s.params (s.biq.take 14) = .ok hd) :
    (((s.inRead 14).setHeader hd).setPhase (if s.phase = .dHdr then .dPix else .done)).Inv := by
  have err := err_eq_zero_of_busy inv (busy_of_headerPhase phase)
  obtain ⟨-, run, -, pixcount, -⟩ := inv.fresh (phase.imp_right .inl)
  have run' : s.run.toNat ≤ 61 := by rw [run]; decide
  have pixcount' : s.pixcount.toNat = 0 := by rw [pixcount]; rfl
  obtain ⟨width, height, channels, colorspace⟩ := parseHeader_legal accepted
  obtain decoding | peeking := phase
  · rw [if_pos decoding]
    exact inv_of_dPix rfl err (pixcount'.trans_lt (pixelTotal_pos width height)) (pixelTotal_toNat ..) run'
      ⟨width, height, channels, colorspace⟩ (fun started => absurd pixcount started) (fun _ => run) low
  · rw [if_neg (by rw [peeking]; decide)]
    exact inv_of_stopped (.inl ⟨rfl, err⟩) (pixcount'.trans_le (Nat.zero_le _)) (pixelTotal_toNat ..) run' low

/-- The count of a pixel step, below `NPIX` before it, as numbers. -/
theorem pixcount_succ_toNat {s : State} (count : s.pixcount.toNat < s.npix.toNat) :
    (s.pixcount + 1).toNat = s.pixcount.toNat + 1 := by
  bv_omega

theorem pixcount_succ_lt {s : State} (count : s.pixcount.toNat < s.npix.toNat) (more : s.pixcount + 1 ≠ s.npix) :
    (s.pixcount + 1).toNat < s.npix.toNat := by
  bv_omega

/-- A pixel step of the decoder keeps the invariant when it leaves `RUN` in its range and its pixel in the cache. -/
theorem emitsPixel_inv {s t : State} {px : Pixel} (inv : s.Inv) (low : s.pins.rst = false) (phase : s.phase = .dPix)
    (emits : s.EmitsPixel t px) (run : t.run.toNat ≤ 61) (cached : t.cacheRead (pixelHash t.prev) = t.prev) : t.Inv := by
  obtain ⟨-, count, phaseEnd, phaseMore, err, ports, header⟩ := emits
  have toCome := inv.count_lt (.inl phase)
  have err := err.trans (err_eq_zero_of_busy inv (by rw [State.busy, phase]))
  have low := (congrArg Pins.rst ports.pins).trans low
  have npix : t.npix.toNat = t.width.toNat * t.height.toNat := by
    rw [header.npix, header.width, header.height]
    exact inv.npix_eq
  have legal : t.LegalHeader := by
    obtain ⟨width, height, channels, colorspace⟩ := inv.decode_header (.inl phase)
    exact ⟨header.width ▸ width, header.height ▸ height, header.channels ▸ channels,
      by rw [ports.params, header.colorspace]; exact colorspace⟩
  by_cases last : s.pixcount + 1 = s.npix
  · have done : t.pixcount = t.npix := by rw [count, header.npix, last]
    have ended := phaseEnd last
    split at ended
    · next check =>
      exact inv_of_lastPhase err done npix run low (.inl ⟨ended, ports.params ▸ check, legal⟩)
    · exact inv_of_stopped (.inl ⟨ended, err⟩) (congrArg BitVec.toNat done).le npix run low
  · refine inv_of_dPix ((phaseMore last).trans phase) err ?_ npix run legal (fun _ => cached) (fun first => ?_) low
    · rw [count, header.npix]
      exact pixcount_succ_lt toCome last
    · have counted := pixcount_succ_toNat toCome
      rw [← count, first] at counted
      nomatch counted

/-- Reading bytes before a pixel step changes nothing its effect speaks of. -/
theorem emitsPixel_of_inRead {s t : State} {n : Nat} {px : Pixel} (emits : (s.inRead n).EmitsPixel t px) :
    s.EmitsPixel t px :=
  have ⟨out, count, phaseEnd, phaseMore, err, ports, header⟩ := emits
  ⟨out, count, phaseEnd, phaseMore, err,
    ⟨ports.params, ports.pins, ports.host, ports.biClosed, ports.piq, ports.boq⟩,
    ⟨header.width, header.height, header.channels, header.colorspace, header.npix⟩⟩

theorem continuation_inv {s : State} (inv : s.Inv) (low : s.pins.rst = false) (phase : s.phase = .dPix) (pending : s.run ≠ 0) :
    s.runContinuation.Inv := by
  have bound := run_le_of_busy inv (by rw [State.busy, phase])
  have started : s.pixcount ≠ 0 := fun first => pending (inv.run_after_first phase first)
  refine emitsPixel_inv inv low phase (runContinuation_emitsPixel s) ?_ ?_
  · rw [State.runContinuation_run]
    bv_omega
  · rw [State.runContinuation_prev, State.cacheRead_congr s.runContinuation_cache]
    exact inv.prev_cached phase started

/-- What a decoded operation leaves in `RUN` is at most 61 (R25, R89). -/
theorem operationRun_le {i : Instr} (wf : i.wellFormed = true) {s : State} (noRun : s.run = 0) :
    (operationRun i s).toNat ≤ 61 := by
  cases i with
  | opRun length =>
    simp only [Instr.wellFormed, Bool.and_eq_true, decide_eq_true_eq] at wf
    rw [operationRun, BitVec.toNat_ofNat]
    omega
  | opRgb | opRgba | opIndex | opDiff | opLuma =>
    exact (congrArg BitVec.toNat noRun).le.trans (Nat.zero_le _)

theorem operation_inv {s : State} (inv : s.Inv) (low : s.pins.rst = false) (phase : s.phase = .dPix) (noRun : s.run = 0)
    {i : Instr} (wf : i.wellFormed = true) :
    (((s.inRead i.byteLength).setRun (operationRun i s)).produce (operationPixel i s)).Inv := by
  have produced := produce_producesPixel (s.inRead i.byteLength) (operationRun i s) (operationPixel i s)
  refine emitsPixel_inv inv low phase (emitsPixel_of_inRead produced.emits) ?_ ?_
  · rw [State.produce_run]
    exact operationRun_le wf noRun
  · rw [State.produce_prev, State.produce_cacheRead, if_pos rfl]

theorem headerEmitted_inv {s : State} (inv : s.Inv) (low : s.pins.rst = false) (phase : s.phase = .eHdr) :
    s.headerEmitStep.Inv := by
  obtain ⟨-, run, -, pixcount, -⟩ := inv.fresh (.inr (.inr phase))
  have header := inv.encode_header (.inl phase)
  have err := err_eq_zero_of_busy inv (by rw [State.busy, phase])
  refine inv_of_ePix rfl err ?_ inv.npix_eq ?_ header low
  · change s.pixcount.toNat < s.npix.toNat
    rw [pixcount, inv.npix_eq]
    exact Nat.mul_pos (by bv_omega) (by bv_omega)
  · change s.run.toNat ≤ 61
    rw [run]
    decide

theorem flushBytes_length (run : BitVec 6) : (flushBytes run).length = 1 := rfl

theorem pendingRun_length_le (s : State) : s.pendingRun.length ≤ 1 := by
  rw [State.pendingRun]
  split
  · exact Nat.zero_le _
  · exact (flushBytes_length s.run).le

/-- A path of the encoder's pixel step writes `RUN` and the cache alone and emits at most six bytes; it keeps `RUN` in its
range and leaves no run at the last pixel (R25, R183). -/
theorem encodePixel_effect (px : Pixel) (s : State) : ∃ out run cache,
    encodePixel px s = (out, { s with run := run, cache := cache }) ∧ out.length ≤ 6 ∧
      (s.run.toNat ≤ 61 → run.toNat ≤ 61) ∧ (s.atLastPixel = true → run = 0) := by
  have pending := pendingRun_length_le s
  rw [encodePixel]
  split
  · obtain ⟨-, eq⟩ | ⟨notFull, notLast, eq⟩ := State.encodeRepeat_cases s.atLastPixel s
    · exact ⟨_, _, _, eq, (flushBytes_length _).le.trans (by decide), fun _ => Nat.zero_le _, fun _ => rfl⟩
    · refine ⟨_, _, _, eq, Nat.zero_le _, fun bound => ?_, fun last => nomatch notLast.symm.trans last⟩
      bv_omega
  · obtain ⟨-, eq⟩ | ⟨-, eq⟩ := State.encodeFresh_cases px s
    · refine ⟨_, _, _, eq, ?_, fun _ => Nat.zero_le _, fun _ => rfl⟩
      rw [List.length_append, encode_length, byteLength_opIndex]
      omega
    · refine ⟨_, _, _, eq, ?_, fun _ => Nat.zero_le _, fun _ => rfl⟩
      have := (byteLength_bounds (selectDelta px s.prev)).2
      rw [List.length_append, encode_length]
      omega

theorem pixelEncoded_inv {s : State} (inv : s.Inv) (low : s.pins.rst = false) (phase : s.phase = .ePix) (px : Pixel) :
    ((encodePixel px s.pixIn).2.finishEncodePixel (encodePixel px s.pixIn).1 px).Inv := by
  have busy : s.busy = true := by rw [State.busy, phase]
  have err := err_eq_zero_of_busy inv busy
  have bound := run_le_of_busy inv busy
  have toCome := inv.count_lt (.inr phase)
  have header := inv.encode_header (.inr (.inl phase))
  obtain ⟨out, run, cache, eq, -, range, flushed⟩ := encodePixel_effect px s.pixIn
  have range := range bound
  rw [eq]
  have ended := State.finishEncodePixel_phase { s.pixIn with run := run, cache := cache } out px
  by_cases last : s.pixcount + 1 = s.npix
  · have atLast : s.atLastPixel = true := by
      rw [State.atLastPixel, decide_eq_true_iff]
      bv_omega
    refine inv_of_lastPhase ?_ ?_ ?_ ?_ ?_ (.inr ⟨ended.trans (if_pos last), ?_⟩) <;> simp
    exacts [err, last, inv.npix_eq, range, low, ⟨flushed atLast, header⟩]
  · refine inv_of_ePix ((ended.trans (if_neg last)).trans phase) ?_ ?_ ?_ ?_ ?_ ?_ <;>
      simp only [State.finishEncodePixel_err, State.finishEncodePixel_pixcount, State.finishEncodePixel_npix,
        State.finishEncodePixel_width, State.finishEncodePixel_height, State.finishEncodePixel_run,
        State.finishEncodePixel_channels, State.finishEncodePixel_colorspace, State.finishEncodePixel_pins]
    exacts [err, pixcount_succ_lt toCome last, inv.npix_eq, range, header, low]

/-- Every step of a running job keeps the invariant. -/
theorem JobStep.inv {s t : State} (h : JobStep s t) (inv : s.Inv) (low : s.pins.rst = false) : t.Inv := by
  have busy := h.busy
  have err := err_eq_zero_of_busy inv busy
  have run := run_le_of_busy inv busy
  cases h with
  | starve => exact starve_inv inv busy low
  | headerRejected | markerRejected => exact raise_inv inv busy low _ _
  | headerAccepted phase _ hd accepted => exact headerAccepted_inv inv low phase accepted
  | continuation phase pending => exact continuation_inv inv low phase pending
  | operation phase noRun i rest decoded => exact operation_inv inv low phase noRun (decode_ok_facts decoded).1
  | markerAccepted | markerEmitted =>
    exact inv_of_stopped (.inl ⟨rfl, err⟩) inv.count_le inv.npix_eq run low
  | headerEmitted phase => exact headerEmitted_inv inv low phase
  | noPixel => exact inv
  | pixelEncoded phase px => exact pixelEncoded_inv inv low phase px

/-- Settles O54: by cases on the step; a reset and a job start make the invariant hold, the others keep it. -/
theorem invariantIsKeptByEveryStep : Obligations.InvariantIsKeptByEveryStep := by
  intro s t inv h
  cases machineStep_of_step h with
  | reset pins => exact resetEngine_inv _
  | start _ low => exact jobStart_inv low
  | rest low => exact inv.afterTurn low
  | job low h => exact h.inv (inv.afterTurn low) low
  | host pins biq biClosed piq low => exact inv.withInputs low _ biq biClosed piq

end Sys2Proof.Machine
end

section
/-! PROOFS. The engine's turn by its phase (10_state.md R20, R21): a step with nothing to do, a step that lacks input, a decode
pixel step (42_decoder.md R150), and the phases a step moves between (44_job_control.md R224). -/

namespace Sys2Proof.Machine

/-! Steps that change nothing (R6, R21). -/

theorem engineStep_of_stopped {s : State} (low : s.pins.rst = false) (accepts : s.accepts = false)
    (stopped : s.phase = .idle ∨ s.phase = .done ∨ s.phase = .error) : engineStep s = .next s := by
  rw [engineStep, low, accepts]
  obtain phase | phase | phase := stopped <;> rw [phase] <;> rfl

theorem accepts_of_noCommand {s : State} (none : s.pins.cmdValid = false ∨ s.pins.cmd = 0) : s.accepts = false := by
  rw [State.accepts]
  obtain invalid | nop := none
  · rw [invalid]; rfl
  · rw [nop, decide_eq_false (not_not.mpr rfl), Bool.and_false, Bool.false_and]

/-- Settles O42: without a command the engine's turn in these phases is the identity. -/
theorem nothingRunsOutsideAJob : Obligations.NothingRunsOutsideAJob := fun s turn low stopped none =>
  (step_of_engineMoves turn).trans (engineStep_of_stopped (s := s.afterTurn) low (accepts_of_noCommand (s := s.afterTurn) none) stopped)

theorem starve_of_open {s : State} (isOpen : s.biClosed = false) : s.starve = s := by
  rw [State.starve, isOpen]
  rfl

/-- Settles O52: `step` and `exec` are total, and each listed step lacks its bytes, so it starves, or has no pixel. -/
theorem everyStepHasANextState : Obligations.EveryStepHasANextState := by
  refine ⟨step_next, fun i s => ⟨_, exec_eq_produce i s⟩, fun s held => ?_⟩
  have starved (turn : s.engineMoves = true) (low : s.pins.rst = false) (lacks : s.afterTurn.LacksBytes)
      (isOpen : s.biClosed = false) : step s = .next s.afterTurn := by
    rw [step_of_engineMoves turn, (JobStep.starve lacks).engineStep low, starve_of_open (s := s.afterTurn) isOpen]
  obtain ⟨⟨turn, low, phase⟩ | ⟨turn, low, phase⟩, short, isOpen⟩ | ⟨⟨turn, low, phase⟩, noRun, ⟨reject, refused⟩, isOpen⟩ |
    ⟨⟨turn, low, phase⟩, short, isOpen⟩ | ⟨⟨turn, low, phase⟩, none⟩ := held
  · exact starved turn low (.header (.inl phase) short) isOpen
  · exact starved turn low (.header (.inr phase) short) isOpen
  · exact starved turn low (.operation phase noRun reject refused) isOpen
  · exact starved turn low (.marker phase short) isOpen
  · exact (step_of_engineMoves turn).trans ((JobStep.noPixel (s := s.afterTurn) phase none).engineStep low)

/-! The decode pixel step (R150). -/

theorem decodePixelStep_of_decode {s : State} {i : Instr} {rest : List Byte} (noRun : s.run = 0)
    (decoded : decode s.biq = .ok (i, rest)) : decodePixelStep s = exec i (s.inRead i.byteLength) := by
  rw [decodePixelStep, if_neg (not_not.mpr noRun), decoded]

/-- Settles O20: the step is `decodePixelStep`, and the bytes after the operation are those its length drops. -/
theorem stepRunsTheDecodedOperation : Obligations.StepRunsTheDecodedOperation := by
  intro s ready
  refine ⟨step_of_pendingRun ready, fun noRun i rest decoded => ?_, fun noRun r => starves_of_decode_error ready noRun⟩
  obtain ⟨-, rfl, -⟩ := decode_ok_facts decoded
  rw [step_of_ready_dPix ready, decodePixelStep_of_decode (s := s.afterTurn) noRun decoded]
  rfl

/-! The phases (R224). -/

theorem phaseMoves_of_stopped {s : State} (stopped : s.busy = false) : phaseMoves s.phase = [.dHdr, .eHdr, .pHdr, .error] := by
  obtain phase | phase | phase := busy_eq_false_iff.mp stopped <;> rw [phase] <;> rfl

theorem jobStart_phase_mem (s : State) : s.jobStart.phase ∈ [Phase.dHdr, .eHdr, .pHdr, .error] := by
  obtain ⟨-, -, eq⟩ | ⟨-, -, -, eq⟩ | ⟨-, eq⟩ := s.jobStart_cases <;> rw [eq]
  · simp
  · simp
  · rw [State.setPhase_phase]
    split <;> decide

/-- A move along the sequence of a job: one of the table, to D_END only with CHECK_END_MARKER, and from D_PIX to DONE only
without it. -/
def AllowedMove (check : Bool) (p q : Phase) : Prop :=
  q ∈ phaseMoves p ∧ (q = .dEnd → check = true) ∧ (p = .dPix → q = .done → check = false)

theorem allowedMove_endOfPixels (s : State) : AllowedMove s.params.checkEndMarker .dPix s.endOfPixelsPhase := by
  rw [State.endOfPixelsPhase]
  cases s.params.checkEndMarker <;> exact ⟨by decide, by decide, by decide⟩

/-- An error is allowed wherever the table has it, whether the end marker is checked or not. -/
theorem allowedMove_error {check : Bool} {p : Phase} (mem : .error ∈ phaseMoves p) : AllowedMove check p .error :=
  ⟨mem, nofun, nofun⟩

theorem LacksBytes.error_mem {s : State} (lacks : s.LacksBytes) : .error ∈ phaseMoves s.phase := by
  cases lacks with
  | header phase => obtain phase | phase := phase <;> rw [phase] <;> decide
  | operation phase | marker phase => rw [phase]; decide

/-- A step of a running job keeps the phase or moves along the sequence of its job. -/
theorem JobStep.phase {s t : State} (h : JobStep s t) :
    t.phase = s.phase ∨ AllowedMove s.params.checkEndMarker s.phase t.phase := by
  cases h with
  | starve lacks =>
    obtain ⟨-, eq⟩ | ⟨-, eq⟩ := s.starve_cases <;> rw [eq]
    · exact .inl rfl
    · exact .inr (allowedMove_error (LacksBytes.error_mem lacks))
  | headerRejected phase =>
    obtain phase | phase := phase <;> rw [phase] <;> exact .inr (allowedMove_error (by decide))
  | headerAccepted phase =>
    obtain phase | phase := phase <;> rw [phase]
    · exact .inr (show AllowedMove _ .dHdr .dPix from ⟨by decide, nofun, nofun⟩)
    · exact .inr (show AllowedMove _ .pHdr .done from ⟨by decide, nofun, nofun⟩)
  | continuation phase =>
    rw [State.runContinuation_phase, phase]
    split
    · exact .inr (allowedMove_endOfPixels s)
    · exact .inl rfl
  | operation phase =>
    rw [State.produce_phase, State.setRun_phase, State.inRead_phase, phase]
    split
    · exact .inr (allowedMove_endOfPixels s)
    · exact .inl rfl
  | markerRejected phase => rw [phase]; exact .inr (allowedMove_error (by decide))
  | markerAccepted phase =>
    rw [phase]
    exact .inr (show AllowedMove _ .dEnd .done from ⟨by decide, nofun, nofun⟩)
  | headerEmitted phase =>
    rw [phase]
    exact .inr (show AllowedMove _ .eHdr .ePix from ⟨by decide, nofun, nofun⟩)
  | noPixel => exact .inl rfl
  | pixelEncoded phase px =>
    obtain ⟨out, run, cache, eq, -⟩ := encodePixel_effect px s.pixIn
    rw [eq, State.finishEncodePixel_phase, phase]
    split
    · exact .inr ⟨by decide, nofun, nofun⟩
    · exact .inl phase
  | markerEmitted phase =>
    rw [phase]
    exact .inr (show AllowedMove _ .eEnd .done from ⟨by decide, nofun, nofun⟩)

/-- Settles O43: by cases on the step; the phase of a running job is `JobStep.phase`'s, a job start's is
`jobStart_phase_mem`'s. -/
theorem phaseSequenceOfEachJob : Obligations.PhaseSequenceOfEachJob := by
  intro s t h moved
  cases machineStep_of_step h with
  | reset pins high => exact .inl ⟨rfl, high⟩
  | start turn low accepts =>
    have stopped : s.busy = false := by
      by_contra busy
      nomatch (accepts_of_busy (Bool.not_eq_false _ ▸ busy)).symm.trans accepts
    have mem := jobStart_phase_mem s.afterTurn
    rw [phaseMoves_of_stopped stopped]
    refine .inr ⟨mem, fun _ => accepts, fun marker => ?_, fun decoding => ?_⟩
    · rw [marker] at mem
      exact absurd mem (by decide)
    · rw [State.busy, decoding] at stopped
      nomatch stopped
  | rest => exact absurd rfl moved
  | job low h =>
    obtain same | ⟨mem, marker, unchecked⟩ := h.phase
    · exact absurd same moved
    · exact .inr ⟨mem, fun stopped => (nomatch stopped.symm.trans h.busy), marker, unchecked⟩
  | host => exact absurd rfl moved

end Sys2Proof.Machine
end

section
/-! PROOFS. What errors (60_exceptions.md R243), traffic (10_state.md R30, R31; 20_memory.md R66, R67) and commands
(44_job_control.md R225) leave behind. -/

namespace Sys2Proof.Machine

/-! Errors. -/

/-- An error of a running job: a code, the bytes read, and no other write (R243). -/
structure PreciseError (s t : State) : Prop where
  err : t.err ≠ 0
  pixels : s.KeepsPixels t
  header : s.KeepsHeader t
  ports : s.KeepsPorts t
  reads : ∃ n, n ≤ s.biq.length ∧ s.ReadsBytes t n

theorem raise_precise {s : State} {n : Nat} (le : n ≤ s.biq.length) (e : ErrorKind) : PreciseError s ((s.inRead n).raise e) :=
  ⟨e.code_ne.1, ⟨rfl, rfl, rfl, rfl, rfl⟩, ⟨rfl, rfl, rfl, rfl, rfl⟩, ⟨rfl, rfl, rfl, rfl, rfl, rfl⟩, n, le, ⟨rfl, rfl⟩⟩

theorem phase_ne_error_of_busy {s : State} (busy : s.busy = true) : s.phase ≠ .error := by
  intro error
  rw [State.busy, error] at busy
  nomatch busy

theorem endOfPixelsPhase_ne_error (s : State) : s.endOfPixelsPhase ≠ .error := by
  rw [State.endOfPixelsPhase]
  split <;> decide

theorem JobStep.error_precise {s t : State} (h : JobStep s t) (error : t.phase = .error) : PreciseError s t := by
  have running := phase_ne_error_of_busy h.busy
  cases h with
  | starve =>
    obtain ⟨-, eq⟩ | ⟨-, eq⟩ := s.starve_cases <;> rw [eq] at error ⊢
    · exact absurd error running
    · exact raise_precise le_rfl _
  | headerRejected _ enough | markerRejected _ enough => exact raise_precise enough _
  | headerAccepted =>
    rw [State.setPhase_phase] at error
    split at error <;> nomatch error
  | continuation =>
    rw [State.runContinuation_phase] at error
    split at error
    · exact absurd error (endOfPixelsPhase_ne_error _)
    · exact absurd error running
  | operation =>
    rw [State.produce_phase] at error
    split at error
    · exact absurd error (endOfPixelsPhase_ne_error _)
    · exact absurd error running
  | pixelEncoded _ px =>
    obtain ⟨out, run, cache, eq, -⟩ := encodePixel_effect px s.pixIn
    rw [eq, State.finishEncodePixel_phase] at error
    split at error
    · nomatch error
    · exact absurd error running
  | noPixel => exact absurd error running
  | markerAccepted | headerEmitted | markerEmitted => nomatch error

/-- A job start that ends in ERROR is the ENCODE with a zero dimension (R223). -/
theorem jobStart_error {s : State} (error : s.jobStart.phase = .error) : s.pins.cmd = cmdEncode ∧ s.jobStart.err = 2 := by
  obtain ⟨encode, -, eq⟩ | ⟨-, -, -, eq⟩ | ⟨-, eq⟩ := s.jobStart_cases <;> rw [eq] at error ⊢
  · exact ⟨encode, rfl⟩
  · nomatch error
  · rw [State.setPhase_phase] at error
    split at error <;> nomatch error

/-- Settles O44: in a running job by `JobStep.error_precise`; outside one only a job start can enter ERROR. -/
theorem errorsArePreciseAndKeepTheirState : Obligations.ErrorsArePreciseAndKeepTheirState := by
  intro s t h error
  cases machineStep_of_step h with
  | reset => nomatch error
  | start turn low accepts =>
    refine ⟨fun busy => (nomatch (accepts_of_busy busy).symm.trans accepts), fun _ _ => ?_⟩
    obtain ⟨encode, err⟩ := jobStart_error error
    obtain ⟨poq, boq, -⟩ := jobStart_keeps_outputs_and_host s.afterTurn
    exact ⟨err, jobStart_freshJob _, poq, boq, encode⟩
  | rest _ stopped => exact ⟨fun busy => (nomatch stopped.symm.trans busy), fun _ before => absurd error before⟩
  | job low h =>
    refine ⟨fun _ => ?_, fun stopped => nomatch stopped.symm.trans h.busy⟩
    obtain ⟨err, pixels, header, ports, reads⟩ := h.error_precise error
    exact ⟨err, ⟨pixels.prev, pixels.run, pixels.cache, pixels.pixcount, pixels.poq⟩,
      ⟨header.width, header.height, header.channels, header.colorspace, header.npix⟩, ports, reads⟩
  | host => exact ⟨fun busy => absurd error (phase_ne_error_of_busy busy), fun _ before => absurd error before⟩

/-! Traffic. -/

/-- From `s` to `t` the pixels `po` and the bytes `bo` are output, `pi` pixels and `bi` bytes are taken from the input queues,
and the two counters count them. -/
structure Traffic (s t : State) (po : List Pixel) (bo : List Byte) (pi bi : Nat) : Prop where
  poq : t.poq = s.poq ++ po
  boq : t.boq = s.boq ++ bo
  piq : s.piq.length = t.piq.length + pi
  biq : s.biq.length = t.biq.length + bi
  pixcount : t.pixcount = s.pixcount + BitVec.ofNat 64 (po.length + pi)
  bytecount : t.bytecount = s.bytecount + BitVec.ofNat 64 (bi + bo.length)

theorem traffic_none (s : State) : Traffic s s [] [] 0 0 := by
  constructor <;> simp

/-- A step that reads bytes and writes neither output nor `PIXCOUNT`. -/
theorem traffic_of_read {s t : State} {n : Nat} (le : n ≤ s.biq.length) (reads : s.ReadsBytes t n) (poq : t.poq = s.poq)
    (boq : t.boq = s.boq) (piq : t.piq = s.piq) (pixcount : t.pixcount = s.pixcount) : Traffic s t [] [] 0 n := by
  constructor <;> simp [poq, boq, piq, pixcount, reads.biq, reads.bytecount]
  omega

/-- A pixel step of the decoder that reads `n` bytes. -/
theorem traffic_of_emitsPixel {s t : State} {n : Nat} {px : Pixel} (le : n ≤ s.biq.length) (reads : s.ReadsBytes t n)
    (emits : s.EmitsPixel t px) : Traffic s t [px] [] 0 n := by
  constructor <;> simp [emits.out, emits.count, emits.ports.boq, emits.ports.piq, reads.biq, reads.bytecount]
  omega

/-- A step of the encoder that emits `out`. -/
theorem traffic_of_write (s : State) (out : List Byte) (p : Phase) :
    Traffic s ((s.outWrite out).setPhase p) [] out 0 0 := by
  constructor <;> simp

theorem traffic_of_pixel {s : State} {px : Pixel} {more : List Pixel} (offered : s.piq = px :: more) (run : BitVec 6)
    (cache : Vector Pixel 64) (out : List Byte) :
    Traffic s (({ s.pixIn with run := run, cache := cache } : State).finishEncodePixel out px) [] out 1 0 := by
  constructor <;> simp [offered]

/-- The traffic of a step of a running job, with the bounds of R67. -/
theorem JobStep.traffic {s t : State} (h : JobStep s t) :
    ∃ po bo pi bi, Traffic s t po bo pi bi ∧ po.length ≤ 1 ∧ bo.length ≤ 14 := by
  cases h with
  | starve =>
    obtain ⟨-, eq⟩ | ⟨-, eq⟩ := s.starve_cases <;> rw [eq]
    · exact ⟨_, _, _, _, traffic_none s, Nat.zero_le _, Nat.zero_le _⟩
    · exact ⟨_, _, _, _, traffic_of_read le_rfl ⟨rfl, rfl⟩ rfl rfl rfl rfl, Nat.zero_le _, Nat.zero_le _⟩
  | headerRejected _ enough | headerAccepted _ enough | markerRejected _ enough | markerAccepted _ enough =>
    exact ⟨_, _, _, _, traffic_of_read enough ⟨rfl, rfl⟩ rfl rfl rfl rfl, Nat.zero_le _, Nat.zero_le _⟩
  | continuation =>
    have reads : s.ReadsBytes s.runContinuation 0 := ⟨by simp, by simp⟩
    exact ⟨_, _, _, _, traffic_of_emitsPixel (Nat.zero_le _) reads (runContinuation_emitsPixel s), le_rfl, Nat.zero_le _⟩
  | operation _ _ i rest decoded =>
    obtain ⟨-, -, fits, -⟩ := decode_ok_facts decoded
    have produced := produce_producesPixel (s.inRead i.byteLength) (operationRun i s) (operationPixel i s)
    exact ⟨_, _, _, _, traffic_of_emitsPixel fits ⟨produced.biq, produced.bytecount⟩ (emitsPixel_of_inRead produced.emits),
      le_rfl, Nat.zero_le _⟩
  | headerEmitted => exact ⟨_, _, _, _, traffic_of_write s _ _, Nat.zero_le _, le_rfl⟩
  | noPixel => exact ⟨_, _, _, _, traffic_none s, Nat.zero_le _, Nat.zero_le _⟩
  | pixelEncoded _ px more offered =>
    obtain ⟨out, run, cache, eq, short, -⟩ := encodePixel_effect px s.pixIn
    rw [eq]
    exact ⟨_, _, _, _, traffic_of_pixel offered run cache out, Nat.zero_le _, short.trans (by decide)⟩
  | markerEmitted => exact ⟨_, _, _, _, traffic_of_write s _ _, Nat.zero_le _, by decide⟩

/-- Settles O45: only a step of a running job adds to the outputs, by `JobStep.traffic`. -/
theorem outputsAreNeverRetracted : Obligations.OutputsAreNeverRetracted := by
  intro s t h
  have none {u : State} (poq : u.poq = s.poq) (boq : u.boq = s.boq) : ∃ (ps : List Pixel) (bs : List Byte),
      u.poq = s.poq ++ ps ∧ u.boq = s.boq ++ bs ∧ ps.length ≤ 1 ∧ bs.length ≤ 14 :=
    ⟨[], [], by rw [poq, List.append_nil], by rw [boq, List.append_nil], Nat.zero_le _, Nat.zero_le _⟩
  cases machineStep_of_step h with
  | reset | rest | host => exact none rfl rfl
  | start =>
    obtain ⟨poq, boq, -⟩ := jobStart_keeps_outputs_and_host s.afterTurn
    exact none poq boq
  | job low h =>
    obtain ⟨po, bo, _, _, traffic, pixels, bytes⟩ := h.traffic
    exact ⟨po, bo, traffic.poq, traffic.boq, pixels, bytes⟩

/-- Settles O46: the engine's turn in a running job is a `JobStep`. -/
theorem countersCountTheTraffic : Obligations.CountersCountTheTraffic := by
  intro s t turn low busy h
  obtain ⟨po, bo, pi, bi, traffic, -⟩ :=
    (jobStep_of_engineStep (s := s.afterTurn) low busy ((step_of_engineMoves turn).symm.trans h)).traffic
  exact ⟨po.length, pi, bi, bo.length, by rw [traffic.poq, List.length_append]; rfl, traffic.piq, traffic.biq,
    by rw [traffic.boq, List.length_append]; rfl, traffic.pixcount, traffic.bytecount⟩

/-! The status (R37). -/

theorem statusBits_toNat : ∀ (err : BitVec 3) (e d b : Bool),
    (0b0#1 ++ err ++ 0b0#1 ++ BitVec.ofBool e ++ BitVec.ofBool d ++ BitVec.ofBool b).toNat =
      b.toNat + 2 * d.toNat + 4 * e.toNat + 16 * err.toNat := by
  decide

theorem status_toNat (s : State) :
    s.status.toNat = s.busy.toNat + 2 * s.doneBit.toNat + 4 * s.errorBit.toNat + 16 * s.err.toNat :=
  statusBits_toNat ..

/-- Settles O47: the status byte is its bits by weight, and each phase has its own. -/
theorem statusByteLayout : Obligations.StatusByteLayout := by
  intro s
  rw [status_toNat, State.cmdReady, State.busy, State.doneBit, State.errorBit]
  cases s.phase <;> simp <;> omega

theorem raise_status (s : State) (e : ErrorKind) : (s.raise e).status =
    0b0#1 ++ e.code ++ 0b0#1 ++ BitVec.ofBool true ++ BitVec.ofBool false ++ BitVec.ofBool false := rfl

/-- Settles O48: the phase of a raise is ERROR, and the code is the kind's. -/
theorem errorCodesOfTheKinds : Obligations.ErrorCodesOfTheKinds := by
  intro s
  simp only [raise_status]
  decide

end Sys2Proof.Machine
end

section
/-! PROOFS. The host's moves with `rst` low (44_job_control.md R230): each writes its own input, and a list of them starts a job
and feeds it. -/

namespace Sys2Proof.Machine

/-! One move. -/

theorem hostMove_rst_low {s : State} (low : s.pins.rst = false) : s.hostMove (.rst false) = s := by
  have same : ({ s.pins with rst := false } : Pins) = s.pins := by rw [← low]
  rw [State.hostMove, same]
  exact State.underReset_low low

theorem hostMove_idle {s : State} (low : s.pins.rst = false) : s.hostMove .idle = s := State.underReset_low low

/-- Settles O49: each move by its effect; what it does not write is as it was. -/
theorem hostWritesOnlyInputs : Obligations.HostWritesOnlyInputs := by
  intro s m rest host notTurn notReset low
  have stepped := step_hostMove host notTurn
  have low' : ({ s with host := rest } : State).pins.rst = false := low
  cases m
  case engine => exact absurd rfl notTurn
  case' rst level =>
    obtain rfl : level = false := Bool.eq_false_iff.mpr fun high => notReset (congrArg _ high)
  all_goals
    simp only [hostMove_rst_low low', State.hostMove_cmd low', State.hostMove_cfg low', State.hostMove_byte low',
      State.hostMove_eos low', State.hostMove_pixel low', hostMove_idle low'] at stepped
    refine ⟨_, stepped, rfl, rfl, rfl, rfl, ⟨rfl, rfl, rfl, rfl, rfl⟩, ⟨rfl, rfl, rfl, rfl, rfl⟩, rfl, rfl, ?_⟩
  case rst | idle => exact ⟨.inl rfl, .inl rfl, .inl rfl, .inl rfl, nofun, nofun, nofun, nofun, nofun⟩
  case cmd v c =>
    refine ⟨.inl rfl, .inl rfl, .inl rfl, .inr (.inl ⟨v, c, rfl⟩), nofun, nofun, nofun, fun _ _ h => ?_, nofun⟩
    cases h; rfl
  case cfg w h =>
    refine ⟨.inl rfl, .inl rfl, .inl rfl, .inr (.inr ⟨w, h, rfl⟩), nofun, nofun, nofun, nofun, fun _ _ h => ?_⟩
    cases h; rfl
  case byte b =>
    refine ⟨.inr ⟨b, rfl, rfl⟩, .inl rfl, .inl rfl, .inl rfl, fun _ h _ => ?_, nofun, nofun, nofun, nofun⟩
    cases h; rfl
  case eos =>
    exact ⟨.inl rfl, .inl rfl, .inr ⟨rfl, rfl⟩, .inl rfl, nofun, nofun, fun _ => rfl, nofun, nofun⟩
  case pixel w =>
    refine ⟨.inl rfl, .inr ⟨w, rfl, rfl⟩, .inl rfl, .inl rfl, nofun, fun _ h => ?_, nofun, nofun, nofun⟩
    cases h; rfl

/-! A list of moves. -/

theorem step_cfg {s : State} {w h : Word32} {more : List HostMove} (low : s.pins.rst = false)
    (host : s.host = .cfg w h :: more) :
    step s = .next { s with host := more, pins := { s.pins with cfgWidth := w, cfgHeight := h } } :=
  (step_hostMove host nofun).trans (congrArg _ (State.hostMove_cfg (s := { s with host := more }) low w h))

theorem step_cmd {s : State} {v : Bool} {c : BitVec 2} {more : List HostMove} (low : s.pins.rst = false)
    (host : s.host = .cmd v c :: more) :
    step s = .next { s with host := more, pins := { s.pins with cmdValid := v, cmd := c } } :=
  (step_hostMove host nofun).trans (congrArg _ (State.hostMove_cmd (s := { s with host := more }) low v c))

theorem step_byte {s : State} {b : Byte} {more : List HostMove} (low : s.pins.rst = false) (host : s.host = .byte b :: more) :
    step s = .next { s with host := more, biq := s.biq ++ [b] } :=
  (step_hostMove host nofun).trans (congrArg _ (State.hostMove_byte (s := { s with host := more }) low b))

theorem step_pixel {s : State} {px : Pixel} {more : List HostMove} (low : s.pins.rst = false)
    (host : s.host = .pixel (packPixel px) :: more) : step s = .next { s with host := more, piq := s.piq ++ [px] } := by
  have moved := State.hostMove_pixel (s := { s with host := more }) low (packPixel px)
  rw [unpackPixel_packPixel] at moved
  exact (step_hostMove host nofun).trans (congrArg _ moved)

theorem step_eos {s : State} {more : List HostMove} (low : s.pins.rst = false) (host : s.host = .eos :: more) :
    step s = .next { s with host := more, biClosed := true } :=
  (step_hostMove host nofun).trans (congrArg _ (State.hostMove_eos (s := { s with host := more }) low))

/-- Offering bytes one by one puts them in the byte-input queue, in order. -/
theorem run_bytes (bytes : List Byte) (more : List HostMove) {s : State} (low : s.pins.rst = false)
    (host : s.host = bytes.map .byte ++ more) :
    Host.Core.run Sys2Proof.core bytes.length s = .next { s with host := more, biq := s.biq ++ bytes } := by
  induction bytes generalizing s with
  | nil =>
    rw [List.append_nil, ← show s.host = more from host]
    rfl
  | cons b bytes ih =>
    have rest := ih (s := { s with host := bytes.map .byte ++ more, biq := s.biq ++ [b] }) low rfl
    rw [List.append_assoc] at rest
    exact (run_of_step bytes.length (step_byte low host)).trans rest

/-- Offering pixel words one by one puts their pixels in the pixel-input queue, in order. -/
theorem run_pixels (pixels : List Pixel) {s : State} (low : s.pins.rst = false)
    (host : s.host = pixels.map fun px => .pixel (packPixel px)) :
    Host.Core.run Sys2Proof.core pixels.length s = .next { s with host := [], piq := s.piq ++ pixels } := by
  induction pixels generalizing s with
  | nil =>
    rw [List.append_nil, ← show s.host = [] from host]
    rfl
  | cons px pixels ih =>
    have rest := ih (s := { s with host := pixels.map fun px => .pixel (packPixel px), piq := s.piq ++ [px] }) low rfl
    rw [List.append_assoc] at rest
    exact (run_of_step pixels.length (step_pixel low host)).trans rest

/-- A job start does not look at the host list. -/
theorem jobStart_withHost (s : State) (host : List HostMove) :
    ({ s with host := host } : State).jobStart = { s.jobStart with host := host } := by
  unfold State.jobStart
  dsimp only
  split_ifs <;> rfl

/-- The state in which the engine, with nothing more to come from the host, has accepted a command (R222): what `decodeJob` and
`encodeJob` put the offered input into. -/
def State.commanded (s : State) (c : BitVec 2) (w h : Word32) : State :=
  ({ s with pins := ⟨false, true, c, w, h⟩, host := [] } : State).jobStart

theorem decodeJob_eq (s : State) (bytes : List Byte) :
    s.decodeJob bytes = { s.commanded cmdDecode 0 0 with biq := bytes } := rfl

theorem encodeJob_eq (s : State) (w h : Word32) (pixels : List Pixel) :
    s.encodeJob w h pixels = { s.commanded cmdEncode w h with piq := pixels } := rfl

/-- It has empty inputs, no host moves and `rst` low. -/
theorem commanded_facts (s : State) (c : BitVec 2) (w h : Word32) : (s.commanded c w h).biq = [] ∧
    (s.commanded c w h).piq = [] ∧ (s.commanded c w h).host = [] ∧ (s.commanded c w h).pins.rst = false := by
  obtain ⟨biq, -, piq⟩ := jobStart_empties_inputs { s with pins := ⟨false, true, c, w, h⟩, host := [] }
  obtain ⟨-, -, -, pins, host⟩ := jobStart_keeps_outputs_and_host { s with pins := ⟨false, true, c, w, h⟩, host := [] }
  exact ⟨biq, piq, host, congrArg Pins.rst pins⟩

/-- Driving the configuration and a command and giving the engine its turn starts the job. -/
theorem run_start {s : State} (low : s.pins.rst = false) (free : s.busy = false) (w h : Word32) {c : BitVec 2}
    (notNop : c ≠ 0) (more : List HostMove) :
    Host.Core.run Sys2Proof.core 3 { s with host := .cfg w h :: .cmd true c :: .engine :: more } =
      .next { s.commanded c w h with host := more } := by
  let configured : State := { s with
    pins := { s.pins with cfgWidth := w, cfgHeight := h }, host := .cmd true c :: .engine :: more }
  let offering : State := { s with pins := ⟨s.pins.rst, true, c, w, h⟩, host := .engine :: more }
  have first : step { s with host := .cfg w h :: .cmd true c :: .engine :: more } = .next configured := step_cfg low rfl
  have second : step configured = .next offering := step_cmd low rfl
  have third : step offering = .next offering.afterTurn.jobStart :=
    step_of_accepts rfl low (accepts_of_offered free rfl notNop)
  rw [run_of_step 2 first, run_of_step 1 second, run_of_step 0 third, State.commanded, ← jobStart_withHost, ← low]
  rfl

/-- Driving DECODE and offering bytes brings the engine to the start of the DECODE job over them. -/
theorem run_decodeJob {s : State} (low : s.pins.rst = false) (free : s.busy = false) (bytes : List Byte)
    (more : List HostMove) : Host.Core.run Sys2Proof.core (bytes.length + 3)
      { s with host := .cfg 0 0 :: .cmd true 1 :: .engine :: (bytes.map .byte ++ more) } =
        .next { s.decodeJob bytes with host := more } := by
  obtain ⟨biq, -, -, rst⟩ := commanded_facts s cmdDecode 0 0
  have fed := run_bytes bytes more (s := { s.commanded cmdDecode 0 0 with host := bytes.map .byte ++ more }) rst rfl
  rw [biq, List.nil_append] at fed
  rw [decodeJob_eq]
  exact (run_of_run 3 bytes.length (run_start low free 0 0 (by decide) _)).trans fed

/-- Driving ENCODE and offering pixel words brings the engine to the start of the ENCODE job over their pixels. -/
theorem run_encodeJob {s : State} (low : s.pins.rst = false) (free : s.busy = false) (w h : Word32) (pixels : List Pixel) :
    Host.Core.run Sys2Proof.core (pixels.length + 3)
      { s with host := .cfg w h :: .cmd true 2 :: .engine :: pixels.map fun px => .pixel (packPixel px) } =
        .next (s.encodeJob w h pixels) := by
  obtain ⟨-, piq, host, rst⟩ := commanded_facts s cmdEncode w h
  have fed := run_pixels pixels
    (s := { s.commanded cmdEncode w h with host := pixels.map fun px => .pixel (packPixel px) }) rst rfl
  rw [piq, List.nil_append, ← host] at fed
  rw [encodeJob_eq]
  exact (run_of_run 3 pixels.length (run_start low free w h (by decide) _)).trans fed

/-- Settles O51: `run_decodeJob`, the move `bi_eos` after it, and `run_encodeJob`. -/
theorem hostMovesStartAJobAndFeedIt : Obligations.HostMovesStartAJobAndFeedIt := by
  intro s bytes w h pixels low free
  obtain ⟨-, -, host, rst⟩ := commanded_facts s cmdDecode 0 0
  have unhosted : ({ s.decodeJob bytes with host := [] } : State) = s.decodeJob bytes := by rw [decodeJob_eq, ← host]
  refine ⟨?decode, ?closed, run_encodeJob low free w h pixels⟩
  case decode =>
    have started := run_decodeJob low free bytes []
    rwa [List.append_nil, unhosted] at started
  case closed =>
    have closes : step { s.decodeJob bytes with host := [.eos] } = .next { s.decodeJob bytes with host := [], biClosed := true } :=
      step_eos rst rfl
    rw [show bytes.length + 4 = 1 + (bytes.length + 3) by omega, run_of_run _ 1 (run_decodeJob low free bytes [.eos]), run_of_step 0 closes]
    exact congrArg _ (congrArg (fun u : State => { u with biClosed := true }) unhosted)

end Sys2Proof.Machine
end

section
/-! PROOFS. What a running job does not look at: the command and configuration inputs, the channel count and colorspace, what was
output before, and input behind what its next step takes. The step of a job commutes with any change of these, said once
(`JobStep.within`) and used for each. -/

namespace Sys2Proof.Machine

/-! The surroundings of a job. -/

/-- A change of what a running job does not look at. -/
structure Surroundings where
  pins : Pins → Pins
  channels : Byte → Byte
  colorspace : Byte → Byte
  /-- pixels output before -/
  poq : List Pixel
  /-- bytes output before -/
  boq : List Byte
  /-- bytes offered behind the queue -/
  biq : List Byte
  /-- pixels offered behind the queue -/
  piq : List Pixel

/-- The state with its surroundings changed. -/
def State.within (s : State) (c : Surroundings) : State :=
  { s with pins := c.pins s.pins, channels := c.channels s.channels, colorspace := c.colorspace s.colorspace
           poq := c.poq ++ s.poq, boq := c.boq ++ s.boq, biq := s.biq ++ c.biq, piq := s.piq ++ c.piq }

variable (c : Surroundings)

/-! The operations of the steps commute with the change. -/

theorem inRead_within {s : State} {n : Nat} (le : n ≤ s.biq.length) : (s.within c).inRead n = (s.inRead n).within c := by
  simp only [State.within, State.inRead, List.drop_append_of_le_length le]

theorem outWrite_within (s : State) (bytes : List Byte) : (s.within c).outWrite bytes = (s.outWrite bytes).within c := by
  simp only [State.within, State.outWrite, List.append_assoc]

theorem pixOut_within (s : State) (px : Pixel) : (s.within c).pixOut px = (s.pixOut px).within c := by
  simp only [State.within, State.pixOut, List.append_assoc]

theorem setHeader_within (channels : c.channels = id) (colorspace : c.colorspace = id) (s : State) (hd : Header) :
    (s.within c).setHeader hd = (s.setHeader hd).within c := by
  simp only [State.within, State.setHeader, channels, colorspace, id_eq]

theorem emitPixel_within (s : State) (px : Pixel) : (s.within c).emitPixel px = (s.emitPixel px).within c := by
  let t := (s.pixOut px).countPixel
  rw [State.emitPixel, State.emitPixel, pixOut_within]
  exact (apply_ite (State.within · c) (t.pixcount = t.npix) (t.setPhase t.endOfPixelsPhase) t).symm

theorem runContinuation_within (s : State) : (s.within c).runContinuation = s.runContinuation.within c :=
  emitPixel_within c (s.setRun (s.run - 1)) s.prev

theorem produce_within (s : State) (px : Pixel) : (s.within c).produce px = (s.produce px).within c :=
  emitPixel_within c ((s.cacheWrite (pixelHash px) px).setPrev px) px

theorem operationPixel_within (i : Instr) (s : State) : operationPixel i (s.within c) = operationPixel i s := by
  cases i <;> rfl

theorem operationRun_within (i : Instr) (s : State) : operationRun i (s.within c) = operationRun i s := by
  cases i <;> rfl

theorem finishEncodePixel_within (s : State) (out : List Byte) (px : Pixel) :
    (s.within c).finishEncodePixel out px = (s.finishEncodePixel out px).within c := by
  let t := ((s.outWrite out).setPrev px).countPixel
  rw [State.finishEncodePixel, State.finishEncodePixel, outWrite_within]
  exact (apply_ite (State.within · c) (t.pixcount = t.npix) (t.setPhase .eEnd) t).symm

/-- The bytes a path of the encoder emits, with the change made to the state it leaves. -/
def pathWithin (path : List Byte × State) : List Byte × State := (path.1, path.2.within c)

theorem encodeRepeat_within (last : Bool) (s : State) :
    encodeRepeat last (s.within c) = pathWithin c (encodeRepeat last s) :=
  (apply_ite (pathWithin c) (s.run + 1 = 62 ∨ last = true) (flushBytes (s.run + 1), s.setRun 0)
    ([], s.setRun (s.run + 1))).symm

theorem encodeFresh_within (px : Pixel) (s : State) : encodeFresh px (s.within c) = pathWithin c (encodeFresh px s) := by
  have held : (s.within c).contains px = s.contains px := rfl
  obtain ⟨hit, eq⟩ | ⟨miss, eq⟩ := State.encodeFresh_cases px s <;>
    obtain ⟨hit', eq'⟩ | ⟨miss', eq'⟩ := State.encodeFresh_cases px (s.within c) <;> rw [eq, eq']
  · rfl
  · nomatch (held.symm.trans miss').symm.trans hit
  · nomatch (held.symm.trans hit').symm.trans miss
  · rfl

theorem encodePixel_within (px : Pixel) (s : State) :
    encodePixel px (s.within c) = pathWithin c (encodePixel px s) := by
  rw [encodePixel, encodePixel, show (s.within c).prev = s.prev from rfl]
  split
  · exact encodeRepeat_within c s.atLastPixel s
  · exact encodeFresh_within c px s

/-- The decoder takes the same operation whatever comes behind its bytes. -/
theorem decode_append {bs rest : List Byte} {i : Instr} (decoded : decode bs = .ok (i, rest)) (more : List Byte) :
    decode (bs ++ more) = .ok (i, rest ++ more) := by
  obtain ⟨wf, -⟩ := decode_ok_facts decoded
  rw [encode_of_decode decoded, List.append_assoc]
  exact decode_encode wf _

/-! The step of a job commutes with the change. -/

theorem biq_within {c : Surroundings} (none : c.biq = []) (s : State) : (s.within c).biq = s.biq := by
  rw [State.within, none, List.append_nil]

theorem lacksBytes_within {c : Surroundings} (none : c.biq = []) {s : State} (lacks : s.LacksBytes) :
    (s.within c).LacksBytes := by
  have biq := biq_within none s
  cases lacks with
  | header phase short => exact .header phase (biq ▸ short)
  | operation phase noRun reject refused => exact .operation phase noRun reject (biq ▸ refused)
  | marker phase short => exact .marker phase (biq ▸ short)

theorem starve_within {c : Surroundings} (none : c.biq = []) (s : State) : (s.within c).starve = s.starve.within c := by
  cases closed : s.biClosed
  case false => rw [starve_of_open closed, starve_of_open (s := s.within c) closed]
  case true =>
    rw [State.starve, State.starve, if_pos closed, if_pos (show (s.within c).biClosed = true from closed), State.inAvail,
      biq_within none, inRead_within c le_rfl]
    rfl

/-- A step of a running job does the same in other surroundings, if these offer no more input or the step has what it needs. A
header step must find the channel count and colorspace as they are, for it writes them. -/
theorem JobStep.within {c : Surroundings} {s t : State} (h : JobStep s t)
    (input : (c.biq = [] ∧ c.piq = []) ∨ (t ≠ s ∧ s.biClosed = false))
    (header : s.phase = .dPix ∨ (c.channels = id ∧ c.colorspace = id)) : JobStep (s.within c) (t.within c) := by
  have longer : s.biq.length ≤ (s.within c).biq.length := by simp [State.within]
  cases h with
  | starve lacks =>
    obtain ⟨biq, -⟩ | ⟨moved, isOpen⟩ := input
    · rw [← starve_within biq]
      exact .starve (lacksBytes_within biq lacks)
    · exact absurd (starve_of_open isOpen) moved
  | headerRejected phase enough e rejected =>
    rw [← List.take_append_of_le_length enough (l₂ := c.biq)] at rejected
    have h := JobStep.headerRejected (s := s.within c) phase (enough.trans longer) e rejected
    rwa [inRead_within c enough] at h
  | headerAccepted phase enough hd accepted =>
    obtain decoding | ⟨channels, colorspace⟩ := header
    · rw [decoding] at phase
      exact absurd phase (by decide)
    · rw [← List.take_append_of_le_length enough (l₂ := c.biq)] at accepted
      have h := JobStep.headerAccepted (s := s.within c) phase (enough.trans longer) hd accepted
      rwa [inRead_within c enough, setHeader_within c channels colorspace] at h
  | continuation phase pending =>
    rw [← runContinuation_within]
    exact .continuation phase pending
  | operation phase noRun i rest decoded =>
    obtain ⟨-, -, fits, -⟩ := decode_ok_facts decoded
    have h := JobStep.operation (s := s.within c) phase noRun i _ (decode_append decoded c.biq)
    rw [inRead_within c fits, operationPixel_within, operationRun_within] at h
    rw [← produce_within]
    exact h
  | markerRejected phase enough wrong =>
    rw [← List.take_append_of_le_length enough (l₂ := c.biq)] at wrong
    have h := JobStep.markerRejected (s := s.within c) phase (enough.trans longer) wrong
    rwa [inRead_within c enough] at h
  | markerAccepted phase enough right =>
    rw [← List.take_append_of_le_length enough (l₂ := c.biq)] at right
    have h := JobStep.markerAccepted (s := s.within c) phase (enough.trans longer) right
    rwa [inRead_within c enough] at h
  | headerEmitted phase =>
    have h := JobStep.headerEmitted (s := s.within c) phase
    rwa [State.headerEmitStep, outWrite_within] at h
  | noPixel phase none =>
    obtain ⟨-, piq⟩ | ⟨moved, -⟩ := input
    · exact .noPixel phase (by rw [State.within, none, piq, List.append_nil])
    · exact absurd rfl moved
  | pixelEncoded phase px more offered =>
    have offered' : (s.within c).piq = px :: (more ++ c.piq) := by rw [State.within, offered]; rfl
    have taken : (s.within c).pixIn = s.pixIn.within c := by simp only [State.within, State.pixIn, offered]; rfl
    have h := JobStep.pixelEncoded (s := s.within c) phase px _ offered'
    rw [taken, encodePixel_within] at h
    rw [← finishEncodePixel_within]
    exact h
  | markerEmitted phase =>
    have h := JobStep.markerEmitted (s := s.within c) phase
    rwa [State.endEmitStep, outWrite_within] at h

/-! The obligations about one step. -/

/-- The channel count and the colorspace changed, and nothing else. -/
def informational (ch cs : Byte) : Surroundings :=
  { pins := id, channels := fun _ => ch, colorspace := fun _ => cs, poq := [], boq := [], biq := [], piq := [] }

theorem within_informational (s : State) (ch cs : Byte) :
    s.within (informational ch cs) = { s with channels := ch, colorspace := cs } := by
  simp only [State.within, informational, id_eq, List.nil_append, List.append_nil]

/-- Settles O24: the engine's turn in D_PIX is a `JobStep` that commutes with the change. -/
theorem channelsAndColorspaceAreInformational : Obligations.ChannelsAndColorspaceAreInformational := by
  rintro s t ch cs ⟨turn, low, phase⟩ stepped
  have h := jobStep_of_engineStep (s := s.afterTurn) low (by rw [State.busy, show s.afterTurn.phase = _ from phase])
    ((step_of_engineMoves turn).symm.trans stepped)
  have h' := h.within (c := informational ch cs) (.inl ⟨rfl, rfl⟩) (.inl phase)
  rw [within_informational, within_informational] at h'
  exact (step_of_engineMoves (s := { s with channels := ch, colorspace := cs }) turn).trans (h'.engineStep low)

/-- The control inputs changed, and nothing else. -/
def driven (pins : Pins) : Surroundings :=
  { pins := fun _ => pins, channels := id, colorspace := id, poq := [], boq := [], biq := [], piq := [] }

theorem within_driven (s : State) (pins : Pins) : s.within (driven pins) = { s with pins := pins } := by
  simp only [State.within, driven, id_eq, List.nil_append, List.append_nil]

/-- No step of any kind writes the parameters. -/
theorem step_params {s t : State} (h : step s = .next t) : t.params = s.params := by
  cases machineStep_of_step h with
  | reset | rest | host => rfl
  | start => exact (jobStart_keeps_outputs_and_host s.afterTurn).2.2.1
  | job _ h =>
    cases h with
    | starve => obtain ⟨-, eq⟩ | ⟨-, eq⟩ := s.afterTurn.starve_cases <;> rw [eq] <;> rfl
    | continuation => exact State.runContinuation_params _
    | operation => exact State.produce_params _ _
    | pixelEncoded _ px =>
      obtain ⟨out, run, cache, eq, -⟩ := encodePixel_effect px s.afterTurn.pixIn
      rw [eq]
      exact State.finishEncodePixel_params ..
    | headerRejected | headerAccepted | markerRejected | markerAccepted | headerEmitted | noPixel | markerEmitted => rfl

/-- Settles O41: the engine's turn in a running job is a `JobStep`, which commutes with driving the control inputs. -/
theorem busyEngineIgnoresCommandsAndConfiguration : Obligations.BusyEngineIgnoresCommandsAndConfiguration := by
  refine ⟨fun s t valid cmd w h turn busy low stepped => ?_, fun s t => step_params⟩
  have job := jobStep_of_engineStep (s := s.afterTurn) low busy ((step_of_engineMoves turn).symm.trans stepped)
  have job' := job.within (c := driven ⟨false, valid, cmd, w, h⟩) (.inl ⟨rfl, rfl⟩) (.inr ⟨rfl, rfl⟩)
  rw [within_driven, within_driven] at job'
  exact (step_of_engineMoves (s := { s with pins := ⟨false, valid, cmd, w, h⟩ }) turn).trans (job'.engineStep rfl)

/-- More input offered behind the queues, and nothing else changed. -/
def offered (bytes : List Byte) (pixels : List Pixel) : Surroundings :=
  { pins := id, channels := id, colorspace := id, poq := [], boq := [], biq := bytes, piq := pixels }

theorem within_offered (s : State) (bytes : List Byte) (pixels : List Pixel) :
    s.within (offered bytes pixels) = { s with biq := s.biq ++ bytes, piq := s.piq ++ pixels } := by
  simp only [State.within, offered, id_eq, List.nil_append]

theorem engineStep_offered {s t : State} (low : s.pins.rst = false) (busy : s.busy = true) (isOpen : s.biClosed = false)
    (stepped : engineStep s = .next t) (moved : t ≠ s) (bytes : List Byte) (pixels : List Pixel) :
    engineStep { s with biq := s.biq ++ bytes, piq := s.piq ++ pixels } =
      .next { t with biq := t.biq ++ bytes, piq := t.piq ++ pixels } := by
  have h := (jobStep_of_engineStep low busy stepped).within (c := offered bytes pixels) (.inr ⟨moved, isOpen⟩)
    (.inr ⟨rfl, rfl⟩)
  rw [within_offered, within_offered] at h
  exact h.engineStep low

/-- Settles O55: a step that does something on an open stream has its input, and input behind it stays behind it. -/
theorem inputTimingDoesNotMatter : Obligations.InputTimingDoesNotMatter := by
  intro s t b px low busy isOpen stepped moved
  have byte := engineStep_offered low busy isOpen stepped moved [b] []
  have pixel := engineStep_offered low busy isOpen stepped moved [] [px]
  rw [List.append_nil, List.append_nil] at byte pixel
  exact ⟨byte, pixel⟩

end Sys2Proof.Machine
end

section
/-! PROOFS. Isolation (44_job_control.md R221, R222): what was output before an acceptance is all that two machines about to accept
the same command can differ in from then on. -/

namespace Sys2Proof.Machine

/-- Earlier output, and nothing else changed. -/
def delivered (pixels : List Pixel) (bytes : List Byte) : Surroundings :=
  { pins := id, channels := id, colorspace := id, poq := pixels, boq := bytes, biq := [], piq := [] }

variable (pixels : List Pixel) (bytes : List Byte)

theorem within_delivered (s : State) :
    s.within (delivered pixels bytes) = { s with poq := pixels ++ s.poq, boq := bytes ++ s.boq } := by
  simp only [State.within, delivered, id_eq, List.append_nil]

theorem jobStart_delivered (s : State) :
    (s.within (delivered pixels bytes)).jobStart = s.jobStart.within (delivered pixels bytes) := by
  rw [within_delivered, within_delivered]
  unfold State.jobStart
  dsimp only
  split_ifs <;> rfl

theorem resetEngine_delivered (s : State) :
    (s.within (delivered pixels bytes)).resetEngine = s.resetEngine.within (delivered pixels bytes) := by
  rw [within_delivered, within_delivered]
  rfl

theorem hostMove_delivered (m : HostMove) (s : State) :
    (s.within (delivered pixels bytes)).hostMove m = (s.hostMove m).within (delivered pixels bytes) := by
  have underReset (u : State) : (u.within (delivered pixels bytes)).underReset = u.underReset.within (delivered pixels bytes) := by
    obtain ⟨high, eq⟩ | ⟨low, eq⟩ := u.underReset_cases <;> rw [eq]
    · rw [← resetEngine_delivered]
      exact if_pos high
    · exact State.underReset_low (s := u.within _) low
  rw [within_delivered]
  cases m with
  | engine => exact (within_delivered pixels bytes s).symm
  | rst | cmd | cfg | byte | eos | pixel | idle =>
    refine Eq.trans ?_ (underReset _)
    rw [within_delivered]
    rfl

theorem engineStep_delivered {s t : State} (stepped : engineStep s = .next t) :
    engineStep (s.within (delivered pixels bytes)) = .next (t.within (delivered pixels bytes)) := by
  cases rst : s.pins.rst
  case true =>
    obtain rfl := Host.Outcome.next.inj ((engineStep_of_rst rst).symm.trans stepped)
    rw [← resetEngine_delivered]
    exact engineStep_of_rst rst
  case false =>
    cases busy : s.busy
    case true =>
      exact ((jobStep_of_engineStep rst busy stepped).within (.inl ⟨rfl, rfl⟩) (.inr ⟨rfl, rfl⟩)).engineStep rst
    case false =>
      cases accepts : s.accepts
      case true =>
        obtain rfl := Host.Outcome.next.inj ((engineStep_of_accepts rst accepts).symm.trans stepped)
        rw [← jobStart_delivered]
        exact engineStep_of_accepts rst accepts
      case false =>
        have stopped := busy_eq_false_iff.mp busy
        obtain rfl := Host.Outcome.next.inj ((engineStep_of_stopped rst accepts stopped).symm.trans stepped)
        exact engineStep_of_stopped rst accepts stopped

/-- Any step, of the engine or of the host, does the same behind earlier output. -/
theorem step_delivered {s t : State} (stepped : step s = .next t) :
    step (s.within (delivered pixels bytes)) = .next (t.within (delivered pixels bytes)) := by
  obtain ⟨host, engine⟩ | ⟨rest, host, engine⟩ | ⟨m, rest, notTurn, host, rfl⟩ := step_cases stepped
  · exact (step_engine (s := s.within _) host).trans (engineStep_delivered pixels bytes engine)
  · have h := engineStep_delivered pixels bytes engine
    rw [step, show (s.within (delivered pixels bytes)).host = _ from host]
    exact h
  · rw [← hostMove_delivered]
    exact step_hostMove (s := s.within _) host notTurn

theorem run_delivered (n : Nat) {s t : State} (ran : Host.Core.run Sys2Proof.core n s = .next t) :
    Host.Core.run Sys2Proof.core n (s.within (delivered pixels bytes)) = .next (t.within (delivered pixels bytes)) := by
  induction n generalizing s with
  | zero =>
    obtain rfl := Host.Outcome.next.inj ran
    rfl
  | succ n ih =>
    obtain ⟨u, stepped⟩ := step_next s
    rw [run_of_step n stepped] at ran
    exact (run_of_step n (step_delivered pixels bytes stepped)).trans (ih ran)

theorem run_next (n : Nat) (s : State) : ∃ t, Host.Core.run Sys2Proof.core n s = .next t := by
  induction n generalizing s with
  | zero => exact ⟨s, rfl⟩
  | succ n ih =>
    obtain ⟨u, stepped⟩ := step_next s
    rw [run_of_step n stepped]
    exact ih u

/-- A job start with no output delivered before it. -/
def State.freshStart (s : State) : State := { s.jobStart with poq := [], boq := [] }

/-- A job start is its fresh start behind the output of before. -/
theorem jobStart_eq_freshStart (s : State) : s.jobStart = s.freshStart.within (delivered s.poq s.boq) := by
  obtain ⟨poq, boq, -⟩ := jobStart_keeps_outputs_and_host s
  rw [within_delivered, State.freshStart]
  simp only [List.append_nil, ← poq, ← boq]

/-- A fresh start is a function of the parameters, the control inputs and the coming host moves (R222). -/
theorem freshStart_congr {s1 s2 : State} (params : s1.params = s2.params) (pins : s1.pins = s2.pins)
    (host : s1.host = s2.host) : s1.freshStart = s2.freshStart := by
  unfold State.freshStart State.jobStart State.initJob State.setHeader State.raise State.setPhase
  dsimp only
  rw [params, pins, host]
  split_ifs <;> rfl

/-- Settles O56: both runs are the run from one fresh start, each behind its own earlier output. -/
theorem jobsAreIsolated : Obligations.JobsAreIsolated := by
  intro s1 s2 params pins host turn low accepts1 accepts2 n t1 ran
  have start (s : State) (turn : s.engineMoves = true) (low : s.pins.rst = false) (accepts : s.accepts = true) :
      step s = .next (s.afterTurn.freshStart.within (delivered s.poq s.boq)) := by
    rw [step_of_accepts turn low accepts, jobStart_eq_freshStart]
    rfl
  have turn2 : s2.engineMoves = true := by rw [← turn, State.engineMoves, State.engineMoves, host]
  have common : s1.afterTurn.freshStart = s2.afterTurn.freshStart :=
    freshStart_congr params pins (congrArg List.tail host)
  obtain ⟨t, fresh⟩ := run_next n s1.afterTurn.freshStart
  have ran1 := run_delivered s1.poq s1.boq n fresh
  have ran2 := run_delivered s2.poq s2.boq n fresh
  rw [run_of_step n (start s1 turn low accepts1)] at ran
  obtain rfl := Host.Outcome.next.inj (ran1.symm.trans ran)
  rw [common] at ran2
  exact ⟨_, t.poq, t.boq, (run_of_step n (start s2 turn2 (pins ▸ low) accepts2)).trans ran2, rfl, rfl, rfl, rfl, rfl,
    fun _ => ⟨rfl, rfl, rfl⟩⟩

end Sys2Proof.Machine
end

section
/-! PROOFS. The encoder against the decoder (41_color_cache.md section 4): what an encode job has still to emit, and the two
machines' pixel steps side by side. The encoder names a run only when it closes it and the decoder reads its length when it
begins, so the decoder's `RUN` is the number of repeats the encoder's pending run has still to take. -/

namespace Sys2Proof.Machine

/-! What an encoder has still to emit. -/

/-- The operation for a pixel that differs from `PREV` (R185, R186). -/
def freshOp (px : Pixel) (s : State) : Instr := if s.contains px then .opIndex (pixelHash px) else selectDelta px s.prev

/-- What the encoder will do with the coming pixels: how many of them its pending run has still to take, and the bytes it emits
behind the one that closes that run. -/
def plan : List Pixel → State → Nat × List Byte
  | [], _ => (0, [])
  | px :: more, s =>
    let rest := plan more s.encodePixelStep
    if px = s.prev then
      if s.run = 0 then (0, encode (.opRun (rest.1 + 1)) ++ rest.2) else (rest.1 + 1, rest.2)
    else (0, encode (freshOp px s) ++ rest.2)

/-- The byte that closes the pending run, if there is one, after `ahead` more repeats. -/
def State.closing (s : State) (ahead : Nat) : List Byte := if s.run = 0 then [] else encode (.opRun (s.run.toNat + ahead))

/-- All the bytes an encoder has still to emit for the pixels in its queue. -/
def State.planned (s : State) : List Byte := s.closing (plan s.piq s).1 ++ (plan s.piq s).2

theorem plan_nil (s : State) : plan [] s = (0, []) := rfl

theorem plan_fresh {s : State} {px : Pixel} (fresh : px ≠ s.prev) (more : List Pixel) :
    plan (px :: more) s = (0, encode (freshOp px s) ++ (plan more s.encodePixelStep).2) := by
  rw [plan, if_neg fresh]

theorem plan_first {s : State} {px : Pixel} (repeats : px = s.prev) (noRun : s.run = 0) (more : List Pixel) :
    plan (px :: more) s =
      (0, encode (.opRun ((plan more s.encodePixelStep).1 + 1)) ++ (plan more s.encodePixelStep).2) := by
  rw [plan, if_pos repeats, if_pos noRun]

theorem plan_further {s : State} {px : Pixel} (repeats : px = s.prev) (pending : s.run ≠ 0) (more : List Pixel) :
    plan (px :: more) s = ((plan more s.encodePixelStep).1 + 1, (plan more s.encodePixelStep).2) := by
  rw [plan, if_pos repeats, if_neg pending]

/-- No repeats are awaited where no run is pending. -/
theorem plan_ahead_of_noRun {s : State} (noRun : s.run = 0) (pixels : List Pixel) : (plan pixels s).1 = 0 := by
  cases pixels with
  | nil => rfl
  | cons px more =>
    by_cases repeats : px = s.prev
    · rw [plan_first repeats noRun]
    · rw [plan_fresh repeats]

theorem closing_of_noRun {s : State} (noRun : s.run = 0) (ahead : Nat) : s.closing ahead = [] := if_pos noRun

theorem closing_of_pending {s : State} (pending : s.run ≠ 0) (ahead : Nat) :
    s.closing ahead = encode (.opRun (s.run.toNat + ahead)) := if_neg pending

theorem planned_of_noRun {s : State} (noRun : s.run = 0) : s.planned = (plan s.piq s).2 := by
  rw [State.planned, closing_of_noRun noRun, List.nil_append]

/-- What is planned before a repeat begins with the run it belongs to. -/
theorem planned_repeat {s : State} {px : Pixel} (repeats : px = s.prev) (more : List Pixel) :
    s.closing (plan (px :: more) s).1 ++ (plan (px :: more) s).2 =
      encode (.opRun (s.run.toNat + 1 + (plan more s.encodePixelStep).1)) ++ (plan more s.encodePixelStep).2 := by
  by_cases noRun : s.run = 0
  · rw [plan_first repeats noRun, closing_of_noRun noRun, noRun, Nat.add_comm (plan more _).1]
    rfl
  · rw [plan_further repeats noRun, closing_of_pending noRun, Nat.add_assoc, Nat.add_comm 1]

/-! The encoder's pixel step. -/

/-- An encode job between its header and its end marker, with exactly the pixels of its image still to come in its queue and
nothing more from the host. -/
structure Encoding (s : State) : Prop where
  inv : s.Inv
  host : s.host = []
  low : s.pins.rst = false
  phase : s.phase = if s.piq = [] then .eEnd else .ePix
  count : s.pixcount.toNat + s.piq.length = s.npix.toNat

theorem Encoding.run_le {s : State} (enc : Encoding s) : s.run.toNat ≤ 61 := by
  refine enc.inv.run_le ?_
  rw [enc.phase]
  split <;> decide

section
variable {s : State} {px : Pixel} {more : List Pixel} (enc : Encoding s) (offered : s.piq = px :: more)
include enc offered

theorem Encoding.ready : s.ready .ePix := by
  have phase := enc.phase
  rw [offered, if_neg (List.cons_ne_nil px more)] at phase
  exact ⟨by rw [State.engineMoves, enc.host], enc.low, phase⟩

theorem Encoding.step : step s = .next s.encodePixelStep := by
  have unturned : s.afterTurn = s := by rw [State.afterTurn, enc.host, List.tail_nil, ← enc.host]
  rw [(step_of_ready_encoder s).2.1 (enc.ready offered), unturned]

/-- The paths of the pixel step, by what they emit and leave in `RUN` and the cache (R182 to R186). -/
theorem Encoding.step_effect : ∃ out, s.ConsumesPixel s.encodePixelStep px out ∧
    ((px = s.prev ∧ s.encodePixelStep.cache = s.cache ∧
        ((s.encodePixelStep.run = 0 ∧ out = encode (.opRun (s.run.toNat + 1))) ∨
          (s.encodePixelStep.run.toNat = s.run.toNat + 1 ∧ out = []))) ∨
      (px ≠ s.prev ∧ s.encodePixelStep.run = 0 ∧
        (∀ j, s.encodePixelStep.cacheRead j = if j = pixelHash px then px else s.cacheRead j) ∧
        out = s.closing 0 ++ encode (freshOp px s))) := by
  have ready := enc.ready offered
  have stepped := enc.step offered
  have bound := enc.run_le
  have closing : s.closing 0 = if s.run = 0 then [] else [BitVec.ofNat 8 (192 + (s.run.toNat - 1))] := by
    refine ite_congr rfl (fun _ => rfl) fun pending => encode_opRun ?_
    bv_omega
  by_cases repeats : px = s.prev
  · obtain ⟨t, stepped', cache, flushes, counts⟩ := encodeRepeatCountsOrFlushes s px more enc.inv ready offered repeats
    obtain rfl := Host.Outcome.next.inj (stepped.symm.trans stepped')
    by_cases flushed : s.run.toNat + 1 = 62 ∨ s.pixcount.toNat + 1 = s.npix.toNat
    · obtain ⟨run, consumed⟩ := flushes flushed
      exact ⟨_, consumed, .inl ⟨repeats, cache, .inl ⟨run, (encode_opRun (l := s.run.toNat + 1) (by omega)).symm⟩⟩⟩
    · obtain ⟨run, consumed⟩ := counts (not_or.mp flushed)
      exact ⟨_, consumed, .inl ⟨repeats, cache, .inr ⟨run, rfl⟩⟩⟩
  · by_cases hit : s.cacheRead (pixelHash px) = px
    · obtain ⟨t, stepped', cache, run, consumed⟩ := encodeHitEmitsTheSlot s px more enc.inv ready offered repeats hit
      obtain rfl := Host.Outcome.next.inj (stepped.symm.trans stepped')
      refine ⟨_, consumed, .inr ⟨repeats, run, fun j => ?_, ?_⟩⟩
      · rw [State.cacheRead_congr cache]
        split
        · next slot => rw [slot, hit]
        · rfl
      · rw [closing, freshOp, if_pos (contains_iff.mpr hit), encode_opIndex]
    · obtain ⟨t, stepped', run, cache, consumed⟩ :=
        encodeMissInsertsAndEmitsADelta s px more enc.inv ready offered repeats hit
      obtain rfl := Host.Outcome.next.inj (stepped.symm.trans stepped')
      refine ⟨_, consumed, .inr ⟨repeats, run, cache, ?_⟩⟩
      rw [closing, freshOp, if_neg fun held => hit (contains_iff.mp held)]

theorem Encoding.count_succ : s.pixcount + 1 = s.npix ↔ more = [] := by
  have count := enc.count
  rw [offered, List.length_cons] at count
  rw [← List.length_eq_zero_iff]
  bv_omega

theorem Encoding.next : Encoding s.encodePixelStep ∧ s.encodePixelStep.piq = more := by
  obtain ⟨out, consumed, -⟩ := enc.step_effect offered
  have piq : s.encodePixelStep.piq = more := (List.cons.inj (offered.symm.trans consumed.took)).2.symm
  have last := enc.count_succ offered
  refine ⟨⟨invariantIsKeptByEveryStep s _ enc.inv (enc.step offered), ?_, ?_, ?_, ?_⟩, piq⟩
  · rw [consumed.host, enc.host, List.tail_nil]
  · rw [consumed.rest.pins, enc.low]
  · rw [piq]
    split
    · next none => exact consumed.phase_end (last.mpr none)
    · next some => exact (consumed.phase_more fun done => some (last.mp done)).trans (enc.ready offered).2.2
  · have count := enc.count
    rw [offered, List.length_cons] at count
    rw [piq, consumed.count, consumed.rest.header.npix]
    bv_omega

/-- A step moves bytes from what is planned to what is output. -/
theorem Encoding.boq_append_planned :
    s.encodePixelStep.boq ++ s.encodePixelStep.planned = s.boq ++ s.planned := by
  obtain ⟨out, consumed, paths⟩ := enc.step_effect offered
  rw [consumed.emitted, List.append_assoc, State.planned, State.planned, (enc.next offered).2, offered]
  congr 1
  obtain ⟨repeats, -, run⟩ | ⟨fresh, run, -, rfl⟩ := paths
  · rw [planned_repeat repeats]
    obtain ⟨flushed, rfl⟩ | ⟨counted, rfl⟩ := run
    · rw [plan_ahead_of_noRun flushed, closing_of_noRun flushed]
      rfl
    · have pending : s.encodePixelStep.run ≠ 0 := fun none => by
        rw [none] at counted
        nomatch counted
      rw [closing_of_pending pending, counted]
      rfl
  · rw [plan_fresh fresh, closing_of_noRun run, List.nil_append, List.append_assoc]

/-- A repeat counts, so it leaves one more to the length of its run. -/
theorem Encoding.repeat_bound (repeats : px = s.prev)
    (bound : s.encodePixelStep.run.toNat + (plan more s.encodePixelStep).1 ≤ 62) :
    s.run.toNat + 1 + (plan more s.encodePixelStep).1 ≤ 62 := by
  obtain ⟨out, -, ⟨-, -, ⟨flushed, -⟩ | ⟨counted, -⟩⟩ | ⟨fresh, -⟩⟩ := enc.step_effect offered
  · have := enc.run_le
    rw [plan_ahead_of_noRun flushed]
    omega
  · rwa [counted] at bound
  · exact absurd repeats fresh

end

/-- No run gets longer than 62 (R25, R183). -/
theorem Encoding.run_bound {pixels : List Pixel} {s : State} (enc : Encoding s) (offered : s.piq = pixels) :
    s.run.toNat + (plan pixels s).1 ≤ 62 := by
  induction pixels generalizing s with
  | nil => exact enc.run_le.trans (by decide)
  | cons px more ih =>
    obtain ⟨enc', piq⟩ := enc.next offered
    have range := enc.run_le
    by_cases repeats : px = s.prev
    · by_cases noRun : s.run = 0
      · rw [plan_first repeats noRun]
        exact range.trans (by decide)
      · have bound := enc.repeat_bound offered repeats (ih enc' piq)
        rw [plan_further repeats noRun]
        omega
    · rw [plan_fresh repeats]
      exact range.trans (by decide)

end Sys2Proof.Machine
end

section
/-! PROOFS. The round trip (41_color_cache.md section 4): an encode job and a decode job over its bytes keep step, pixel by pixel,
with the caches of R137; so the decoder outputs the encoder's pixels. -/

namespace Sys2Proof.Machine

/-! The caches (R137). -/

/-- The same pixel written to its slot of both caches keeps them in step. -/
theorem cachesInStep_write {e d e' d' : State} {px : Pixel} (inStep : CachesInStep e d)
    (enc : ∀ j, e'.cacheRead j = if j = pixelHash px then px else e.cacheRead j)
    (dec : ∀ j, d'.cacheRead j = if j = pixelHash px then px else d.cacheRead j) : CachesInStep e' d' := by
  obtain ⟨others, exception⟩ := inStep
  refine ⟨fun j hj => ?_, ?_⟩
  · rw [enc, dec, others j hj]
  · rw [enc, dec]
    split
    · exact .inl rfl
    · exact exception

/-- A pixel the encoder's cache holds at its slot is there in the decoder's too: the exception of slot 53 is no hit, for
(0,0,0,0) has slot 0. -/
theorem cachesInStep_hit {e d : State} {px : Pixel} (inStep : CachesInStep e d) (hit : e.cacheRead (pixelHash px) = px) :
    d.cacheRead (pixelHash px) = px := by
  obtain ⟨others, exception⟩ := inStep
  by_cases slot : pixelHash px = 53
  · obtain same | ⟨zero, -⟩ := exception
    · rw [slot] at hit ⊢
      rw [← same, hit]
    · rw [slot, zero] at hit
      rw [← hit] at slot
      exact absurd slot (by decide)
  · rw [← others _ slot, hit]

/-- The pixel of a run begun before any other pixel, written at slot 53 by the decoder alone, is the exception. -/
theorem cachesInStep_first {e d d' : State} (inStep : CachesInStep e d) (zero : e.cacheRead 53 = ⟨0, 0, 0, 0⟩)
    (dec : ∀ j, d'.cacheRead j = if j = pixelHash prevInit then prevInit else d.cacheRead j) : CachesInStep e d' := by
  have slot : pixelHash prevInit = 53 := by decide
  rw [slot] at dec
  refine ⟨fun j hj => ?_, .inr ⟨zero, ?_⟩⟩
  · rw [dec, if_neg hj, inStep.1 j hj]
  · rw [dec, if_pos rfl]
    rfl

/-- `PREV` stands in the encoder's cache at its slot, or is still the pixel of the job start. -/
def PrevCached (e : State) : Prop :=
  e.cacheRead (pixelHash e.prev) = e.prev ∨ (e.prev = prevInit ∧ e.cacheRead 53 = ⟨0, 0, 0, 0⟩)

/-- The decoder's write of a repeated pixel keeps the caches in step, though the encoder writes nothing. -/
theorem cachesInStep_repeat {e d e' d' : State} (inStep : CachesInStep e d) (cached : PrevCached e) (kept : e'.cache = e.cache)
    (dec : ∀ j, d'.cacheRead j = if j = pixelHash e.prev then e.prev else d.cacheRead j) : CachesInStep e' d' := by
  have kept (j : Slot) : e'.cacheRead j = e.cacheRead j := State.cacheRead_congr kept j
  obtain held | ⟨first, zero⟩ := cached
  · refine cachesInStep_write inStep (fun j => ?_) dec
    rw [kept]
    split
    · next slot => rw [slot, held]
    · rfl
  · rw [first] at dec
    obtain ⟨others, exception⟩ := cachesInStep_first inStep zero dec
    exact ⟨fun j hj => (kept j).trans (others j hj), by rw [kept]; exact exception⟩

/-! The decoder's operation for what the encoder emits. -/

theorem freshOp_wellFormed (px : Pixel) (s : State) : (freshOp px s).wellFormed = true := by
  rw [freshOp]
  split
  · rfl
  · exact selectDelta_wellFormed px s.prev

/-- The decoder makes of the encoder's operation its pixel. -/
theorem operationPixel_freshOp {e d : State} (prev : d.prev = e.prev) (inStep : CachesInStep e d) (px : Pixel) :
    operationPixel (freshOp px e) d = px := by
  rw [freshOp]
  split
  · next hit => exact cachesInStep_hit inStep (contains_iff.mp hit)
  · rw [← prev]
    exact operationPixel_selectDelta px d

theorem operationRun_freshOp (px : Pixel) (e d : State) : operationRun (freshOp px e) d = d.run := by
  rw [freshOp]
  split
  · rfl
  · exact operationRun_selectDelta px e.prev d

/-! The two machines side by side. -/

/-- The encoder `e` and the decoder `d` have taken the same number of pixels of one image, and the decoder's queue holds what the
encoder has still to emit, then `tail`. -/
structure LockStep (tail : List Byte) (e d : State) : Prop where
  enc : Encoding e
  host : d.host = []
  low : d.pins.rst = false
  err : d.err = 0
  phase : d.phase = if e.piq = [] then d.endOfPixelsPhase else .dPix
  prev : d.prev = e.prev
  pixcount : d.pixcount = e.pixcount
  npix : d.npix = e.npix
  run : d.run.toNat = (plan e.piq e).1
  biq : d.biq = (plan e.piq e).2 ++ tail
  caches : CachesInStep e d
  cached : PrevCached e

/-- What no pair of pixel steps changes: the parameters, all pixels of the image, all bytes of the stream, and the difference of
`BYTECOUNT` and the bytes output. -/
structure Conserved (e d e' d' : State) : Prop where
  params : d'.params = d.params
  encParams : e'.params = e.params
  pixels : d'.poq ++ e'.piq = d.poq ++ e.piq
  bytes : e'.boq ++ e'.planned = e.boq ++ e.planned
  counted : e'.bytecount - BitVec.ofNat 64 e'.boq.length = e.bytecount - BitVec.ofNat 64 e.boq.length

theorem Conserved.trans {e d e' d' e'' d'' : State} (first : Conserved e d e' d') (second : Conserved e' d' e'' d'') :
    Conserved e d e'' d'' :=
  ⟨second.params.trans first.params, second.encParams.trans first.encParams, second.pixels.trans first.pixels,
    second.bytes.trans first.bytes, second.counted.trans first.counted⟩

/-- The pixel step of the decoder beside an encoder that takes `px`: it outputs `px` too. What differs from path to path is what
it leaves in `RUN`, the queue and the cache. -/
theorem LockStep.of_emitsPixel {tail : List Byte} {e d d' : State} {px : Pixel} {more : List Pixel}
    (lock : LockStep tail e d) (offered : e.piq = px :: more) (emits : d.EmitsPixel d' px) (prev : d'.prev = px)
    (run : d'.run.toNat = (plan more e.encodePixelStep).1) (biq : d'.biq = (plan more e.encodePixelStep).2 ++ tail)
    (caches : CachesInStep e.encodePixelStep d') (cached : PrevCached e.encodePixelStep) :
    LockStep tail e.encodePixelStep d' ∧ Conserved e d e.encodePixelStep d' := by
  obtain ⟨enc', piq⟩ := lock.enc.next offered
  obtain ⟨out, consumed, -⟩ := lock.enc.step_effect offered
  obtain ⟨poq, count, phaseEnd, phaseMore, err, ports, header⟩ := emits
  have last := lock.enc.count_succ offered
  rw [← lock.pixcount, ← lock.npix] at last
  refine ⟨⟨enc', ports.host.trans lock.host, (congrArg Pins.rst ports.pins).trans lock.low, err.trans lock.err, ?_,
    prev.trans consumed.prev.symm, ?_, ?_, piq ▸ run, piq ▸ biq, caches, cached⟩, ⟨ports.params, consumed.rest.params, ?_,
    lock.enc.boq_append_planned offered, ?_⟩⟩
  · rw [piq]
    split
    · next none =>
      rw [phaseEnd (last.mpr none), State.endOfPixelsPhase, ports.params]
    · next some =>
      have phase := lock.phase
      rw [offered, if_neg (List.cons_ne_nil px more)] at phase
      exact (phaseMore fun done => some (last.mp done)).trans phase
  · rw [count, consumed.count, lock.pixcount]
  · rw [header.npix, consumed.rest.header.npix, lock.npix]
  · rw [poq, piq, offered, List.append_assoc, List.singleton_append]
  · rw [consumed.bytecount, consumed.emitted, List.length_append, BitVec.ofNat_add]
    bv_omega

/-- The decoder's step on the bytes of an operation, with nothing from the host. -/
theorem step_encoded {d : State} (host : d.host = []) (low : d.pins.rst = false) (phase : d.phase = .dPix) (noRun : d.run = 0)
    {i : Instr} (wf : i.wellFormed = true) {more : List Byte} (biq : d.biq = encode i ++ more) :
    ∃ d', step d = .next d' ∧ d'.run = operationRun i d ∧ d'.biq = more ∧ d.EmitsPixel d' (operationPixel i d) ∧
      d'.prev = operationPixel i d ∧
      ∀ j, d'.cacheRead j = if j = pixelHash (operationPixel i d) then operationPixel i d else d.cacheRead j := by
  have decoded : decode d.biq = .ok (i, more) := biq ▸ decode_encode wf more
  have produced := produce_producesPixel (d.inRead i.byteLength) (operationRun i d) (operationPixel i d)
  refine ⟨_, (step_engine host).trans ((JobStep.operation phase noRun i more decoded).engineStep low), State.produce_run ..,
    ?_, emitsPixel_of_inRead produced.emits, produced.prev, State.produce_cacheRead _ _⟩
  rw [produced.biq, State.inRead_biq, biq, ← encode_length, List.drop_left]

theorem cachesInStep_congr {e d e' d' : State} (inStep : CachesInStep e d) (enc : e'.cache = e.cache) (dec : d'.cache = d.cache) :
    CachesInStep e' d' := by
  simpa only [CachesInStep, State.cacheRead_congr enc, State.cacheRead_congr dec] using inStep

section
variable {tail : List Byte} {e d : State} {px : Pixel} {more : List Pixel} (lock : LockStep tail e d)
  (offered : e.piq = px :: more)
include lock offered

theorem LockStep.dPix : d.phase = .dPix := by
  rw [lock.phase, offered, if_neg (List.cons_ne_nil px more)]

theorem LockStep.prevCached_of_repeat (repeats : px = e.prev) (kept : e.encodePixelStep.cache = e.cache) :
    PrevCached e.encodePixelStep := by
  obtain ⟨out, consumed, -⟩ := lock.enc.step_effect offered
  have cached := lock.cached
  rwa [PrevCached, ← repeats, ← consumed.prev, ← State.cacheRead_congr kept, ← State.cacheRead_congr kept] at cached

/-- A repeat that the encoder adds to a pending run: the decoder is in that run already. -/
theorem LockStep.step_further (repeats : px = e.prev) (kept : e.encodePixelStep.cache = e.cache) (pending : e.run ≠ 0) :
    ∃ d', step d = .next d' ∧ LockStep tail e.encodePixelStep d' ∧ Conserved e d e.encodePixelStep d' := by
  have run := lock.run
  have biq := lock.biq
  rw [offered, plan_further repeats pending] at run biq
  have prev : d.prev = px := lock.prev.trans repeats.symm
  have running : d.run ≠ 0 := fun none => by
    rw [none] at run
    nomatch run
  refine ⟨_, (step_engine lock.host).trans ((JobStep.continuation (lock.dPix offered) running).engineStep lock.low),
    lock.of_emitsPixel offered (prev ▸ runContinuation_emitsPixel d) ((State.runContinuation_prev d).trans prev) ?_ ?_
      (cachesInStep_congr lock.caches kept (State.runContinuation_cache d)) (lock.prevCached_of_repeat offered repeats kept)⟩
  · rw [State.runContinuation_run]
    bv_omega
  · rw [State.runContinuation_biq, biq]

/-- The first repeat of a run: the decoder reads the length at which the encoder will close it. -/
theorem LockStep.step_first (repeats : px = e.prev) (kept : e.encodePixelStep.cache = e.cache) (noRun : e.run = 0) :
    ∃ d', step d = .next d' ∧ LockStep tail e.encodePixelStep d' ∧ Conserved e d e.encodePixelStep d' := by
  have run := lock.run
  have biq := lock.biq
  rw [offered, plan_first repeats noRun] at run biq
  have prev : d.prev = px := lock.prev.trans repeats.symm
  obtain ⟨enc', piq⟩ := lock.enc.next offered
  have bound := lock.enc.repeat_bound offered repeats (enc'.run_bound piq)
  have wf : (Instr.opRun ((plan more e.encodePixelStep).1 + 1)).wellFormed = true := by
    simp only [Instr.wellFormed, Bool.and_eq_true, decide_eq_true_eq]
    omega
  obtain ⟨d', stepped, run', biq', emits, prev', cache⟩ := step_encoded lock.host lock.low (lock.dPix offered)
    (BitVec.eq_of_toNat_eq run) wf (biq.trans (List.append_assoc ..))
  refine ⟨d', stepped, lock.of_emitsPixel offered (prev ▸ emits) (prev'.trans prev) ?_ biq'
    (cachesInStep_repeat lock.caches lock.cached kept ?_) (lock.prevCached_of_repeat offered repeats kept)⟩
  · rw [run', operationRun, BitVec.toNat_ofNat]
    omega
  · rw [← lock.prev]
    exact cache

/-- A pixel that differs from `PREV`: the decoder's operation makes it, and both write it to its slot. -/
theorem LockStep.step_fresh (fresh : px ≠ e.prev) (flushed : e.encodePixelStep.run = 0)
    (written : ∀ j, e.encodePixelStep.cacheRead j = if j = pixelHash px then px else e.cacheRead j) :
    ∃ d', step d = .next d' ∧ LockStep tail e.encodePixelStep d' ∧ Conserved e d e.encodePixelStep d' := by
  have run := lock.run
  have biq := lock.biq
  rw [offered, plan_fresh fresh] at run biq
  obtain ⟨out, consumed, -⟩ := lock.enc.step_effect offered
  obtain ⟨d', stepped, run', biq', emits, prev', cache⟩ := step_encoded lock.host lock.low (lock.dPix offered)
    (BitVec.eq_of_toNat_eq run) (freshOp_wellFormed px e) (biq.trans (List.append_assoc ..))
  rw [operationPixel_freshOp lock.prev lock.caches] at emits prev' cache
  refine ⟨d', stepped, lock.of_emitsPixel offered emits prev' ?_ biq' (cachesInStep_write lock.caches written cache) (.inl ?_)⟩
  · rw [run', operationRun_freshOp, run, plan_ahead_of_noRun flushed]
  · rw [consumed.prev, written, if_pos rfl]

/-- One pixel of the image: the encoder takes it and the decoder outputs it. -/
theorem LockStep.step :
    ∃ d', step d = .next d' ∧ LockStep tail e.encodePixelStep d' ∧ Conserved e d e.encodePixelStep d' := by
  obtain ⟨out, -, ⟨repeats, kept, -⟩ | ⟨fresh, flushed, written, -⟩⟩ := lock.enc.step_effect offered
  · by_cases noRun : e.run = 0
    · exact lock.step_first offered repeats kept noRun
    · exact lock.step_further offered repeats kept noRun
  · exact lock.step_fresh offered fresh flushed written

end

/-- Any number of pixels of the image. -/
theorem LockStep.run_pixels {tail : List Byte} (k : Nat) {e d : State} (lock : LockStep tail e d) (le : k ≤ e.piq.length) :
    ∃ e' d' : State, Host.Core.run Sys2Proof.core k e = .next e' ∧ Host.Core.run Sys2Proof.core k d = .next d' ∧
      LockStep tail e' d' ∧ Conserved e d e' d' ∧ e'.piq = e.piq.drop k := by
  induction k generalizing e d with
  | zero => exact ⟨e, d, rfl, rfl, lock, ⟨rfl, rfl, rfl, rfl, rfl⟩, rfl⟩
  | succ k ih =>
    cases offered : e.piq with
    | nil =>
      rw [offered] at le
      nomatch le
    | cons px more =>
      obtain ⟨d1, stepped, lock1, conserved1⟩ := lock.step offered
      have piq := (lock.enc.next offered).2
      rw [offered] at le
      obtain ⟨e', d', ranE, ranD, lock', conserved, piq'⟩ := ih lock1 (piq ▸ Nat.le_of_succ_le_succ le)
      rw [piq] at piq'
      exact ⟨e', d', (run_of_step k (lock.enc.step offered)).trans ranE, (run_of_step k stepped).trans ranD, lock',
        conserved1.trans conserved, piq'⟩

/-! The job starts (R222) and the first step of each job. -/

/-- The fresh ENCODE job of an image that is not empty, field by field. -/
theorem encodeJob_fields {s : State} {w h : Word32} (width : w ≠ 0) (height : h ≠ 0) (pixels : List Pixel) :
    s.encodeJob w h pixels =
      { params := s.params, pins := ⟨false, true, cmdEncode, w, h⟩, host := [], phase := .eHdr, prev := prevInit, run := 0
        cache := Vector.replicate 64 cacheInit, width := w, height := h, channels := 4, colorspace := 0
        npix := pixelTotal w h, pixcount := 0, bytecount := 0, err := 0, biq := [], biClosed := false, piq := pixels
        poq := s.poq, boq := s.boq } := by
  rw [State.encodeJob, State.jobStart]
  dsimp only
  rw [if_pos rfl, if_neg (not_or.mpr ⟨width, height⟩)]
  rfl

/-- The encoder before its first pixel. -/
def State.encodeStart (s : State) (w h : Word32) (pixels : List Pixel) : State := (s.encodeJob w h pixels).headerEmitStep

/-- The stream of an image: header, body and end marker (R83). -/
def State.imageBytes (s : State) (w h : Word32) (pixels : List Pixel) : List Byte :=
  serializeHeader s.params w h ++ (plan pixels (s.encodeStart w h pixels)).2 ++ endMarkerBytes

theorem step_encodeJob {s : State} {w h : Word32} (width : w ≠ 0) (height : h ≠ 0) (pixels : List Pixel) :
    step (s.encodeJob w h pixels) = .next (s.encodeStart w h pixels) := by
  rw [State.encodeStart, encodeJob_fields width height]
  exact (step_engine rfl).trans ((JobStep.headerEmitted rfl).engineStep rfl)

theorem encodeStart_fields {s : State} {w h : Word32} (width : w ≠ 0) (height : h ≠ 0) (pixels : List Pixel) :
    s.encodeStart w h pixels =
      { params := s.params, pins := ⟨false, true, cmdEncode, w, h⟩, host := [], phase := .ePix, prev := prevInit, run := 0
        cache := Vector.replicate 64 cacheInit, width := w, height := h, channels := 4, colorspace := 0
        npix := pixelTotal w h, pixcount := 0, bytecount := 14, err := 0, biq := [], biClosed := false, piq := pixels
        poq := s.poq, boq := s.boq ++ serializeHeader s.params w h } := by
  rw [State.encodeStart, encodeJob_fields width height]
  rfl

theorem image_not_empty {w h : Word32} (width : w ≠ 0) (height : h ≠ 0) {pixels : List Pixel}
    (size : pixels.length = w.toNat * h.toNat) : pixels ≠ [] := fun none => by
  have pos := pixelTotal_pos width height
  rw [pixelTotal_toNat, ← size, none] at pos
  nomatch pos

theorem encodeStart_encoding {s : State} {w h : Word32} (width : w ≠ 0) (height : h ≠ 0) {pixels : List Pixel}
    (size : pixels.length = w.toNat * h.toNat) : Encoding (s.encodeStart w h pixels) := by
  have some := image_not_empty width height size
  have inv : (s.encodeStart w h pixels).Inv := by
    obtain ⟨-, -, -, low⟩ := commanded_facts s cmdEncode w h
    exact invariantIsKeptByEveryStep _ _ ((jobStart_inv rfl).withInputs low _ _ _ pixels) (step_encodeJob width height pixels)
  rw [encodeStart_fields width height] at inv ⊢
  refine ⟨inv, rfl, rfl, (if_neg some).symm, ?_⟩
  rw [pixelTotal_toNat, size]
  exact Nat.zero_add _

/-- After the first step of each job the encoder and a decoder of its bytes are in step. -/
theorem lockStep_start {s d : State} {w h : Word32} (width : w ≠ 0) (height : h ≠ 0) {pixels : List Pixel}
    (size : pixels.length = w.toNat * h.toNat) (magic : s.params.magic = d.params.magic) :
    ∃ d', step (d.decodeJob (s.imageBytes w h pixels)) = .next d' ∧
      LockStep endMarkerBytes (s.encodeStart w h pixels) d' ∧ d'.params = d.params ∧ d'.poq = d.poq := by
  have fields := encodeStart_fields (s := s) width height pixels
  have piq : (s.encodeStart w h pixels).piq = pixels := by rw [fields]
  have noRun : (s.encodeStart w h pixels).run = 0 := by rw [fields]
  have accepted : parseHeader d.params ((s.imageBytes w h pixels).take 14) = .ok ⟨w, h, 4, 0⟩ :=
    parseHeader_serializeHeader width height magic
  have enough : 14 ≤ (d.decodeJob (s.imageBytes w h pixels)).biq.length := Nat.le_add_left ..
  have stepped := (step_engine rfl).trans
    ((JobStep.headerAccepted (s := d.decodeJob (s.imageBytes w h pixels)) (.inl rfl) enough _ accepted).engineStep rfl)
  have same : (s.encodeStart w h pixels).cache = (d.decodeJob (s.imageBytes w h pixels)).cache := by rw [fields]; rfl
  refine ⟨_, stepped, ⟨encodeStart_encoding width height size, rfl, rfl, rfl, ?_, ?_, ?_, ?_, ?_, ?_,
    ⟨fun i _ => State.cacheRead_congr same i, .inl (State.cacheRead_congr same 53)⟩, .inr ⟨?_, ?_⟩⟩, rfl, rfl⟩
  · rw [piq, if_neg (image_not_empty width height size)]
    rfl
  · rw [fields]; rfl
  · rw [fields]; rfl
  · rw [fields]; rfl
  · rw [plan_ahead_of_noRun noRun]; rfl
  · rw [piq]; rfl
  · rw [fields]
  · exact (State.cacheRead_congr same 53).trans (State.initJob_cacheRead d 53)

/-- The whole of both jobs up to their last pixel, over the encoder's bytes. -/
theorem lockStep_end {s d : State} {w h : Word32} (width : w ≠ 0) (height : h ≠ 0) {pixels : List Pixel}
    (size : pixels.length = w.toNat * h.toNat) (magic : s.params.magic = d.params.magic) : ∃ e' d' : State,
      Host.Core.run Sys2Proof.core (1 + w.toNat * h.toNat) (s.encodeJob w h pixels) = .next e' ∧
      Host.Core.run Sys2Proof.core (1 + w.toNat * h.toNat) (d.decodeJob (s.imageBytes w h pixels)) = .next d' ∧
      LockStep endMarkerBytes e' d' ∧ e'.piq = [] ∧ d'.params = d.params ∧ d'.poq = d.poq ++ pixels ∧
      e'.boq ++ endMarkerBytes = s.boq ++ s.imageBytes w h pixels ∧
      e'.bytecount + BitVec.ofNat 64 s.boq.length = BitVec.ofNat 64 e'.boq.length := by
  have fields := encodeStart_fields (s := s) width height pixels
  have noRun : (s.encodeStart w h pixels).run = 0 := by rw [fields]
  have piq : (s.encodeStart w h pixels).piq = pixels := by rw [fields]
  obtain ⟨d0, stepped, lock, params, poq⟩ := lockStep_start width height size magic
  obtain ⟨e', d', ranE, ranD, lock', conserved, none⟩ := lock.run_pixels (w.toNat * h.toNat) (by rw [piq, size])
  rw [piq, ← size, List.drop_length] at none
  have noRun' : e'.run = 0 := by
    refine lock'.enc.inv.run_flushed ?_
    rw [lock'.enc.phase, none, if_pos rfl]
  refine ⟨e', d', ?_, ?_, lock', none, conserved.params.trans params, ?_, ?_, ?_⟩
  · rw [Nat.add_comm, run_of_step _ (step_encodeJob width height pixels), ranE]
  · rw [Nat.add_comm, run_of_step _ stepped, ranD]
  · have pixels' := conserved.pixels
    rwa [none, piq, List.append_nil, poq] at pixels'
  · have bytes := conserved.bytes
    rw [planned_of_noRun noRun', planned_of_noRun noRun, none, piq, plan_nil, List.append_nil,
      show (s.encodeStart w h pixels).boq = s.boq ++ serializeHeader s.params w h by rw [fields]] at bytes
    rw [bytes, State.imageBytes]
    simp only [List.append_assoc]
  · have counted := conserved.counted
    have boq : (s.encodeStart w h pixels).boq.length = s.boq.length + 14 := by rw [fields]; exact List.length_append
    have bytecount : (s.encodeStart w h pixels).bytecount = 14 := by rw [fields]
    rw [boq, bytecount, BitVec.ofNat_add] at counted
    bv_omega

/-- A run of `a` steps, then one of `b`. -/
theorem run_append {a b : Nat} {s t u : State} (first : Host.Core.run Sys2Proof.core a s = .next t)
    (second : Host.Core.run Sys2Proof.core b t = .next u) : Host.Core.run Sys2Proof.core (a + b) s = .next u := by
  rw [Nat.add_comm, run_of_run a b first, second]

/-- The encoder's last step: the end marker. -/
theorem step_endEmit {e : State} (enc : Encoding e) (none : e.piq = []) : step e = .next e.endEmitStep := by
  have phase : e.phase = .eEnd := by rw [enc.phase, if_pos none]
  exact (step_engine enc.host).trans ((JobStep.markerEmitted phase).engineStep enc.low)

/-- The decoder's last step, where it checks the end marker. -/
theorem step_endCheck {e d : State} (lock : LockStep endMarkerBytes e d) (none : e.piq = [])
    (check : d.params.checkEndMarker = true) : step d = .next ((d.inRead 8).setPhase .done) := by
  have phase : d.phase = .dEnd := by rw [lock.phase, if_pos none, State.endOfPixelsPhase, if_pos check]
  have biq : d.biq = endMarkerBytes := by rw [lock.biq, none, plan_nil, List.nil_append]
  have enough : 8 ≤ d.biq.length := by rw [biq]; decide
  have right : d.biq.take 8 = endMarkerBytes := by rw [biq]; decide
  exact (step_engine lock.host).trans ((JobStep.markerAccepted phase enough right).engineStep lock.low)

/-- The decoder at the end of its job, after the check of the end marker where there is one. -/
theorem run_decoderEnd {e d : State} (lock : LockStep endMarkerBytes e d) (none : e.piq = []) : ∃ d' : State,
    Host.Core.run Sys2Proof.core (if d.params.checkEndMarker = true then 1 else 0) d = .next d' ∧
      d'.phase = .done ∧ d'.err = 0 ∧ d'.poq = d.poq := by
  by_cases check : d.params.checkEndMarker = true
  · rw [if_pos check]
    exact ⟨_, run_of_step 0 (step_endCheck lock none check), rfl, lock.err, rfl⟩
  · rw [if_neg check]
    refine ⟨d, rfl, ?_, lock.err, rfl⟩
    rw [lock.phase, if_pos none, State.endOfPixelsPhase, if_neg check]

/-- Settles O57: the two jobs in step to the last pixel, then the end marker on either side. -/
theorem decodeOfEncodeReturnsTheImage : Obligations.DecodeOfEncodeReturnsTheImage := by
  intro se sd w h pixels width height size magic
  obtain ⟨e, d, ranE, ranD, lock, none, params, poq, boq, counted⟩ := lockStep_end width height size magic
  obtain ⟨d', ended, phase, err, poq'⟩ := run_decoderEnd lock none
  rw [params] at ended
  have lengths := congrArg (BitVec.ofNat 64 ∘ List.length) boq
  simp only [Function.comp_apply, List.length_append, BitVec.ofNat_add] at lengths
  have errE : e.err = 0 := err_eq_zero_of_busy lock.enc.inv (by rw [State.busy, lock.enc.phase, if_pos none])
  refine ⟨_, se.imageBytes w h pixels, e.endEmitStep, d', rfl, run_append ranE (run_of_step 0 (step_endEmit lock.enc none)),
    rfl, errE, boq, ?_, run_append ranD ended, phase, err, poq'.trans poq⟩
  change e.bytecount + BitVec.ofNat 64 endMarkerBytes.length = _
  bv_omega

/-- Settles O58: the bytes of the finished job are `imageBytes`, and the caches of machines in step are in step. -/
theorem encoderAndDecoderCachesStayInStep : Obligations.EncoderAndDecoderCachesStayInStep := by
  intro se sd w h pixels width height size magic e finished k before
  obtain ⟨e', _, ranE, -, lock', none, -, -, boq, -⟩ := lockStep_end width height size magic
  obtain rfl := Host.Outcome.next.inj
    ((run_append ranE (run_of_step 0 (step_endEmit lock'.enc none))).symm.trans finished)
  have bytes : e'.endEmitStep.boq.drop se.boq.length = se.imageBytes w h pixels := by
    rw [show e'.endEmitStep.boq = _ from boq, List.drop_left]
  rw [bytes]
  obtain ⟨d, stepped, lock, -⟩ := lockStep_start width height size magic
  have piq : (se.encodeStart w h pixels).piq = pixels := by rw [encodeStart_fields width height]
  obtain ⟨ek, dk, ranEk, ranDk, lockK, -⟩ := lock.run_pixels (k + 1) (by rw [piq, size]; exact before)
  exact ⟨ek, dk, run_append (run_of_step 0 (step_encodeJob width height pixels)) ranEk,
    run_append (run_of_step 0 stepped) ranDk, lockK.caches⟩

end Sys2Proof.Machine
end
